-- ==== Sys2Proof/Syntax.lean ====
section
/-! DEFINITION. The nineteen commands of 30_encoding.md R114, one constructor per row of
spec/opcode_table.json. A command carries no operand fields: operands are implicit (R113). -/

namespace Sys2Proof

/-- A legal command (R114). -/
inductive Instr where
  /-- CFG.CIPHER: build the cipher instance (46_configure.md R384). -/
  | cfgCipher
  /-- CFG.HASH: build the hash instance (46_configure.md R390). -/
  | cfgHash
  /-- SM3.RAW: plain SM3 digest, 32 raw bytes (41_sm3.md R160). -/
  | sm3Raw
  /-- SM3.HEX: plain SM3 digest, 64 hex characters (41_sm3.md R161). -/
  | sm3Hex
  /-- HASH.RAW: the hash entry point, raw (42_hmac.md R212). -/
  | hashRaw
  /-- HASH.HEX: the hash entry point, hex (42_hmac.md R213). -/
  | hashHex
  /-- HMAC.RAW: HMAC-SM3 under an explicit key, raw (42_hmac.md R210). -/
  | hmacRaw
  /-- HMAC.HEX: HMAC-SM3 under an explicit key, hex (42_hmac.md R211). -/
  | hmacHex
  /-- VERIFY: compare a candidate with the hash entry point (42_hmac.md R214). -/
  | verify
  /-- ENC.RAW: encrypt to raw bytes (44_blockmode.md R310). -/
  | encRaw
  /-- ENC.HEX: encrypt to hex text (44_blockmode.md R311). -/
  | encHex
  /-- ENC.B64: encrypt to base64 text (44_blockmode.md R312). -/
  | encB64
  /-- DEC.RAW: decrypt raw bytes (44_blockmode.md R313). -/
  | decRaw
  /-- DEC.HEX: decrypt hex text (44_blockmode.md R314). -/
  | decHex
  /-- DEC.B64: decrypt base64 text (44_blockmode.md R315). -/
  | decB64
  /-- HEX.ENC: bytes to hex text (45_encoder.md R350). -/
  | hexEnc
  /-- HEX.DEC: hex text to bytes (45_encoder.md R351). -/
  | hexDec
  /-- B64.ENC: bytes to base64 text (45_encoder.md R352). -/
  | b64Enc
  /-- B64.DEC: base64 text to bytes (45_encoder.md R353). -/
  | b64Dec
  deriving DecidableEq, Repr

end Sys2Proof
end

