-- ==== Sys2Proof/Word.lean ====
section
/-! DEFINITION. The value types every unit computes on: bytes, 32-bit words and byte strings
(00_scope.md R10, R12, R14). -/

namespace Sys2Proof

/-- An 8-bit byte (R14). -/
abbrev Byte := BitVec 8

/-- An unsigned 32-bit word, bit 0 least significant (R12, R13). -/
abbrev Word := BitVec 32

/-- A finite string of bytes, byte 0 first (R14). -/
abbrev Bytes := List Byte

end Sys2Proof
end

