-- ==== Sys2Proof/WellFormed.lean ====
section
/-! DEFINITION. When the fields of a command word are legal, written from 30_encoding.md R112 and R115
(the decoder of R116 is written apart from it, in Decode.lean). -/

namespace Sys2Proof

/-- The three fields of a command word (R110). -/
structure CommandFields where
  opc : BitVec 8
  fmt : BitVec 2
  rsv : BitVec 22
  deriving DecidableEq, Repr

/-- RSV must be zero (R110, R115). -/
def CommandFields.rsvZero (f : CommandFields) : Bool := f.rsv == 0

/-- The assigned opcodes (R115). -/
def assignedOpcodes : List (BitVec 8) :=
  [0x01, 0x02, 0x10, 0x11, 0x12, 0x13, 0x20, 0x21, 0x30, 0x31, 0x32, 0x33]

/-- OPC is one of the twelve assigned values (R115). -/
def CommandFields.opcAssigned (f : CommandFields) : Bool := assignedOpcodes.contains f.opc

/-- FMT is legal for the opcode's class (R112): digest commands take 00 and 01, ENC and DEC take 00, 01
and 10, every other command takes 00 only. -/
def CommandFields.fmtLegal (f : CommandFields) : Bool :=
  if f.opc == 0x10 || f.opc == 0x11 || f.opc == 0x12 then f.fmt == 0 || f.fmt == 1
  else if f.opc == 0x20 || f.opc == 0x21 then f.fmt == 0 || f.fmt == 1 || f.fmt == 2
  else f.fmt == 0

/-- A command word's fields are legal when all three checks pass (R115). -/
def CommandFields.wf (f : CommandFields) : Bool := f.rsvZero && f.opcAssigned && f.fmtLegal

end Sys2Proof
end

