-- ==== Sys2Proof/Decode.lean ====
section
/-! DEFINITION. The command word's fields (30_encoding.md R110), the decoder of R116, total on every 32-bit
word and refusing by name, and after it the encoder written from the table of R114. -/

namespace Sys2Proof

/-- Why a command word is illegal (R115). -/
inductive DecodeError where
  /-- RSV is not zero. -/
  | reservedBits
  /-- OPC is not an assigned opcode. -/
  | unassignedOpcode
  /-- FMT is not legal for OPC. -/
  | illegalFormat
  deriving DecidableEq, Repr

/-- OPC, bits 7:0 (R110). -/
def opcOf (w : Word) : BitVec 8 := w.extractLsb' 0 8

/-- FMT, bits 9:8 (R110). -/
def fmtOf (w : Word) : BitVec 2 := w.extractLsb' 8 2

/-- RSV, bits 31:10 (R110). -/
def rsvOf (w : Word) : BitVec 22 := w.extractLsb' 10 22

/-- The fields of a word (R110). -/
def fieldsOf (w : Word) : CommandFields := { opc := opcOf w, fmt := fmtOf w, rsv := rsvOf w }

/-- A command word is legal (R115). -/
def wordLegal (w : Word) : Bool := (fieldsOf w).wf

/-- A word with zero RSV, read by (OPC, FMT) as R116 lists the pairs. -/
def decodeOpcFmt (opc fmt : Nat) : Except DecodeError Instr :=
  match opc with
  | 0x01 => match fmt with
    | 0 => .ok .cfgCipher
    | _ => .error .illegalFormat
  | 0x02 => match fmt with
    | 0 => .ok .cfgHash
    | _ => .error .illegalFormat
  | 0x10 => match fmt with
    | 0 => .ok .sm3Raw
    | 1 => .ok .sm3Hex
    | _ => .error .illegalFormat
  | 0x11 => match fmt with
    | 0 => .ok .hashRaw
    | 1 => .ok .hashHex
    | _ => .error .illegalFormat
  | 0x12 => match fmt with
    | 0 => .ok .hmacRaw
    | 1 => .ok .hmacHex
    | _ => .error .illegalFormat
  | 0x13 => match fmt with
    | 0 => .ok .verify
    | _ => .error .illegalFormat
  | 0x20 => match fmt with
    | 0 => .ok .encRaw
    | 1 => .ok .encHex
    | 2 => .ok .encB64
    | _ => .error .illegalFormat
  | 0x21 => match fmt with
    | 0 => .ok .decRaw
    | 1 => .ok .decHex
    | 2 => .ok .decB64
    | _ => .error .illegalFormat
  | 0x30 => match fmt with
    | 0 => .ok .hexEnc
    | _ => .error .illegalFormat
  | 0x31 => match fmt with
    | 0 => .ok .hexDec
    | _ => .error .illegalFormat
  | 0x32 => match fmt with
    | 0 => .ok .b64Enc
    | _ => .error .illegalFormat
  | 0x33 => match fmt with
    | 0 => .ok .b64Dec
    | _ => .error .illegalFormat
  | _ => .error .unassignedOpcode

/-- Decode (R116): total on every 32-bit word; nothing but the word decides (R111). -/
def decode (w : Word) : Except DecodeError Instr :=
  if rsvOf w = 0 then decodeOpcFmt (opcOf w).toNat (fmtOf w).toNat else .error .reservedBits

/-- A word read from the four bytes that carry it on the bus, byte 0 in data bits 7:0 (20_memory.md R86).
Any other number of bytes is no command word (R111). -/
def wordOfBytes : Bytes → Option Word
  | [b0, b1, b2, b3] => some (b3 ++ b2 ++ b1 ++ b0)
  | _ => none

/-- Decode on any byte string: a command word is exactly four bytes (R111). -/
def decodeBytes (bs : Bytes) : Option (Except DecodeError Instr) := (wordOfBytes bs).map decode

/-- OPC and FMT of each command, from the table of R114. -/
def opcFmt : Instr → BitVec 8 × BitVec 2
  | .cfgCipher => (0x01, 0b00)
  | .cfgHash => (0x02, 0b00)
  | .sm3Raw => (0x10, 0b00)
  | .sm3Hex => (0x10, 0b01)
  | .hashRaw => (0x11, 0b00)
  | .hashHex => (0x11, 0b01)
  | .hmacRaw => (0x12, 0b00)
  | .hmacHex => (0x12, 0b01)
  | .verify => (0x13, 0b00)
  | .encRaw => (0x20, 0b00)
  | .encHex => (0x20, 0b01)
  | .encB64 => (0x20, 0b10)
  | .decRaw => (0x21, 0b00)
  | .decHex => (0x21, 0b01)
  | .decB64 => (0x21, 0b10)
  | .hexEnc => (0x30, 0b00)
  | .hexDec => (0x31, 0b00)
  | .b64Enc => (0x32, 0b00)
  | .b64Dec => (0x33, 0b00)

/-- The word `(RSV << 10) | (FMT << 8) | OPC` with RSV = 0 (R110). -/
def encode (i : Instr) : Word := (0 : BitVec 22) ++ (opcFmt i).2 ++ (opcFmt i).1

/-- A command is well formed when its word's fields are legal (R115). -/
def instrWf (i : Instr) : Bool := wordLegal (encode i)

/-- The command the decoder reads from a table word: its low `nbits` bits are `w`, the bits above are zero;
laid out as four bytes in bus order and decoded from them (entry 12). -/
def decodeTableWord (nbits w : Nat) : Option Instr :=
  let v := w % 2 ^ nbits
  if v < 2 ^ 32 then
    match decodeBytes [BitVec.ofNat 8 v, BitVec.ofNat 8 (v / 256), BitVec.ofNat 8 (v / 65536),
        BitVec.ofNat 8 (v / 16777216)] with
    | some (.ok i) => some i
    | _ => none
  else none

end Sys2Proof
end

