-- ==== Sys2Proof/Machine/Bytes.lean ====
section
/-! DEFINITION. The word and byte-string primitives of 00_scope.md R12 to R18 and the bus byte order of
20_memory.md R86. -/

namespace Sys2Proof.Machine

/-- `rotl(x, n)` (R13): `((x << n) ∨ (x >> (32 − n)))` with n taken mod 32; a rotation by 0 is x. -/
def rotl (x : Word) (n : Nat) : Word := (x <<< (n % 32)) ||| (x >>> (32 - n % 32))

/-- `be32` of four bytes, most significant first (R15). -/
def be32 (b0 b1 b2 b3 : Byte) : Word := b0 ++ b1 ++ b2 ++ b3

/-- Byte `k` of a word counted from its most significant byte. -/
def wordByte (x : Word) (k : Nat) : Byte := x.extractLsb' (8 * (3 - k)) 8

/-- `be32bytes` (R15). -/
def be32bytes (x : Word) : Bytes := [wordByte x 0, wordByte x 1, wordByte x 2, wordByte x 3]

/-- `be64bytes(n)` (R15): the 8-byte big-endian encoding of n mod 2^64. -/
def be64bytes (n : Nat) : Bytes :=
  be32bytes (BitVec.ofNat 32 (n / 4294967296)) ++ be32bytes (BitVec.ofNat 32 n)

/-- `words(b)` (R15): the big-endian words of a string whose length is a multiple of 4. -/
def beWords : Bytes → List Word
  | b0 :: b1 :: b2 :: b3 :: rest => be32 b0 b1 b2 b3 :: beWords rest
  | _ => []

/-- The big-endian bytes of a list of words. -/
def beBytes (ws : List Word) : Bytes := ws.flatMap be32bytes

/-- The first `count` blocks of `size` bytes of a string, in order. -/
def blocksOf (size : Nat) : (count : Nat) → Bytes → List Bytes
  | 0, _ => []
  | count + 1, b => b.take size :: blocksOf size count (b.drop size)

/-- `a ⊕ b` on two strings of equal length (R14). -/
def xorBytes (a b : Bytes) : Bytes := List.zipWith (· ^^^ ·) a b

/-- `v×n` (R14). -/
def repByte (v : Byte) (n : Nat) : Bytes := List.replicate n v

/-- `lower` on one byte (R18): 'A'..'Z' gain 0x20, every other byte is unchanged. -/
def lowerByte (c : Byte) : Byte := if 0x41 ≤ c.toNat ∧ c.toNat ≤ 0x5A then c + 0x20 else c

/-- `lower(b)` (R18). -/
def lower (b : Bytes) : Bytes := b.map lowerByte

/-- A list as a fixed-length vector (extra elements dropped, missing ones zero); used where the spec's rule
gives the length. -/
def toVec {w : Nat} (n : Nat) (l : List (BitVec w)) : Vector (BitVec w) n :=
  ⟨((l ++ List.replicate n 0).take n).toArray, by simp⟩

/-- Bytes in bus order to a data word: byte k in bits [8k+7:8k] (R86). -/
def leWord : Bytes → Word
  | [] => 0
  | b :: bs => (b.setWidth 32) ||| (leWord bs <<< 8)

/-- The first n bytes of a data word in bus order (R86). -/
def leBytes (d : Word) : (n : Nat) → Bytes
  | 0 => []
  | n + 1 => d.extractLsb' 0 8 :: leBytes (d >>> 8) n

end Sys2Proof.Machine
end

