-- ==== Sys2Proof/Config.lean ====
section
/-! DEFINITION. What an implementation fixes (00_scope.md R9) and the free values the spec leaves open
(93_implementation_defined.md U1, U2, U4, U5, U9). A free value is an opaque constant: no proof can learn it. -/

namespace Sys2Proof

/-- A buffer capacity in bytes, within the limits of R9. -/
abbrev Capacity := { n : Nat // 64 ≤ n ∧ n ≤ 65536 }

/-- The parameters CAP_IN0, CAP_IN1 and CAP_OUT (R9, U9); State.caps carries them (entry 1). -/
structure Capacities where
  in0 : Capacity
  in1 : Capacity
  out : Capacity
  deriving DecidableEq, Repr

/-- The defaults of R9. -/
def Config.defaultCaps : Capacities where
  in0 := ⟨4096, by decide⟩
  in1 := ⟨256, by decide⟩
  out := ⟨8224, by decide⟩

/-- The value of the n-th byte drawn for a host read of an unspecified OUT byte (R48, U1, U2;
DESIGN CHOICE in form, safe: entry 6). -/
opaque Config.freeByte : Nat → Byte

/-- What the storage of a never-written IN0 or IN1 byte holds, by window offset: unknown but stable
(R46, R91, U4; DESIGN CHOICE, safe: entry 7). -/
opaque Config.powerOnByte : Nat → Byte

/-- What datapath cell number `k` holds after the completion that took draw `n` (R64, U5;
DESIGN CHOICE in form, safe: entry 10). -/
opaque Config.datapathResidue : (n : Nat) → (k : Nat) → Word

end Sys2Proof
end

