-- ==== Sys2Proof/Machine/State.lean ====
section
/-! DEFINITION. The state of GMCRYPTO-CORE as plain data (10_state.md R30 to R70), what stops a step, and the
state right after reset (R70). Which list of INVENTORY.md a field stands for is said at the field. -/

namespace Sys2Proof.Machine

/-- CFG.MODE and I_MODE (R39, R55): 0 is ECB, 1 is CBC. -/
inductive Mode where
  | ecb
  | cbc
  deriving DecidableEq, Repr

/-- I_PAD (R55): 00 pkcs7, 01 zero, 10 none; an instance never holds 11 (R42). -/
inductive Padding where
  | pkcs7
  | zero
  | noPad
  deriving DecidableEq, Repr

/-- The errors a command reports, in the order of their codes 1 to 9 (60_exceptions.md R410). -/
inductive CmdError where
  | invalidKeyLength
  | invalidIVLength
  | invalidBlockAlignment
  | invalidPaddingBytes
  | invalidEncoding
  | illegalCommand
  | notConfigured
  | invalidConfig
  | capacityExceeded
  deriving DecidableEq, Repr

/-- The stored bits of STATUS (R35); its reserved bits have no storage and read as zero (R44, entry 15). -/
structure Status where
  busy : Bool
  done : Bool
  err : Bool
  werr : Bool
  matched : Bool
  errCode : BitVec 4
  deriving DecidableEq, Repr

/-- The stored bits of CFG (R39). PAD is kept as written, 11 included. -/
structure CfgReg where
  mode : Mode
  pad : BitVec 2
  hmacEn : Bool
  deriving DecidableEq, Repr

/-- The cipher instance (R55). -/
structure CipherInst where
  ready : Bool
  mode : Mode
  pad : Padding
  iv : Vector Byte 16
  rk : Vector Word 32
  deriving DecidableEq, Repr

/-- The hash instance (R58). -/
structure HashInst where
  hmac : Bool
  hk0 : Vector Byte 64
  deriving DecidableEq, Repr

/-- Eight 32-bit words: the chaining value V[0..7], or the working registers A to H (41_sm3.md R149). -/
structure Sm3Regs where
  a : Word
  b : Word
  c : Word
  d : Word
  e : Word
  f : Word
  g : Word
  h : Word
  deriving DecidableEq, Repr

/-- The SM3 datapath registers (R61), never readable (R64). -/
structure Sm3Datapath where
  v : Sm3Regs
  work : Sm3Regs
  w : Vector Word 68
  w' : Vector Word 64
  round : BitVec 6
  block : Nat
  deriving DecidableEq, Repr

/-- The SM4 datapath registers (R62), never readable (R64). -/
structure Sm4Datapath where
  k : Vector Word 36
  x : Vector Word 36
  round : BitVec 5
  chain : Vector Byte 16
  deriving DecidableEq, Repr

/-- The sizes of a host access (20_memory.md R82). -/
inductive Size where
  | b1
  | b2
  | b4
  deriving DecidableEq, Repr

/-- One host access at a byte offset of the window (R82, R80): `BusRead(off, size)` or
`BusWrite(off, size, data)`. -/
inductive Access where
  | read (off : BitVec 18) (size : Size)
  | write (off : BitVec 18) (size : Size) (data : Word)
  deriving DecidableEq, Repr

/-- What happens next at the core's pins (00_scope.md R21; entry 3). -/
inductive HostEvent where
  /-- A bus access arrives (R93). -/
  | access (a : Access)
  /-- No access arrives before the engine's completion step, if a command is in flight (R93(c), R422). -/
  | engineTurn
  /-- The reset input is driven to this level (70_reset_and_hazards.md R450). -/
  | rst (level : Bool)
  deriving DecidableEq, Repr

/-- The response class of an access (R82). -/
inductive Resp where
  | okay
  | error
  deriving DecidableEq, Repr

/-- The answer to one access (R82): a read also returns data, in the low bits of the word (R86). -/
structure Reply where
  resp : Resp
  data : Option Word
  deriving DecidableEq, Repr

/-- The bytes of IN0, IN1 and OUT that have been written, keyed by window offset (R32, R45, R46); strictly
rising offsets. An offset that is not listed has never been written. -/
abbrev Memory := List Host.Cell

/-- The canonical form of a memory: strictly rising offsets, hence no repeats. (A listed byte never equals
what an unlisted one reads as, since an unlisted one reads as no value.) -/
abbrev Memory.wf (m : Memory) : Prop := m.Pairwise (fun c d => c.1 < d.1)

/-- The machine (R30). -/
structure State where
  /-- STATUS (R35); `busy` is the engine phase (R60). -/
  status : Status
  /-- The command latch CMDL (R60). -/
  cmdl : Word
  /-- CFG (R39). -/
  cfg : CfgReg
  /-- LEN0 (R40). -/
  len0 : Word
  /-- LEN1 (R40). -/
  len1 : Word
  /-- OUTLEN (R41). -/
  outlen : Word
  /-- IRQEN.DONE_IE (R43). -/
  doneIe : Bool
  /-- The cipher instance (R55). -/
  cipher : CipherInst
  /-- The hash instance (R58). -/
  hash : HashInst
  /-- The buffers IN0, IN1 and OUT (R45). -/
  mem : Memory
  /-- The SM3 datapath (R61). -/
  sm3 : Sm3Datapath
  /-- The SM4 datapath (R62). -/
  sm4 : Sm4Datapath
  /-- The level of the reset input (R450). -/
  inReset : Bool
  /-- The model's own: the buffer capacities (00_scope.md R9). No step changes them (entry 1). -/
  caps : Capacities
  /-- The model's own: events still to arrive, first one first (entry 3). -/
  host : List HostEvent
  /-- The model's own: answers given to accesses, oldest first (entry 4). -/
  replies : List Reply
  /-- The model's own: how many free values have been drawn (entry 6). -/
  draws : Nat
  deriving DecidableEq, Repr

/-- Why the machine stops with a fault. -/
inductive Fault where
  /-- A command's operand range includes an IN0 or IN1 byte nothing has written (R46, 60_exceptions.md R418).
  Raised by every command that reads m0 or m1, through `operand0` and `operand1`. Safe: the hardware would
  compute on whatever the storage holds (entry 8). -/
  | uninitializedOperand
  deriving DecidableEq, Repr

/-- Why the model gives a step no meaning. -/
inductive Refusal where
  /-- A command without a meaning yet. Raised by `exec`'s arms only; no arm does. Safe. -/
  | notModelled (mnemonic : String)
  /-- A bus access while `rst` is held: the core answers none, and what the bus returns is the platform's
  (R450, 93_implementation_defined.md U12). Raised by `serveEvent`. Safe (entry 11). -/
  | busAccessInReset
  deriving DecidableEq, Repr

/-- The value of eight words all zero. -/
def Sm3Regs.zero : Sm3Regs := { a := 0, b := 0, c := 0, d := 0, e := 0, f := 0, g := 0, h := 0 }

/-- The machine right after reset (R70, R451, R453). CMDL, I_IV, RK, HK0 and the datapath registers, which
R70 leaves unspecified, are zero (DESIGN CHOICE, unsafe: entries 9 and 10); the capacities are the defaults
of 00_scope.md R9 (DESIGN CHOICE: entry 1). -/
def State.reset : State where
  status :=
    { busy := false, done := false, err := false, werr := false, matched := false, errCode := 0 }
  cmdl := 0
  cfg := { mode := .ecb, pad := 0, hmacEn := false }
  len0 := 0
  len1 := 0
  outlen := 0
  doneIe := false
  cipher :=
    { ready := false, mode := .ecb, pad := .pkcs7, iv := Vector.replicate 16 0, rk := Vector.replicate 32 0 }
  hash := { hmac := false, hk0 := Vector.replicate 64 0 }
  mem := []
  sm3 :=
    { v := Sm3Regs.zero, work := Sm3Regs.zero, w := Vector.replicate 68 0, w' := Vector.replicate 64 0,
      round := 0, block := 0 }
  sm4 :=
    { k := Vector.replicate 36 0, x := Vector.replicate 36 0, round := 0, chain := Vector.replicate 16 0 }
  inReset := false
  caps := Config.defaultCaps
  host := []
  replies := []
  draws := 0

end Sys2Proof.Machine
end

