-- ==== Sys2Proof/Machine/Flags.lean ====
section
/-! DEFINITION. The flags (10_state.md R65): what sets and clears each, the error codes (60_exceptions.md R410),
the register views of STATUS, CFG, INST and IRQEN, and the interrupt output (R420). -/

namespace Sys2Proof.Machine

/-- The code of an error (R410). -/
def errorCode : CmdError → BitVec 4
  | .invalidKeyLength => 1
  | .invalidIVLength => 2
  | .invalidBlockAlignment => 3
  | .invalidPaddingBytes => 4
  | .invalidEncoding => 5
  | .illegalCommand => 6
  | .notConfigured => 7
  | .invalidConfig => 8
  | .capacityExceeded => 9

/-- STATUS at acceptance (R36): BUSY set, DONE, ERR, ERRCODE and MATCH cleared, WERR kept. -/
def statusAccepted (st : Status) : Status :=
  { busy := true, done := false, err := false, werr := st.werr, matched := false, errCode := 0 }

/-- STATUS at a successful completion (R37). -/
def statusOk (st : Status) (matched : Bool) : Status :=
  { busy := false, done := true, err := false, werr := st.werr, matched := matched, errCode := 0 }

/-- STATUS at a failing completion (R37, R412). -/
def statusErr (st : Status) (e : CmdError) : Status :=
  { busy := false, done := true, err := true, werr := st.werr, matched := false, errCode := errorCode e }

/-- A W1C write of STATUS while idle (R38): bit 1 clears DONE, bit 3 clears WERR, nothing else. -/
def statusW1c (st : Status) (d : Word) : Status :=
  { st with done := st.done && !d.getLsbD 1, werr := st.werr && !d.getLsbD 3 }

/-- A write dropped while busy sets WERR (R87). -/
def statusWerr (st : Status) : Status := { st with werr := true }

/-- The code of a mode (R39, R42). -/
def modeBit : Mode → BitVec 1
  | .ecb => 0
  | .cbc => 1

/-- The mode a code names (R39). -/
def modeOfBit (b : Bool) : Mode := if b then .cbc else .ecb

/-- The code of a padding (R39, R55). -/
def padCode : Padding → BitVec 2
  | .pkcs7 => 0b00
  | .zero => 0b01
  | .noPad => 0b10

/-- The padding a CFG.PAD code names; 11 is reserved (R39, 46_configure.md R381). -/
def padOfCode (c : BitVec 2) : Option Padding :=
  if c = 0b00 then some .pkcs7
  else if c = 0b01 then some .zero
  else if c = 0b10 then some .noPad
  else none

/-- STATUS as the host reads it (R35); bits 7:5 and 31:12 read as zero. -/
def statusWord (st : Status) : Word :=
  (0 : BitVec 20) ++ st.errCode ++ (0 : BitVec 3) ++ BitVec.ofBool st.matched ++ BitVec.ofBool st.werr
    ++ BitVec.ofBool st.err ++ BitVec.ofBool st.done ++ BitVec.ofBool st.busy

/-- CFG as the host reads it (R39). -/
def cfgWord (c : CfgReg) : Word :=
  (0 : BitVec 28) ++ BitVec.ofBool c.hmacEn ++ c.pad ++ modeBit c.mode

/-- What a write of d stores in CFG (R39, R44): MODE bit 0, PAD bits 2:1, HMAC_EN bit 3. -/
def cfgOfWord (d : Word) : CfgReg :=
  { mode := modeOfBit (d.getLsbD 0), pad := d.extractLsb' 1 2, hmacEn := d.getLsbD 3 }

/-- INST, the read-back of the instance registers (R42). -/
def instWord (c : CipherInst) (h : HashInst) : Word :=
  (0 : BitVec 27) ++ BitVec.ofBool h.hmac ++ padCode c.pad ++ modeBit c.mode ++ BitVec.ofBool c.ready

/-- IRQEN as the host reads it (R43). -/
def irqenWord (doneIe : Bool) : Word := (0 : BitVec 31) ++ BitVec.ofBool doneIe

/-- The interrupt output (R420): DONE and DONE_IE. -/
def irq (s : State) : Bool := s.status.done && s.doneIe

end Sys2Proof.Machine
end

