-- ==== Sys2Proof/Machine/Ops.lean ====
section
/-! DEFINITION. The named operations: reading and writing the buffers (10_state.md R45, R16), accepting a
command (R36), completing one (R37), reporting an error (60_exceptions.md R412), and reset (R450). The core takes
no traps (R423): reporting an error is the one shared operation that stands in the place of an exception, and
there is no return from it (R424). -/

namespace Sys2Proof.Machine

/-- Window offset of IN0 (R32). -/
def in0Base : Nat := 0x10000

/-- Window offset of IN1 (R32). -/
def in1Base : Nat := 0x20000

/-- Window offset of OUT (R32). -/
def outBase : Nat := 0x30000

/-- What the buffers hold at a window offset: a written byte, or no value (R46). -/
def readByte : Memory → Nat → Option Byte
  | [], _ => none
  | c :: m, a => if c.1 = a then some c.2 else readByte m a

/-- `MemRead` of n bytes from window offset a (R16): a value only where every byte has been written (R46). -/
def readBytes (m : Memory) (a : Nat) : (n : Nat) → Option Bytes
  | 0 => some []
  | n + 1 =>
    match readByte m a, readBytes m (a + 1) n with
    | some b, some bs => some (b :: bs)
    | _, _ => none

/-- The cells of a string stored at consecutive offsets. -/
def cellsAt (a : Nat) : Bytes → Memory
  | [] => []
  | b :: bs => (a, b) :: cellsAt (a + 1) bs

/-- `MemWrite` of a string at window offset a (R16), in canonical form. -/
def writeBytes (m : Memory) (a : Nat) (bs : Bytes) : Memory :=
  m.filter (fun c => decide (c.1 < a)) ++ cellsAt a bs ++ m.filter (fun c => decide (a + bs.length ≤ c.1))

/-- Why a command gives no result: an error it reports (R37), or the model's fault (R46). -/
inductive Stop where
  | error (e : CmdError)
  | uninitialized
  deriving DecidableEq, Repr

/-- `ok(out, inst', match)` of `Exec` (30_encoding.md R120). -/
structure Done where
  out : Bytes
  cipher : CipherInst
  hash : HashInst
  matched : Bool
  deriving DecidableEq, Repr

/-- `ok(out, instances unchanged, match = m)`. -/
def doneWith (s : State) (out : Bytes) (matched : Bool) : Done :=
  { out := out, cipher := s.cipher, hash := s.hash, matched := matched }

/-- What the SM3 datapath holds after the completion that takes draw n: unspecified (R64; entry 10). -/
def sm3Residue (n : Nat) : Sm3Datapath where
  v := sm3RegsResidue n 0
  work := sm3RegsResidue n 8
  w := toVec 68 ((List.range 68).map (fun i => Config.datapathResidue n (16 + i)))
  w' := toVec 64 ((List.range 64).map (fun i => Config.datapathResidue n (84 + i)))
  round := (Config.datapathResidue n 148).setWidth 6
  block := (Config.datapathResidue n 149).toNat
where
  sm3RegsResidue (n k : Nat) : Sm3Regs :=
    { a := Config.datapathResidue n k, b := Config.datapathResidue n (k + 1),
      c := Config.datapathResidue n (k + 2), d := Config.datapathResidue n (k + 3),
      e := Config.datapathResidue n (k + 4), f := Config.datapathResidue n (k + 5),
      g := Config.datapathResidue n (k + 6), h := Config.datapathResidue n (k + 7) }

/-- What the SM4 datapath holds after the completion that takes draw n: unspecified (R64; entry 10). -/
def sm4Residue (n : Nat) : Sm4Datapath where
  k := toVec 36 ((List.range 36).map (fun i => Config.datapathResidue n (150 + i)))
  x := toVec 36 ((List.range 36).map (fun i => Config.datapathResidue n (186 + i)))
  round := (Config.datapathResidue n 222).setWidth 5
  chain := toVec 16 (beBytes ((List.range 4).map (fun i => Config.datapathResidue n (223 + i))))

/-- Command acceptance (R36). -/
def accept (s : State) (w : Word) : State :=
  { s with cmdl := w, status := statusAccepted s.status, outlen := 0 }

/-- Successful completion (R37): OUT, OUTLEN, the instances and STATUS change in one step (R92); the datapath
is left unspecified (R64). -/
def completeOk (s : State) (d : Done) : State :=
  { s with
    mem := writeBytes s.mem outBase d.out
    outlen := BitVec.ofNat 32 d.out.length
    cipher := d.cipher
    hash := d.hash
    status := statusOk s.status d.matched
    sm3 := sm3Residue s.draws
    sm4 := sm4Residue s.draws
    draws := s.draws + 1 }

/-- Failing completion (R37, R412): only STATUS, OUTLEN and unspecified contents differ (OUT: entry 14). -/
def completeErr (s : State) (e : CmdError) : State :=
  { s with
    outlen := 0
    status := statusErr s.status e
    sm3 := sm3Residue s.draws
    sm4 := sm4Residue s.draws
    draws := s.draws + 1 }

/-- Command completion (R37) with the result of the command's rule; an operand byte nothing has written is
the model's fault (R46, R418). -/
def complete (s : State) : Except Stop Done → Host.Outcome State Fault Refusal
  | .ok d => .next (completeOk s d)
  | .error (.error e) => .next (completeErr s e)
  | .error .uninitialized => .fault .uninitializedOperand

/-- The reset input asserted (R450 to R452): every piece of state takes its reset value, the buffers keep
their contents; the model's own fields, the capacities among them, go on. -/
def applyReset (s : State) : State :=
  { State.reset with
    mem := s.mem, inReset := true, caps := s.caps, host := s.host, replies := s.replies, draws := s.draws }

/-- A command word accepted with the engine's turn next and `rst` released (entry 12). -/
def placeCommand (s : State) (w : Word) : State :=
  { accept s w with inReset := false, host := .engineTurn :: s.host }

end Sys2Proof.Machine
end

