-- ==== Sys2Proof/Machine/Bus.lean ====
section
/-! DEFINITION. The host's bus accesses (20_memory.md R80 to R93): the register window of 10_state.md R32,
legality, the byte lanes, reads, writes and their side effects. -/

namespace Sys2Proof.Machine

/-- The control registers (R32). -/
inductive Reg where
  | id
  | cmd
  | status
  | cfg
  | len0
  | len1
  | outlen
  | inst
  | irqen
  deriving DecidableEq, Repr

/-- The byte buffers (R45). -/
inductive Buf where
  | in0
  | in1
  | out
  deriving DecidableEq, Repr

/-- Where a legal access falls: a register, or a byte offset in a buffer. -/
inductive Loc where
  | reg (r : Reg)
  | buf (b : Buf) (k : Nat)
  deriving DecidableEq, Repr

/-- The ID register's value (R33). -/
def idValue : Word := 0x474D0001

/-- Size in bytes (R82). -/
def sizeBytes : Size → Nat
  | .b1 => 1
  | .b2 => 2
  | .b4 => 4

/-- A register's window offset (R32). -/
def regOffset : Reg → Nat
  | .id => 0x00
  | .cmd => 0x04
  | .status => 0x08
  | .cfg => 0x0C
  | .len0 => 0x10
  | .len1 => 0x14
  | .outlen => 0x18
  | .inst => 0x1C
  | .irqen => 0x20

/-- The register at a window offset, if one starts there (R32). -/
def regAt (off : Nat) : Option Reg :=
  if off = 0x00 then some .id
  else if off = 0x04 then some .cmd
  else if off = 0x08 then some .status
  else if off = 0x0C then some .cfg
  else if off = 0x10 then some .len0
  else if off = 0x14 then some .len1
  else if off = 0x18 then some .outlen
  else if off = 0x1C then some .inst
  else if off = 0x20 then some .irqen
  else none

/-- A buffer's window offset (R32). -/
def bufBase : Buf → Nat
  | .in0 => in0Base
  | .in1 => in1Base
  | .out => outBase

/-- A buffer's capacity (00_scope.md R9). -/
def bufCap (c : Capacities) : Buf → Nat
  | .in0 => c.in0.val
  | .in1 => c.in1.val
  | .out => c.out.val

/-- The n bytes from window offset `a` on all lie in a buffer's mapped bytes (R84). -/
abbrev InBuf (c : Capacities) (b : Buf) (a n : Nat) : Prop := bufBase b ≤ a ∧ a + n ≤ bufBase b + bufCap c b

/-- Where an access at window offset `a` falls, or none for an ERROR access (R82, R83, R84): misaligned, a size
the location does not take, or a byte that is unmapped. -/
def locateAt (c : Capacities) (a : Nat) (size : Size) : Option Loc :=
  if a % sizeBytes size = 0 then
    if a < 0x10000 then
      if size = .b4 then (regAt a).map .reg else none
    else if InBuf c .in0 a (sizeBytes size) then some (.buf .in0 (a - in0Base))
    else if InBuf c .in1 a (sizeBytes size) then some (.buf .in1 (a - in1Base))
    else if InBuf c .out a (sizeBytes size) then some (.buf .out (a - outBase))
    else none
  else none

/-- Where an access falls (R80: offsets are 18 bits). -/
def locate (c : Capacities) (off : BitVec 18) (size : Size) : Option Loc := locateAt c off.toNat size

/-- A register as the host reads it (R33 to R43; a read of CMD gives 0, R34, R85). -/
def readReg (s : State) : Reg → Word
  | .id => idValue
  | .cmd => 0
  | .status => statusWord s.status
  | .cfg => cfgWord s.cfg
  | .len0 => s.len0
  | .len1 => s.len1
  | .outlen => s.outlen
  | .inst => instWord s.cipher s.hash
  | .irqen => irqenWord s.doneIe

/-- A write of a register while idle (R34, R36, R38, R39, R40, R43, R44, R85). -/
def writeReg (s : State) (d : Word) : Reg → State
  | .id => s
  | .cmd => accept s d
  | .status => { s with status := statusW1c s.status d }
  | .cfg => { s with cfg := cfgOfWord d }
  | .len0 => { s with len0 := d }
  | .len1 => { s with len1 := d }
  | .outlen => s
  | .inst => s
  | .irqen => { s with doneIe := d.getLsbD 0 }

/-- OUT byte k is the last command's result: idle and below OUTLEN (R48). -/
def outDefined (s : State) (k : Nat) : Bool := !s.status.busy && decide (k < s.outlen.toNat)

/-- An IN0 or IN1 byte as the host reads it: the stored byte (R88); a never-written one is unknown but
stable (R46, R91; entry 7). -/
def hostInByte (s : State) (a : Nat) : Byte := (readByte s.mem a).getD (Config.powerOnByte a)

/-- OUT byte k as the host reads it: the result's byte, or free draw n (R48, R88). -/
def hostOutByte (s : State) (k n : Nat) : Byte :=
  if outDefined s k then (readByte s.mem (outBase + k)).getD (Config.freeByte n) else Config.freeByte n

/-- The bytes a legal buffer read returns, lane 0 first (R86). -/
def hostBufBytes (s : State) (b : Buf) (k n : Nat) : Bytes :=
  match b with
  | .in0 => (List.range n).map (fun i => hostInByte s (in0Base + k + i))
  | .in1 => (List.range n).map (fun i => hostInByte s (in1Base + k + i))
  | .out => (List.range n).map (fun i => hostOutByte s (k + i) (s.draws + i))

/-- The data of a legal read (R86, R88). -/
def readData (s : State) (size : Size) : Loc → Word
  | .reg r => readReg s r
  | .buf b k => leWord (hostBufBytes s b k (sizeBytes size))

/-- How many free values a legal read takes: one for each OUT byte (R48). -/
def readDraws (size : Size) : Loc → Nat
  | .buf .out _ => sizeBytes size
  | _ => 0

/-- A read served (R82, R84, R88, R91): no side effect on the core's own state. -/
def busRead (s : State) (off : BitVec 18) (size : Size) : State :=
  match locate s.caps off size with
  | none => { s with replies := s.replies ++ [{ resp := .error, data := some 0 }] }
  | some l =>
    { s with
      replies := s.replies ++ [{ resp := .okay, data := some (readData s size l) }]
      draws := s.draws + readDraws size l }

/-- What a legal write does while idle (R36, R38, R85, R86). -/
def writeLoc (s : State) (size : Size) (d : Word) : Loc → State
  | .reg r => writeReg s d r
  | .buf .in0 k => { s with mem := writeBytes s.mem (in0Base + k) (leBytes d (sizeBytes size)) }
  | .buf .in1 k => { s with mem := writeBytes s.mem (in1Base + k) (leBytes d (sizeBytes size)) }
  | .buf .out _ => s

/-- A write served (R82, R84, R85, R87): dropped with WERR set while busy. -/
def busWrite (s : State) (off : BitVec 18) (size : Size) (d : Word) : State :=
  match locate s.caps off size with
  | none => { s with replies := s.replies ++ [{ resp := .error, data := none }] }
  | some l =>
    let t := if s.status.busy then { s with status := statusWerr s.status } else writeLoc s size d l
    { t with replies := t.replies ++ [{ resp := .okay, data := none }] }

/-- One access served, in one step (R91, R93). -/
def serveAccess (s : State) : Access → State
  | .read off size => busRead s off size
  | .write off size d => busWrite s off size d

end Sys2Proof.Machine
end

