-- ==== Sys2Proof/Machine/Operands.lean ====
section
/-! DEFINITION. Operand fetch with the capacity check (30_encoding.md R113, R121), result emission (R122), and
the checks a command's rule raises an error with (00_scope.md R17). -/

namespace Sys2Proof.Machine

/-- `MemRead` of an operand of `len` bytes at `base`, after its capacity check (R121, R411, R46). -/
def operandAt (m : Memory) (base cap : Nat) (len : Word) : Except Stop Bytes :=
  if cap < len.toNat then .error (.error .capacityExceeded)
  else
    match readBytes m base len.toNat with
    | some b => .ok b
    | none => .error .uninitialized

/-- `Operand0(σ)` (R121): m0. -/
def operand0 (s : State) : Except Stop Bytes := operandAt s.mem in0Base s.caps.in0.val s.len0

/-- `Operand1(σ)` (R121): m1. -/
def operand1 (s : State) : Except Stop Bytes := operandAt s.mem in1Base s.caps.in1.val s.len1

/-- `Emit(out)` (R122) into OUT of `cap` bytes. -/
def emit (cap : Nat) (out : Bytes) : Except Stop Bytes :=
  if cap < out.length then .error (.error .capacityExceeded) else .ok out

/-- `raise Error(e)` unless the condition holds (R16). -/
def require (c : Bool) (e : CmdError) : Except Stop Unit := if c then .ok () else .error (.error e)

/-- A function that either returns a value or fails, its failure raised as e (R17). -/
def orRaise {α : Type} (e : CmdError) : Option α → Except Stop α
  | some a => .ok a
  | none => .error (.error e)

/-- A function's own error raised by the command (R17). -/
def raise {α : Type} : Except CmdError α → Except Stop α
  | .ok a => .ok a
  | .error e => .error (.error e)

/-- The shape shared by every command that turns one computed string into its result:
emit it, instances unchanged, MATCH as given (R120). -/
def finish (s : State) (out : Bytes) (matched : Bool) : Except Stop Done := do
  let o ← emit s.caps.out.val out
  return doneWith s o matched

end Sys2Proof.Machine
end

