-- ==== Sys2Proof/Machine/Encoder.lean ====
section
/-! DEFINITION. The hex and base64 encoder-decoder (45_encoder.md R340 to R346) and its four commands
(R350 to R353). -/

namespace Sys2Proof.Machine

/-- `HexDigit` (R341): the digit of a nibble, lower case. -/
def hexDigit (v : Nat) : Byte := if v < 10 then BitVec.ofNat 8 (0x30 + v) else BitVec.ofNat 8 (0x61 + (v - 10))

/-- `Hex` (R341): two characters per byte, high nibble first. -/
def hex (b : Bytes) : Bytes := b.flatMap (fun x => [hexDigit (x.toNat / 16), hexDigit (x.toNat % 16)])

/-- `Val` (R342): the value of a hex digit, upper case accepted; no value for any other byte. -/
def hexVal (c : Byte) : Option Nat :=
  let n := c.toNat
  if 0x30 ≤ n ∧ n ≤ 0x39 then some (n - 0x30)
  else if 0x61 ≤ n ∧ n ≤ 0x66 then some (n - 0x61 + 10)
  else if 0x41 ≤ n ∧ n ≤ 0x46 then some (n - 0x41 + 10)
  else none

/-- `Unhex` (R342): none is fail(InvalidEncoding), for an odd length or a byte that is no hex digit. -/
def unhex : Bytes → Option Bytes
  | [] => some []
  | [_] => none
  | c :: d :: rest =>
    match hexVal c, hexVal d, unhex rest with
    | some h, some l, some bs => some (BitVec.ofNat 8 (h * 16 + l) :: bs)
    | _, _, _ => none

/-- The pad character '=' (R343). -/
def padChar : Byte := 0x3D

/-- The base64 alphabet (R343): the character of a 6-bit value. -/
def b64Char (v : BitVec 6) : Byte :=
  let n := v.toNat
  if n < 26 then BitVec.ofNat 8 (0x41 + n)
  else if n < 52 then BitVec.ofNat 8 (0x61 + (n - 26))
  else if n < 62 then BitVec.ofNat 8 (0x30 + (n - 52))
  else if n = 62 then 0x2B
  else 0x2F

/-- The value of a character of the alphabet (R343); no value for any other byte, '=' included. -/
def b64Val (c : Byte) : Option (BitVec 6) :=
  let n := c.toNat
  if 0x41 ≤ n ∧ n ≤ 0x5A then some (BitVec.ofNat 6 (n - 0x41))
  else if 0x61 ≤ n ∧ n ≤ 0x7A then some (BitVec.ofNat 6 (n - 0x61 + 26))
  else if 0x30 ≤ n ∧ n ≤ 0x39 then some (BitVec.ofNat 6 (n - 0x30 + 52))
  else if n = 0x2B then some 62
  else if n = 0x2F then some 63
  else none

/-- The 24 bits of three bytes as four characters, most significant 6 bits first (R344). -/
def b64Group (a b c : Byte) : Bytes :=
  let x : BitVec 24 := a ++ b ++ c
  [b64Char (x.extractLsb' 18 6), b64Char (x.extractLsb' 12 6), b64Char (x.extractLsb' 6 6),
    b64Char (x.extractLsb' 0 6)]

/-- `B64` (R344): a final group of 1 byte ends in "==", of 2 bytes in "=". -/
def b64 : Bytes → Bytes
  | [] => []
  | [a] => (b64Group a 0 0).take 2 ++ [padChar, padChar]
  | [a, b] => (b64Group a b 0).take 3 ++ [padChar]
  | a :: b :: c :: rest => b64Group a b c ++ b64 rest

/-- The three bytes of four 6-bit values (R344). -/
def b64Bytes (v0 v1 v2 v3 : BitVec 6) : Bytes :=
  let x : BitVec 24 := v0 ++ v1 ++ v2 ++ v3
  [x.extractLsb' 16 8, x.extractLsb' 8 8, x.extractLsb' 0 8]

/-- A last group of four characters (R345 items 2 to 4): '=' only in the last or the last two places, and
the bits it discards zero. -/
def unb64Last (c0 c1 c2 c3 : Byte) : Option Bytes :=
  match b64Val c0, b64Val c1 with
  | some v0, some v1 =>
    if c3 = padChar then
      if c2 = padChar then
        if v1.extractLsb' 0 4 = 0 then some ((b64Bytes v0 v1 0 0).take 1) else none
      else
        match b64Val c2 with
        | some v2 => if v2.extractLsb' 0 2 = 0 then some ((b64Bytes v0 v1 v2 0).take 2) else none
        | none => none
    else
      match b64Val c2, b64Val c3 with
      | some v2, some v3 => some (b64Bytes v0 v1 v2 v3)
      | _, _ => none
  | _, _ => none

/-- `Unb64` (R345), strict; none is fail(InvalidEncoding). -/
def unb64 : Bytes → Option Bytes
  | [] => some []
  | [c0, c1, c2, c3] => unb64Last c0 c1 c2 c3
  | c0 :: c1 :: c2 :: c3 :: rest =>
    match b64Val c0, b64Val c1, b64Val c2, b64Val c3, unb64 rest with
    | some v0, some v1, some v2, some v3, some bs => some (b64Bytes v0 v1 v2 v3 ++ bs)
    | _, _, _, _, _ => none
  | _ => none

/-- HEX.ENC (R350). -/
def resHexEnc (s : State) : Except Stop Done := do
  let b ← operand0 s
  finish s (hex b) false

/-- HEX.ENC (R350), completed. -/
def execHexEnc (s : State) : Host.Outcome State Fault Refusal := complete s (resHexEnc s)

/-- HEX.DEC (R351). -/
def resHexDec (s : State) : Except Stop Done := do
  let t ← operand0 s
  let b ← orRaise .invalidEncoding (unhex t)
  finish s b false

/-- HEX.DEC (R351), completed. -/
def execHexDec (s : State) : Host.Outcome State Fault Refusal := complete s (resHexDec s)

/-- B64.ENC (R352). -/
def resB64Enc (s : State) : Except Stop Done := do
  let b ← operand0 s
  finish s (b64 b) false

/-- B64.ENC (R352), completed. -/
def execB64Enc (s : State) : Host.Outcome State Fault Refusal := complete s (resB64Enc s)

/-- B64.DEC (R353). -/
def resB64Dec (s : State) : Except Stop Done := do
  let t ← operand0 s
  let b ← orRaise .invalidEncoding (unb64 t)
  finish s b false

/-- B64.DEC (R353), completed. -/
def execB64Dec (s : State) : Host.Outcome State Fault Refusal := complete s (resB64Dec s)

end Sys2Proof.Machine
end

