-- ==== Sys2Proof/Machine/Sm4.lean ====
section
/-! DEFINITION. The SM4 cipher core: S-box, key schedule and block transform (43_sm4.md R240 to R256). Its
functions are total and never fail (R240, R257). -/

namespace Sys2Proof.Machine

/-- The S-box (R241), row by the high nibble, column by the low one. -/
def sm4SboxRows : List (List Byte) :=
  [[0xd6, 0x90, 0xe9, 0xfe, 0xcc, 0xe1, 0x3d, 0xb7, 0x16, 0xb6, 0x14, 0xc2, 0x28, 0xfb, 0x2c, 0x05],
   [0x2b, 0x67, 0x9a, 0x76, 0x2a, 0xbe, 0x04, 0xc3, 0xaa, 0x44, 0x13, 0x26, 0x49, 0x86, 0x06, 0x99],
   [0x9c, 0x42, 0x50, 0xf4, 0x91, 0xef, 0x98, 0x7a, 0x33, 0x54, 0x0b, 0x43, 0xed, 0xcf, 0xac, 0x62],
   [0xe4, 0xb3, 0x1c, 0xa9, 0xc9, 0x08, 0xe8, 0x95, 0x80, 0xdf, 0x94, 0xfa, 0x75, 0x8f, 0x3f, 0xa6]] ++
  [[0x47, 0x07, 0xa7, 0xfc, 0xf3, 0x73, 0x17, 0xba, 0x83, 0x59, 0x3c, 0x19, 0xe6, 0x85, 0x4f, 0xa8],
   [0x68, 0x6b, 0x81, 0xb2, 0x71, 0x64, 0xda, 0x8b, 0xf8, 0xeb, 0x0f, 0x4b, 0x70, 0x56, 0x9d, 0x35],
   [0x1e, 0x24, 0x0e, 0x5e, 0x63, 0x58, 0xd1, 0xa2, 0x25, 0x22, 0x7c, 0x3b, 0x01, 0x21, 0x78, 0x87],
   [0xd4, 0x00, 0x46, 0x57, 0x9f, 0xd3, 0x27, 0x52, 0x4c, 0x36, 0x02, 0xe7, 0xa0, 0xc4, 0xc8, 0x9e]] ++
  [[0xea, 0xbf, 0x8a, 0xd2, 0x40, 0xc7, 0x38, 0xb5, 0xa3, 0xf7, 0xf2, 0xce, 0xf9, 0x61, 0x15, 0xa1],
   [0xe0, 0xae, 0x5d, 0xa4, 0x9b, 0x34, 0x1a, 0x55, 0xad, 0x93, 0x32, 0x30, 0xf5, 0x8c, 0xb1, 0xe3],
   [0x1d, 0xf6, 0xe2, 0x2e, 0x82, 0x66, 0xca, 0x60, 0xc0, 0x29, 0x23, 0xab, 0x0d, 0x53, 0x4e, 0x6f],
   [0xd5, 0xdb, 0x37, 0x45, 0xde, 0xfd, 0x8e, 0x2f, 0x03, 0xff, 0x6a, 0x72, 0x6d, 0x6c, 0x5b, 0x51]] ++
  [[0x8d, 0x1b, 0xaf, 0x92, 0xbb, 0xdd, 0xbc, 0x7f, 0x11, 0xd9, 0x5c, 0x41, 0x1f, 0x10, 0x5a, 0xd8],
   [0x0a, 0xc1, 0x31, 0x88, 0xa5, 0xcd, 0x7b, 0xbd, 0x2d, 0x74, 0xd0, 0x12, 0xb8, 0xe5, 0xb4, 0xb0],
   [0x89, 0x69, 0x97, 0x4a, 0x0c, 0x96, 0x77, 0x7e, 0x65, 0xb9, 0xf1, 0x09, 0xc5, 0x6e, 0xc6, 0x84],
   [0x18, 0xf0, 0x7d, 0xec, 0x3a, 0xdc, 0x4d, 0x20, 0x79, 0xee, 0x5f, 0x3e, 0xd7, 0xcb, 0x39, 0x48]]

/-- `Sbox(b)` (R241). -/
def sm4Sbox (b : Byte) : Byte := (sm4SboxRows.getD (b.toNat / 16) []).getD (b.toNat % 16) 0

/-- τ, the S-box on each byte (R242). -/
def sm4Tau (x : Word) : Word :=
  be32 (sm4Sbox (wordByte x 0)) (sm4Sbox (wordByte x 1)) (sm4Sbox (wordByte x 2)) (sm4Sbox (wordByte x 3))

/-- L, the encryption linear transform (R243). -/
def sm4L (x : Word) : Word := x ^^^ rotl x 2 ^^^ rotl x 10 ^^^ rotl x 18 ^^^ rotl x 24

/-- L', the key-schedule linear transform (R244). -/
def sm4L' (x : Word) : Word := x ^^^ rotl x 13 ^^^ rotl x 23

/-- T (R245). -/
def sm4T (x : Word) : Word := sm4L (sm4Tau x)

/-- T' (R245). -/
def sm4T' (x : Word) : Word := sm4L' (sm4Tau x)

/-- Four consecutive words of a recurrence: K[i..i+3] or X[i..i+3] (R256). -/
structure Quad where
  x0 : Word
  x1 : Word
  x2 : Word
  x3 : Word
  deriving DecidableEq, Repr

/-- The big-endian words of a 16-byte string (R248, R251). -/
def quadOfBytes (b : Bytes) : Quad :=
  { x0 := (beWords b).getD 0 0, x1 := (beWords b).getD 1 0, x2 := (beWords b).getD 2 0,
    x3 := (beWords b).getD 3 0 }

/-- The window moved on by one new word (R256). -/
def quadPush (q : Quad) (x : Word) : Quad := { x0 := q.x1, x1 := q.x2, x2 := q.x3, x3 := x }

/-- FK (R246). -/
def sm4FK : Quad := { x0 := 0xA3B1BAC6, x1 := 0x56AA3350, x2 := 0x677D9197, x3 := 0xB27022DC }

/-- CK[i]: byte j, from the most significant, is (4i + j)·7 mod 256 (R247). -/
def sm4CK (i : Nat) : Word :=
  be32 (BitVec.ofNat 8 (4 * i * 7)) (BitVec.ofNat 8 ((4 * i + 1) * 7)) (BitVec.ofNat 8 ((4 * i + 2) * 7))
    (BitVec.ofNat 8 ((4 * i + 3) * 7))

/-- K[0..3] from the key (R249). -/
def sm4KeyInit (key : Bytes) : Quad :=
  let mk := quadOfBytes key
  { x0 := mk.x0 ^^^ sm4FK.x0, x1 := mk.x1 ^^^ sm4FK.x1, x2 := mk.x2 ^^^ sm4FK.x2, x3 := mk.x3 ^^^ sm4FK.x3 }

/-- K[i+4] from K[i..i+3] and CK[i] (R250). -/
def sm4KeyStep (q : Quad) (ck : Word) : Word := q.x0 ^^^ sm4T' (q.x1 ^^^ q.x2 ^^^ q.x3 ^^^ ck)

/-- The round keys from a window and the CK still to use (R250). -/
def sm4Keys : List Word → Quad → List Word
  | [], _ => []
  | ck :: cks, q => sm4KeyStep q ck :: sm4Keys cks (quadPush q (sm4KeyStep q ck))

/-- `Schedule(k)` (R250): rk[0..31]. -/
def sm4Schedule (key : Bytes) : List Word := sm4Keys ((List.range 32).map sm4CK) (sm4KeyInit key)

/-- X[i+4] from X[i..i+3] and the round key (R252). -/
def sm4RoundWord (q : Quad) (rk : Word) : Word := q.x0 ^^^ sm4T (q.x1 ^^^ q.x2 ^^^ q.x3 ^^^ rk)

/-- One round on the window (R252). -/
def sm4Round (q : Quad) (rk : Word) : Quad := quadPush q (sm4RoundWord q rk)

/-- The window's words in reverse order, each big-endian (R251). -/
def sm4Output (q : Quad) : Bytes := be32bytes q.x3 ++ be32bytes q.x2 ++ be32bytes q.x1 ++ be32bytes q.x0

/-- `Crypt(b, r)` (R252). -/
def sm4Crypt (b : Bytes) (rks : List Word) : Bytes := sm4Output (rks.foldl sm4Round (quadOfBytes b))

/-- `EncBlock(b, RK)` (R253). -/
def sm4Enc (rk : List Word) (b : Bytes) : Bytes := sm4Crypt b rk

/-- `DecBlock(b, RK)` (R254): the round keys in reverse order. -/
def sm4Dec (rk : List Word) (b : Bytes) : Bytes := sm4Crypt b rk.reverse

end Sys2Proof.Machine
end

