-- ==== Sys2Proof/Machine/BlockMode.lean ====
section
/-! DEFINITION. The block-mode processor and padder (44_blockmode.md R290 to R303) and the commands ENC.* and
DEC.* (R310 to R315). -/

namespace Sys2Proof.Machine

/-- `Pad` (R291, R292, R293). -/
def padBytes (p : Padding) (b : Bytes) : Except CmdError Bytes :=
  match p with
  | .pkcs7 => .ok (b ++ repByte (BitVec.ofNat 8 (16 - b.length % 16)) (16 - b.length % 16))
  | .zero => .ok (b ++ repByte 0x00 ((16 - b.length % 16) % 16))
  | .noPad => if b.length % 16 = 0 then .ok b else .error .invalidBlockAlignment

/-- PKCS#7 removal (R294). -/
def unpadPkcs7 (q : Bytes) : Except CmdError Bytes :=
  match q.getLast? with
  | none => .error .invalidPaddingBytes
  | some last =>
    let n := last.toNat
    if n < 1 ∨ 16 < n then .error .invalidPaddingBytes
    else if q.drop (q.length - n) ≠ repByte last n then .error .invalidPaddingBytes
    else .ok (q.take (q.length - n))

/-- Zero removal: strip every trailing 0x00 (R295). -/
def unpadZero (q : Bytes) : Bytes := (q.reverse.dropWhile (fun b => b == 0x00)).reverse

/-- `Unpad` (R294, R295, R296). -/
def unpadBytes (p : Padding) (q : Bytes) : Except CmdError Bytes :=
  match p with
  | .pkcs7 => unpadPkcs7 q
  | .zero => .ok (unpadZero q)
  | .noPad => .ok q

/-- The 16-byte blocks of a string of whole blocks (R297). -/
def cipherBlocks (q : Bytes) : List Bytes := blocksOf 16 (q.length / 16) q

/-- ECB encryption of blocks (R298). -/
def ecbEnc (rk : List Word) (qs : List Bytes) : List Bytes := qs.map (sm4Enc rk)

/-- ECB decryption of blocks (R299). -/
def ecbDec (rk : List Word) (cs : List Bytes) : List Bytes := cs.map (sm4Dec rk)

/-- CBC encryption of blocks, the chaining block before them given (R300). -/
def cbcEnc (rk : List Word) : (prev : Bytes) → List Bytes → List Bytes
  | _, [] => []
  | prev, q :: qs => sm4Enc rk (xorBytes q prev) :: cbcEnc rk (sm4Enc rk (xorBytes q prev)) qs

/-- CBC decryption of blocks, the chaining block before them given (R301). -/
def cbcDec (rk : List Word) : (prev : Bytes) → List Bytes → List Bytes
  | _, [] => []
  | prev, c :: cs => xorBytes (sm4Dec rk c) prev :: cbcDec rk c cs

/-- The ciphertext blocks of padded blocks under an instance (R302); CBC starts from I_IV each time (R300). -/
def encBlocks (c : CipherInst) (qs : List Bytes) : List Bytes :=
  match c.mode with
  | .ecb => ecbEnc c.rk.toList qs
  | .cbc => cbcEnc c.rk.toList c.iv.toList qs

/-- The decrypted blocks of ciphertext blocks under an instance (R303). -/
def decBlocks (c : CipherInst) (cs : List Bytes) : List Bytes :=
  match c.mode with
  | .ecb => ecbDec c.rk.toList cs
  | .cbc => cbcDec c.rk.toList c.iv.toList cs

/-- `Encrypt(p)` under an instance (R302). -/
def encrypt (c : CipherInst) (p : Bytes) : Except CmdError Bytes :=
  match padBytes c.pad p with
  | .ok q => .ok (encBlocks c (cipherBlocks q)).flatten
  | .error e => .error e

/-- `Decrypt(c)` under an instance (R303): whole blocks under every padding. -/
def decrypt (c : CipherInst) (t : Bytes) : Except CmdError Bytes :=
  if t.length % 16 = 0 then unpadBytes c.pad (decBlocks c (cipherBlocks t)).flatten
  else .error .invalidBlockAlignment

/-- What ENC.* do before encoding their result (R310 to R312): the operand, the instance check, Encrypt. -/
def encCommon (s : State) : Except Stop Bytes := do
  let p ← operand0 s
  require s.cipher.ready .notConfigured
  raise (encrypt s.cipher p)

/-- What DEC.* do before decoding their operand (R313 to R315): the operand, then the instance check. -/
def decOperand (s : State) : Except Stop Bytes := do
  let t ← operand0 s
  require s.cipher.ready .notConfigured
  return t

/-- What DEC.* do with the ciphertext (R313 to R315): Decrypt, then emit. -/
def decFinish (s : State) (c : Bytes) : Except Stop Done := do
  let p ← raise (decrypt s.cipher c)
  finish s p false

/-- ENC.RAW (R310). -/
def resEncRaw (s : State) : Except Stop Done := do
  let c ← encCommon s
  finish s c false

/-- ENC.RAW (R310), completed. -/
def execEncRaw (s : State) : Host.Outcome State Fault Refusal := complete s (resEncRaw s)

/-- ENC.HEX (R311). -/
def resEncHex (s : State) : Except Stop Done := do
  let c ← encCommon s
  finish s (hex c) false

/-- ENC.HEX (R311), completed. -/
def execEncHex (s : State) : Host.Outcome State Fault Refusal := complete s (resEncHex s)

/-- ENC.B64 (R312). -/
def resEncB64 (s : State) : Except Stop Done := do
  let c ← encCommon s
  finish s (b64 c) false

/-- ENC.B64 (R312), completed. -/
def execEncB64 (s : State) : Host.Outcome State Fault Refusal := complete s (resEncB64 s)

/-- DEC.RAW (R313). -/
def resDecRaw (s : State) : Except Stop Done := do
  let c ← decOperand s
  decFinish s c

/-- DEC.RAW (R313), completed. -/
def execDecRaw (s : State) : Host.Outcome State Fault Refusal := complete s (resDecRaw s)

/-- DEC.HEX (R314). -/
def resDecHex (s : State) : Except Stop Done := do
  let t ← decOperand s
  let c ← orRaise .invalidEncoding (unhex t)
  decFinish s c

/-- DEC.HEX (R314), completed. -/
def execDecHex (s : State) : Host.Outcome State Fault Refusal := complete s (resDecHex s)

/-- DEC.B64 (R315). -/
def resDecB64 (s : State) : Except Stop Done := do
  let t ← decOperand s
  let c ← orRaise .invalidEncoding (unb64 t)
  decFinish s c

/-- DEC.B64 (R315), completed. -/
def execDecB64 (s : State) : Host.Outcome State Fault Refusal := complete s (resDecB64 s)

end Sys2Proof.Machine
end

