-- ==== Sys2Proof/Machine/Sm3.lean ====
section
/-! DEFINITION. The SM3 hash core (41_sm3.md R140 to R158) and the commands SM3.RAW and SM3.HEX (R160, R161). -/

namespace Sys2Proof.Machine

/-- The initialisation vector (R141). -/
def sm3Iv : Sm3Regs :=
  { a := 0x7380166F, b := 0x4914B2B9, c := 0x172442D7, d := 0xDA8A0600,
    e := 0xA96F30BC, f := 0x163138AA, g := 0xE38DEE4D, h := 0xB0FB0E4E }

/-- The round constant T_j (R142). -/
def sm3T (j : Nat) : Word := if j < 16 then 0x79CC4519 else 0x7A879D8A

/-- FF_j (R143). -/
def sm3FF (j : Nat) (x y z : Word) : Word :=
  if j < 16 then x ^^^ y ^^^ z else (x &&& y) ||| (x &&& z) ||| (y &&& z)

/-- GG_j (R144). -/
def sm3GG (j : Nat) (x y z : Word) : Word :=
  if j < 16 then x ^^^ y ^^^ z else (x &&& y) ||| (~~~x &&& z)

/-- P0 (R145). -/
def sm3P0 (x : Word) : Word := x ^^^ rotl x 9 ^^^ rotl x 17

/-- P1 (R145). -/
def sm3P1 (x : Word) : Word := x ^^^ rotl x 15 ^^^ rotl x 23

/-- The number of zero bytes of the padding, (55 − n) mod 64 (R146). -/
def pad3Zeros (n : Nat) : Nat := (119 - n % 64) % 64

/-- `Pad3(m)` (R146). -/
def pad3 (m : Bytes) : Bytes :=
  m ++ [0x80] ++ repByte 0x00 (pad3Zeros m.length) ++ be64bytes (8 * m.length)

/-- The next word of the expansion, from the words so far, newest first (R147): W[j−16], W[j−9], W[j−3],
W[j−13] and W[j−6] stand at places 15, 8, 2, 12 and 5. -/
def sm3NextW (l : List Word) : Word :=
  sm3P1 (l.getD 15 0 ^^^ l.getD 8 0 ^^^ rotl (l.getD 2 0) 15) ^^^ rotl (l.getD 12 0) 7 ^^^ l.getD 5 0

/-- n more words of the expansion, newest first (R147). -/
def sm3ExpandFrom : (n : Nat) → List Word → List Word
  | 0, l => l
  | n + 1, l => sm3ExpandFrom n (sm3NextW l :: l)

/-- W[0..67] of a 64-byte block (R147). -/
def sm3W (block : Bytes) : List Word := (sm3ExpandFrom 52 (beWords block).reverse).reverse

/-- W'[0..63] from W[0..67]: W'[j] = W[j] ⊕ W[j+4] (R147). -/
def sm3W' (w : List Word) : List Word := List.zipWith (· ^^^ ·) w (w.drop 4)

/-- SS1 of round j (R150). -/
def sm3SS1 (j : Nat) (r : Sm3Regs) : Word := rotl (rotl r.a 12 + r.e + rotl (sm3T j) (j % 32)) 7

/-- SS2 of round j (R150). -/
def sm3SS2 (j : Nat) (r : Sm3Regs) : Word := sm3SS1 j r ^^^ rotl r.a 12

/-- TT1 of round j (R151). -/
def sm3TT1 (j : Nat) (w' : Word) (r : Sm3Regs) : Word := sm3FF j r.a r.b r.c + r.d + sm3SS2 j r + w'

/-- TT2 of round j (R151). -/
def sm3TT2 (j : Nat) (w : Word) (r : Sm3Regs) : Word := sm3GG j r.e r.f r.g + r.h + sm3SS1 j r + w

/-- Round j's register update, every write from the registers before the round (R152). -/
def sm3Round (j : Nat) (w w' : Word) (r : Sm3Regs) : Sm3Regs :=
  { a := sm3TT1 j w' r, b := r.a, c := rotl r.b 9, d := r.c,
    e := sm3P0 (sm3TT2 j w r), f := r.e, g := rotl r.f 19, h := r.g }

/-- Rounds j, j+1, … while both schedules have a word (R155, R158). -/
def sm3Rounds : (j : Nat) → (w w' : List Word) → Sm3Regs → Sm3Regs
  | j, w :: ws, w' :: ws', r => sm3Rounds (j + 1) ws ws' (sm3Round j w w' r)
  | _, _, _, r => r

/-- The feed-forward exclusive or (R154). -/
def sm3Feed (r v : Sm3Regs) : Sm3Regs :=
  { a := r.a ^^^ v.a, b := r.b ^^^ v.b, c := r.c ^^^ v.c, d := r.d ^^^ v.d,
    e := r.e ^^^ v.e, f := r.f ^^^ v.f, g := r.g ^^^ v.g, h := r.h ^^^ v.h }

/-- The compression function CF(V, B) (R149, R155). -/
def sm3CF (v : Sm3Regs) (block : Bytes) : Sm3Regs :=
  sm3Feed (sm3Rounds 0 (sm3W block) (sm3W' (sm3W block)) v) v

/-- The digest's bytes, V[0] first, each word most significant byte first (R157). -/
def sm3Serialise (v : Sm3Regs) : Bytes :=
  beBytes [v.a, v.b, v.c, v.d, v.e, v.f, v.g, v.h]

/-- The chaining value after every block of a padded message, block 0 first (R156, R158). -/
def sm3Iterate (p : Bytes) : Sm3Regs := (blocksOf 64 (p.length / 64) p).foldl sm3CF sm3Iv

/-- `SM3(m)` (R156): the 32-byte digest. -/
def sm3 (m : Bytes) : Bytes := sm3Serialise (sm3Iterate (pad3 m))

/-- SM3.RAW (R160). -/
def resSm3Raw (s : State) : Except Stop Done := do
  let m ← operand0 s
  finish s (sm3 m) false

/-- SM3.RAW (R160), completed. -/
def execSm3Raw (s : State) : Host.Outcome State Fault Refusal := complete s (resSm3Raw s)

/-- SM3.HEX (R161). -/
def resSm3Hex (s : State) : Except Stop Done := do
  let m ← operand0 s
  finish s (hex (sm3 m)) false

/-- SM3.HEX (R161), completed. -/
def execSm3Hex (s : State) : Host.Outcome State Fault Refusal := complete s (resSm3Hex s)

end Sys2Proof.Machine
end

