-- ==== Sys2Proof/Machine/Hmac.lean ====
section
/-! DEFINITION. HMAC-SM3, the hash entry point and verify (42_hmac.md R200 to R206) and the commands HASH.*,
HMAC.* and VERIFY (R210 to R214). -/

namespace Sys2Proof.Machine

/-- `K0(k)` (R201): the key normalised to 64 bytes; a hashed key is zero-padded too (90_conflicts.md C2). -/
def hmacK0 (k : Bytes) : Bytes :=
  if 64 < k.length then sm3 k ++ repByte 0x00 32 else k ++ repByte 0x00 (64 - k.length)

/-- The inner pad (R202). -/
def ipad : Bytes := repByte 0x36 64

/-- The outer pad (R202). -/
def opad : Bytes := repByte 0x5C 64

/-- `HMAC0(m, K)` (R203). -/
def hmac0 (m key : Bytes) : Bytes := sm3 (xorBytes key opad ++ sm3 (xorBytes key ipad ++ m))

/-- `HMAC(m, k)` (R203). -/
def hmac (m k : Bytes) : Bytes := hmac0 m (hmacK0 k)

/-- `HashSurface(m)` under a hash instance (R204). -/
def hashSurface (h : HashInst) (m : Bytes) : Bytes := if h.hmac then hmac0 m h.hk0.toList else sm3 m

/-- `Verify(m, cand)` (R206): case-insensitive, byte for byte, any length. -/
def verifyDigest (h : HashInst) (m cand : Bytes) : Bool := lower cand == lower (hex (hashSurface h m))

/-- HASH.RAW (R212). -/
def resHashRaw (s : State) : Except Stop Done := do
  let m ← operand0 s
  finish s (hashSurface s.hash m) false

/-- HASH.RAW (R212), completed. -/
def execHashRaw (s : State) : Host.Outcome State Fault Refusal := complete s (resHashRaw s)

/-- HASH.HEX (R213). -/
def resHashHex (s : State) : Except Stop Done := do
  let m ← operand0 s
  finish s (hex (hashSurface s.hash m)) false

/-- HASH.HEX (R213), completed. -/
def execHashHex (s : State) : Host.Outcome State Fault Refusal := complete s (resHashHex s)

/-- HMAC.RAW (R210). -/
def resHmacRaw (s : State) : Except Stop Done := do
  let m ← operand0 s
  let k ← operand1 s
  finish s (hmac m k) false

/-- HMAC.RAW (R210), completed. -/
def execHmacRaw (s : State) : Host.Outcome State Fault Refusal := complete s (resHmacRaw s)

/-- HMAC.HEX (R211). -/
def resHmacHex (s : State) : Except Stop Done := do
  let m ← operand0 s
  let k ← operand1 s
  finish s (hex (hmac m k)) false

/-- HMAC.HEX (R211), completed. -/
def execHmacHex (s : State) : Host.Outcome State Fault Refusal := complete s (resHmacHex s)

/-- VERIFY (R214): one byte 0x01 or 0x00, and MATCH. -/
def resVerify (s : State) : Except Stop Done := do
  let m ← operand0 s
  let cand ← operand1 s
  let r := verifyDigest s.hash m cand
  finish s [if r then 0x01 else 0x00] r

/-- VERIFY (R214), completed. -/
def execVerify (s : State) : Host.Outcome State Fault Refusal := complete s (resVerify s)

end Sys2Proof.Machine
end

