-- ==== Sys2Proof/Machine/Configure.lean ====
section
/-! DEFINITION. Instance construction (46_configure.md R380 to R391): CFG.CIPHER and CFG.HASH. -/

namespace Sys2Proof.Machine

/-- A hex text that decodes to exactly 16 bytes; any other text fails with the error given (R382, R383). -/
def bytes16FromText (e : CmdError) (t : Bytes) : Except CmdError Bytes :=
  match unhex t with
  | some b => if b.length = 16 then .ok b else .error e
  | none => .error e

/-- `KeyFromText` (R382). -/
def keyFromText (t : Bytes) : Except CmdError Bytes := bytes16FromText .invalidKeyLength t

/-- `IVFromText` (R383). -/
def ivFromText (t : Bytes) : Except CmdError Bytes := bytes16FromText .invalidIVLength t

/-- The instance CFG.CIPHER builds (R384). -/
def buildCipher (mode : Mode) (pad : Padding) (iv key : Bytes) : CipherInst :=
  { ready := true, mode := mode, pad := pad, iv := toVec 16 iv, rk := toVec 32 (sm4Schedule key) }

/-- `ok(ε, inst' with the hash instance unchanged, match = 0)` (R384). -/
def doneCipher (s : State) (c : CipherInst) : Done :=
  { out := [], cipher := c, hash := s.hash, matched := false }

/-- `ok(ε, inst' with the cipher instance unchanged, match = 0)` (R390). -/
def doneHash (s : State) (h : HashInst) : Done :=
  { out := [], cipher := s.cipher, hash := h, matched := false }

/-- CFG.CIPHER with MODE = ECB (R384, R385): no IV text is read and I_IV is zero. -/
def resCfgCipherEcb (s : State) : Except Stop Done := do
  let kt ← operand0 s
  let pad ← orRaise .invalidConfig (padOfCode s.cfg.pad)
  let key ← raise (keyFromText kt)
  return doneCipher s (buildCipher .ecb pad (repByte 0x00 16) key)

/-- CFG.CIPHER with MODE = CBC (R384): the IV text is m1. -/
def resCfgCipherCbc (s : State) : Except Stop Done := do
  let kt ← operand0 s
  let it ← operand1 s
  let pad ← orRaise .invalidConfig (padOfCode s.cfg.pad)
  let key ← raise (keyFromText kt)
  let iv ← raise (ivFromText it)
  return doneCipher s (buildCipher .cbc pad iv key)

/-- CFG.CIPHER (R384). -/
def resCfgCipher (s : State) : Except Stop Done :=
  match s.cfg.mode with
  | .ecb => resCfgCipherEcb s
  | .cbc => resCfgCipherCbc s

/-- CFG.CIPHER (R384), completed. -/
def execCfgCipher (s : State) : Host.Outcome State Fault Refusal := complete s (resCfgCipher s)

/-- The hash instance of a configured HMAC key (R390). -/
def buildHmac (k : Bytes) : HashInst := { hmac := true, hk0 := toVec 64 (hmacK0 k) }

/-- The plain-digest hash instance CFG.HASH builds (R390). -/
def plainHash : HashInst := { hmac := false, hk0 := toVec 64 (repByte 0x00 64) }

/-- CFG.HASH (R390). -/
def resCfgHash (s : State) : Except Stop Done :=
  match s.cfg.hmacEn with
  | true => do
    let k ← operand0 s
    return doneHash s (buildHmac k)
  | false => .ok (doneHash s plainHash)

/-- CFG.HASH (R390), completed. -/
def execCfgHash (s : State) : Host.Outcome State Fault Refusal := complete s (resCfgHash s)

end Sys2Proof.Machine
end

