-- ==== Sys2Proof/Machine/Dispatch.lean ====
section
/-! DEFINITION. One arm per command (30_encoding.md R120): the completion step of the command. -/

namespace Sys2Proof.Machine

def exec (i : Instr) (s : State) : Host.Outcome State Fault Refusal :=
  match i with
  | .cfgCipher => Sys2Proof.Machine.execCfgCipher s
  | .cfgHash => Sys2Proof.Machine.execCfgHash s
  | .sm3Raw => Sys2Proof.Machine.execSm3Raw s
  | .sm3Hex => Sys2Proof.Machine.execSm3Hex s
  | .hashRaw => Sys2Proof.Machine.execHashRaw s
  | .hashHex => Sys2Proof.Machine.execHashHex s
  | .hmacRaw => Sys2Proof.Machine.execHmacRaw s
  | .hmacHex => Sys2Proof.Machine.execHmacHex s
  | .verify => Sys2Proof.Machine.execVerify s
  | .encRaw => Sys2Proof.Machine.execEncRaw s
  | .encHex => Sys2Proof.Machine.execEncHex s
  | .encB64 => Sys2Proof.Machine.execEncB64 s
  | .decRaw => Sys2Proof.Machine.execDecRaw s
  | .decHex => Sys2Proof.Machine.execDecHex s
  | .decB64 => Sys2Proof.Machine.execDecB64 s
  | .hexEnc => Sys2Proof.Machine.execHexEnc s
  | .hexDec => Sys2Proof.Machine.execHexDec s
  | .b64Enc => Sys2Proof.Machine.execB64Enc s
  | .b64Dec => Sys2Proof.Machine.execB64Dec s

end Sys2Proof.Machine
end

