-- ==== Sys2Proof/Machine/Engine.lean ====
section
/-! DEFINITION. The steps of the two agents (00_scope.md R21): the engine's completion of the latched command
(10_state.md R37, 30_encoding.md R120), and one event at the core's pins (20_memory.md R93,
70_reset_and_hazards.md R450). -/

namespace Sys2Proof.Machine

/-- The completion of the latched command (R37, R120); an illegal word reports IllegalCommand before any
operand is read (R115, 60_exceptions.md R413). -/
def completeLatched (s : State) : Host.Outcome State Fault Refusal :=
  match decode s.cmdl with
  | .ok i => exec i s
  | .error _ => complete s (.error (.error .illegalCommand))

/-- The engine's turn: a command in flight completes; an idle engine waits (R435, R453). -/
def engineStep (s : State) : Host.Outcome State Fault Refusal :=
  if s.status.busy then completeLatched s else .next s

/-- One event at the pins (R93, R450; accesses while `rst` is held: 93_implementation_defined.md U12). -/
def serveEvent (s : State) : HostEvent → Host.Outcome State Fault Refusal
  | .access a => if s.inReset then .refused .busAccessInReset else .next (serveAccess s a)
  | .engineTurn => engineStep s
  | .rst true => .next (applyReset s)
  | .rst false => .next { s with inReset := false }

/-- One step: the next event, or the engine's turn where none is left (entry 3). -/
def stepOnce (s : State) : Host.Outcome State Fault Refusal :=
  match s.host with
  | [] => engineStep s
  | e :: rest => serveEvent { s with host := rest } e

end Sys2Proof.Machine
end

