-- ==== Sys2Proof/Machine/Step.lean ====
section
/-! DEFINITION. One step of the machine, and the placing of a command word so that the next step runs it. -/

namespace Sys2Proof.Machine

/-- One step (00_scope.md R21): see `stepOnce`. -/
def step (s : State) : Host.Outcome State Fault Refusal := stepOnce s

/-- The word `w` accepted as the command in flight, with the engine's turn next (entry 12): a host write of
`w` to CMD (10_state.md R36) that the completion follows at once. -/
def State.withFetchWord (s : State) (nbits w : Nat) : State :=
  placeCommand s (BitVec.ofNat 32 (w % 2 ^ nbits))

end Sys2Proof.Machine
end

