-- ==== Sys2Proof/Safety.lean ====
section
/-! DEFINITION. The terms claims are stated in: operands a command can read, how a command succeeds, fails or
faults, which window bytes exist, the invariant of a run, the state a host access can see, and the state a
command reads. -/

namespace Sys2Proof.Machine

/-- m0 is the string `m`: LEN0 within CAP_IN0 and every operand byte written (30_encoding.md R121, R46). -/
abbrev OperandIs0 (s : State) (m : Bytes) : Prop :=
  s.len0.toNat ≤ s.caps.in0.val ∧ readBytes s.mem in0Base s.len0.toNat = some m

/-- m1 is the string `m` (R121, R46). -/
abbrev OperandIs1 (s : State) (m : Bytes) : Prop :=
  s.len1.toNat ≤ s.caps.in1.val ∧ readBytes s.mem in1Base s.len1.toNat = some m

/-- The command ends in the success of 10_state.md R37: OUT[0..len) is `out`, OUTLEN its length, the instances
are `c` and `h`, STATUS is DONE and MATCH = m with WERR kept, and nothing else changes but the datapath registers
(unspecified, R64) and the model's draw counter. -/
def SucceedsWith (i : Instr) (s : State) (out : Bytes) (m : Bool) (c : CipherInst) (h : HashInst) : Prop :=
  ∃ (x : Sm3Datapath) (y : Sm4Datapath) (n : Nat),
    exec i s = .next
      { s with
        mem := writeBytes s.mem outBase out
        outlen := BitVec.ofNat 32 out.length
        status := { busy := false, done := true, err := false, werr := s.status.werr, matched := m, errCode := 0 }
        cipher := c
        hash := h
        sm3 := x
        sm4 := y
        draws := n }

/-- Success with the instances unchanged (R37). -/
def Succeeds (i : Instr) (s : State) (out : Bytes) (m : Bool) : Prop :=
  SucceedsWith i s out m s.cipher s.hash

/-- The command ends in the failure of R37 and 60_exceptions.md R412 with this error code: OUTLEN 0, MATCH 0,
ERR and ERRCODE set, WERR kept, the instances, IN0 and IN1 as before. That the stored bytes of OUT stay too is the
model's choice (log entry 14): R37 and R412 leave OUT unspecified, and no host read shows those bytes. -/
def FailsWith (i : Instr) (s : State) (code : BitVec 4) : Prop :=
  ∃ (x : Sm3Datapath) (y : Sm4Datapath) (n : Nat),
    exec i s = .next
      { s with
        outlen := 0
        status := { busy := false, done := true, err := true, werr := s.status.werr, matched := false, errCode := code }
        sm3 := x
        sm4 := y
        draws := n }

/-- The command ends with this result of `Emit` (30_encoding.md R122): success where `out` fits CAP_OUT, and
CapacityExceeded (code 9, 60_exceptions.md R411) where it does not. -/
def Emits (i : Instr) (s : State) (out : Bytes) (m : Bool) : Prop :=
  (out.length ≤ s.caps.out.val → Succeeds i s out m) ∧ (s.caps.out.val < out.length → FailsWith i s 9)

/-- The ciphertext a DEC command takes from its operand: the operand itself for DEC.RAW, the bytes its text decodes
to for DEC.HEX and DEC.B64 (44_blockmode.md R313, R314, R315). -/
def CiphertextIs (i : Instr) (t c : Bytes) : Prop :=
  (i = .decRaw ∧ t = c) ∨ (i = .decHex ∧ unhex t = some c) ∨ (i = .decB64 ∧ unb64 t = some c)

/-- A window offset that exists (10_state.md R32, 20_memory.md R84). -/
abbrev Mapped (c : Capacities) (a : Nat) : Prop :=
  a < 0x24 ∨ (0x10000 ≤ a ∧ a < 0x10000 + c.in0.val) ∨ (0x20000 ≤ a ∧ a < 0x20000 + c.in1.val) ∨
    (0x30000 ≤ a ∧ a < 0x30000 + c.out.val)

/-- A window offset of a buffer byte that exists (R45). -/
abbrev BufferOffset (c : Capacities) (a : Nat) : Prop :=
  (in0Base ≤ a ∧ a < in0Base + c.in0.val) ∨ (in1Base ≤ a ∧ a < in1Base + c.in1.val) ∨
    (outBase ≤ a ∧ a < outBase + c.out.val)

/-- The bytes an access covers (R86). -/
abbrev Covered (off : BitVec 18) (size : Size) (a : Nat) : Prop :=
  off.toNat ≤ a ∧ a < off.toNat + sizeBytes size

/-- What holds of the machine in every state a run reaches. -/
structure Inv (s : State) : Prop where
  /-- The memory is in canonical form. -/
  memWf : s.mem.wf
  /-- Only existing buffer bytes are stored (R45). -/
  memMapped : ∀ c ∈ s.mem, BufferOffset s.caps c.1
  /-- While idle, every OUT byte below OUTLEN is stored (R48). -/
  outBacked : s.status.busy = false → ∀ k, k < s.outlen.toNat → (readByte s.mem (outBase + k)).isSome = true
  /-- OUTLEN never exceeds CAP_OUT (R122). -/
  outlenCap : s.outlen.toNat ≤ s.caps.out.val
  /-- While a command is in flight every result flag is clear and OUTLEN is 0 (R36, R87). -/
  busyClear : s.status.busy = true →
    s.status.done = false ∧ s.status.err = false ∧ s.status.matched = false ∧ s.status.errCode = 0 ∧ s.outlen = 0
  /-- ERR says whether ERRCODE is an error (R35, R410). -/
  errIff : s.status.err = true ↔ s.status.errCode ≠ 0
  /-- ERRCODE 10 to 15 are never reported (R410). -/
  errRange : s.status.errCode.toNat ≤ 9
  /-- A failed command leaves no result (R37). -/
  errEmpty : s.status.err = true → s.outlen = 0 ∧ s.status.matched = false
  /-- MATCH stands only beside VERIFY's one-byte result (R214). -/
  matchOne : s.status.matched = true → s.outlen = 1
  /-- While `rst` is held the engine is idle (70_reset_and_hazards.md R450). -/
  resetIdle : s.inReset = true → s.status.busy = false
  /-- Before the first construction INST reads mode ECB and padding pkcs7 (R42, R70). -/
  unconfigured : s.cipher.ready = false → s.cipher.mode = .ecb ∧ s.cipher.pad = .pkcs7

/-- Two states that no host access may tell apart: equal but for CMDL, RK, I_IV, HK0 and the datapath
registers (R57, R64). -/
def SameVisible (s t : State) : Prop :=
  t = { s with
    cmdl := t.cmdl
    cipher := { s.cipher with iv := t.cipher.iv, rk := t.cipher.rk }
    hash := { s.hash with hk0 := t.hash.hk0 }
    sm3 := t.sm3
    sm4 := t.sm4 }

/-- Two states that agree on everything a command may read (30_encoding.md R113): the lengths, CFG, the
instances and the contents of IN0 and IN1, in cores of the same capacities (00_scope.md R9). -/
structure SameOperands (s t : State) : Prop where
  caps : s.caps = t.caps
  len0 : s.len0 = t.len0
  len1 : s.len1 = t.len1
  cfg : s.cfg = t.cfg
  cipher : s.cipher = t.cipher
  hash : s.hash = t.hash
  in0 : ∀ k : Nat, k < s.caps.in0.val → readByte s.mem (in0Base + k) = readByte t.mem (in0Base + k)
  in1 : ∀ k : Nat, k < s.caps.in1.val → readByte s.mem (in1Base + k) = readByte t.mem (in1Base + k)

/-- A step that is safe: it neither faults nor is refused. -/
def Runs (s : State) : Prop := ∃ t, step s = .next t

/-- A host program's run has ended (70_reset_and_hazards.md R472). -/
def Ended (s : State) : Prop := s.host = [] ∧ s.status.busy = false

end Sys2Proof.Machine
end

