-- ==== Sys2Proof/Certificates/Slice0/Obligations.lean ====
section
/-! DEFINITION. The statements for the provers, from the numbered rules of spec/. OBLIGATIONS.json lists them. -/

open Sys2Proof Sys2Proof.Machine

/-! Encoding (30_encoding.md). -/

/-- Words written out from the table of R114, at least one of each family, and one illegal word for each
reason of R115. -/
def Obligations.TableWordsDecode : Prop :=
  decode 0x00000001#32 = .ok .cfgCipher ∧ decode 0x00000110#32 = .ok .sm3Hex ∧
  decode 0x00000011#32 = .ok .hashRaw ∧ decode 0x00000112#32 = .ok .hmacHex ∧
  decode 0x00000013#32 = .ok .verify ∧ decode 0x00000220#32 = .ok .encB64 ∧
  decode 0x00000121#32 = .ok .decHex ∧ decode 0x00000033#32 = .ok .b64Dec ∧
  decode 0x00000410#32 = .error .reservedBits ∧ decode 0x00000003#32 = .error .unassignedOpcode ∧
  decode 0x00000210#32 = .error .illegalFormat

/-- R116: exactly the 19 words of R114 decode to a command, each to its own. -/
def Obligations.DecodeIsExactlyTheTable : Prop :=
  ∀ (w : Word) (i : Instr), decode w = .ok i ↔
    (w, i) ∈ ([(0x00000001#32, .cfgCipher), (0x00000002#32, .cfgHash), (0x00000010#32, .sm3Raw),
      (0x00000110#32, .sm3Hex), (0x00000011#32, .hashRaw), (0x00000111#32, .hashHex),
      (0x00000012#32, .hmacRaw), (0x00000112#32, .hmacHex), (0x00000013#32, .verify),
      (0x00000020#32, .encRaw), (0x00000120#32, .encHex), (0x00000220#32, .encB64),
      (0x00000021#32, .decRaw), (0x00000121#32, .decHex), (0x00000221#32, .decB64),
      (0x00000030#32, .hexEnc), (0x00000031#32, .hexDec), (0x00000032#32, .b64Enc),
      (0x00000033#32, .b64Dec)] : List (Word × Instr))

/-- For every well-formed command: decoding its word gives it back, from the word and from the bytes that carry
it (`decodeTableWord`), and no other word decodes to it. -/
def Obligations.DecodeInvertsEncode : Prop :=
  ∀ i : Instr, instrWf i = true →
    decode (encode i) = .ok i ∧ decodeTableWord 32 (encode i).toNat = some i ∧
    ∀ w : Word, decode w = .ok i → w = encode i

/-- R112 and R115: a word is refused exactly when RSV is not zero, OPC is unassigned, or FMT is not legal for
OPC's class (00 and 01 for the digest commands 0x10 to 0x12; 00, 01 and 10 for ENC and DEC; 00 otherwise). -/
def Obligations.IllegalWordsByFields : Prop :=
  ∀ w : Word, (∃ e, decode w = .error e) ↔
    (w.extractLsb' 10 22 ≠ 0 ∨
      w.extractLsb' 0 8 ∉ ([0x01, 0x02, 0x10, 0x11, 0x12, 0x13, 0x20, 0x21, 0x30, 0x31, 0x32, 0x33] : List (BitVec 8)) ∨
      w.extractLsb' 8 2 = 0b11 ∨
      (w.extractLsb' 8 2 = 0b01 ∧ w.extractLsb' 0 8 ∉ ([0x10, 0x11, 0x12, 0x20, 0x21] : List (BitVec 8))) ∨
      (w.extractLsb' 8 2 = 0b10 ∧ w.extractLsb' 0 8 ∉ ([0x20, 0x21] : List (BitVec 8))))

/-! Steps of the two agents (00_scope.md R21, 10_state.md R36, R37, 20_memory.md R93). -/

/-- R37, R120: the engine's turn with a legal command in flight is exec of the command the latch decodes to. When
the turn comes is the model's choice (log entry 3), not the spec's, which leaves the time open (R470): when no event
is left, or when the next event is the engine's. -/
def Obligations.StepRunsLatchedCommand : Prop :=
  ∀ (s : State) (i : Instr), s.status.busy = true → decode s.cmdl = .ok i →
    (s.host = [] → step s = exec i s) ∧
    ∀ rest, s.host = .engineTurn :: rest → step s = exec i { s with host := rest }

/-- R413: a latched word that Decode maps to Illegal completes with IllegalCommand (code 6) whatever the operands
and the lengths are: no operand is read, so no fault and no other error comes first; the completion is R37's and
R412's for that error (that the stored OUT bytes stay is log entry 14). When the engine's turn, which is that
completion, comes is the model's choice (log entry 3): when no event is left or when the next event is the engine's. -/
def Obligations.IllegalCommandCompletes : Prop :=
  ∀ (s : State) (e : DecodeError), decode s.cmdl = .error e →
    (∃ (x : Sm3Datapath) (y : Sm4Datapath) (n : Nat),
      completeLatched s = .next
        { s with
          outlen := 0
          status := { busy := false, done := true, err := true, werr := s.status.werr, matched := false, errCode := 6 }
          sm3 := x
          sm4 := y
          draws := n }) ∧
    (s.status.busy = true → s.host = [] → step s = completeLatched s) ∧
    (∀ rest, s.status.busy = true → s.host = .engineTurn :: rest →
      step s = completeLatched { s with host := rest })

/-- R36: a 4-byte write of w to CMD while BUSY = 0 latches w, sets BUSY, clears DONE, ERR, ERRCODE, MATCH and
OUTLEN, keeps WERR, and changes nothing else (the reply is the bus's answer). A host read of any OUT byte then
gives a free value (HostReadsTheResult states this of every busy state). -/
def Obligations.CommandAcceptance : Prop :=
  ∀ (s : State) (w : Word), s.status.busy = false →
    serveAccess s (.write 0x00004 .b4 w) =
      { s with
        cmdl := w
        status := { busy := true, done := false, err := false, werr := s.status.werr, matched := false, errCode := 0 }
        outlen := 0
        replies := s.replies ++ [{ resp := .okay, data := none }] } ∧
    ∀ k n, hostOutByte (serveAccess s (.write 0x00004 .b4 w)) k n = Config.freeByte n

/-- R93: the accesses are served one at a time in arrival order, each by one step. R435: an idle engine changes
nothing. That the arrivals and the engine's turns are one list, and that an empty list gives the engine its turn, is
the model's choice (log entry 3): so an engine's turn with nothing in flight changes nothing, and with no event left an
idle core stays as it is. -/
def Obligations.StepServesEventsInOrder : Prop :=
  ∀ (s : State) (rest : List HostEvent),
    (∀ a, s.inReset = false → s.host = .access a :: rest → step s = .next (serveAccess { s with host := rest } a)) ∧
    (s.status.busy = false → s.host = .engineTurn :: rest → step s = .next { s with host := rest }) ∧
    (s.status.busy = false → s.host = [] → step s = .next s)

/-! The bus (20_memory.md). -/

/-- R84 with R82 and R83: an access is an ERROR access exactly when it is misaligned, gives a register another
size than 4, or covers an unmapped byte; then it answers ERROR (a read with data 0) and changes no state. Every
other access answers OKAY. -/
def Obligations.ErrorAccessesChangeNothing : Prop :=
  ∀ (s : State) (off : BitVec 18) (size : Size) (d : Word),
    let bad := off.toNat % sizeBytes size ≠ 0 ∨ (off.toNat < 0x24 ∧ size ≠ .b4) ∨
      ∃ a, Covered off size a ∧ ¬ Mapped s.caps a
    (bad →
      serveAccess s (.read off size) = { s with replies := s.replies ++ [{ resp := .error, data := some 0 }] } ∧
      serveAccess s (.write off size d) = { s with replies := s.replies ++ [{ resp := .error, data := none }] }) ∧
    (¬ bad →
      (∃ x, (serveAccess s (.read off size)).replies = s.replies ++ [{ resp := .okay, data := some x }]) ∧
      (serveAccess s (.write off size d)).replies = s.replies ++ [{ resp := .okay, data := none }])

/-- R85: while idle a legal write to ID, OUTLEN, INST or the OUT window answers OKAY and changes nothing; while
busy it sets WERR and nothing else; a read of CMD answers OKAY with 0. -/
def Obligations.ReadOnlyWritesIgnored : Prop :=
  ∀ (s : State) (off : BitVec 18) (size : Size) (d : Word),
    ((size = .b4 ∧ (off = 0x00000 ∨ off = 0x00018 ∨ off = 0x0001C)) ∨
      (off.toNat % sizeBytes size = 0 ∧ outBase ≤ off.toNat ∧
        off.toNat + sizeBytes size ≤ outBase + s.caps.out.val)) →
    serveAccess s (.write off size d) =
      { s with
        status := { s.status with werr := s.status.werr || s.status.busy }
        replies := s.replies ++ [{ resp := .okay, data := none }] } ∧
    serveAccess s (.read 0x00004 .b4) =
      { s with replies := s.replies ++ [{ resp := .okay, data := some 0 }] }

/-- R87: while BUSY = 1 a legal write to any location answers OKAY, changes nothing it would have changed, and
sets WERR. -/
def Obligations.WritesWhileBusyAreDropped : Prop :=
  ∀ (s : State) (off : BitVec 18) (size : Size) (d : Word), s.status.busy = true →
    off.toNat % sizeBytes size = 0 → (off.toNat < 0x24 → size = .b4) → (∀ a, Covered off size a → Mapped s.caps a) →
    serveAccess s (.write off size d) =
      { s with
        status := { s.status with werr := true }
        replies := s.replies ++ [{ resp := .okay, data := none }] }

/-- R38: a write of d to STATUS while idle clears DONE if d[1] is 1 and WERR if d[3] is 1, and every other bit of d
is ignored; while busy it is dropped and sets WERR, whatever d[3] is. -/
def Obligations.StatusWriteOneToClear : Prop :=
  ∀ (s : State) (d : Word),
    (s.status.busy = false → serveAccess s (.write 0x00008 .b4 d) =
      { s with
        status :=
          { s.status with
            done := if d.getLsbD 1 then false else s.status.done
            werr := if d.getLsbD 3 then false else s.status.werr }
        replies := s.replies ++ [{ resp := .okay, data := none }] }) ∧
    (s.status.busy = true → serveAccess s (.write 0x00008 .b4 d) =
      { s with
        status := { s.status with werr := true }
        replies := s.replies ++ [{ resp := .okay, data := none }] })

/-- R39, R40, R43, R44: written while idle, CFG reads back d with bits 31:4 zero, IRQEN d with bits 31:1 zero,
LEN0 and LEN1 every bit of d; each write changes that register alone. -/
def Obligations.ConfigurationRegistersStore : Prop :=
  ∀ (s : State) (d : Word), s.status.busy = false →
    let rs := s.replies ++ [{ resp := .okay, data := none }]
    (∃ c, serveAccess s (.write 0x0000C .b4 d) = { s with cfg := c, replies := rs } ∧
      readReg (serveAccess s (.write 0x0000C .b4 d)) .cfg = d &&& 0x0000000F) ∧
    serveAccess s (.write 0x00010 .b4 d) = { s with len0 := d, replies := rs } ∧
    serveAccess s (.write 0x00014 .b4 d) = { s with len1 := d, replies := rs } ∧
    (∃ b, serveAccess s (.write 0x00020 .b4 d) = { s with doneIe := b, replies := rs } ∧
      readReg (serveAccess s (.write 0x00020 .b4 d)) .irqen = d &&& 0x00000001)

/-- R32, R33, R34, R40, R41: a 4-byte read at each register's offset answers OKAY with that register and changes
nothing else, ID being 0x474D0001 in every state and CMD reading 0. R35, R39, R42, R43: the layouts of STATUS, CFG,
INST and IRQEN as read, the reserved bits zero (R44) and I_PAD as 00 pkcs7, 01 zero, 10 none (R55). -/
def Obligations.RegisterLayouts : Prop :=
  ∀ s : State,
    let st := readReg s .status
    let cf := readReg s .cfg
    let ins := readReg s .inst
    let ie := readReg s .irqen
    let answers := fun (off : BitVec 18) (w : Word) =>
      serveAccess s (.read off .b4) = { s with replies := s.replies ++ [{ resp := .okay, data := some w }] }
    (answers 0x00000 0x474D0001 ∧ answers 0x00004 0 ∧ answers 0x00008 st ∧ answers 0x0000C cf ∧
      answers 0x00010 s.len0 ∧ answers 0x00014 s.len1 ∧ answers 0x00018 s.outlen ∧ answers 0x0001C ins ∧
      answers 0x00020 ie) ∧
    (st.getLsbD 0 = s.status.busy ∧ st.getLsbD 1 = s.status.done ∧ st.getLsbD 2 = s.status.err ∧
      st.getLsbD 3 = s.status.werr ∧ st.getLsbD 4 = s.status.matched ∧ st.extractLsb' 5 3 = 0 ∧
      st.extractLsb' 8 4 = s.status.errCode ∧ st.extractLsb' 12 20 = 0) ∧
    (cf.getLsbD 0 = (s.cfg.mode == .cbc) ∧ cf.extractLsb' 1 2 = s.cfg.pad ∧ cf.getLsbD 3 = s.cfg.hmacEn ∧
      cf.extractLsb' 4 28 = 0) ∧
    (ins.getLsbD 0 = s.cipher.ready ∧ ins.getLsbD 1 = (s.cipher.mode == .cbc) ∧
      ins.extractLsb' 2 2 = (match s.cipher.pad with | .pkcs7 => 0b00 | .zero => 0b01 | .noPad => 0b10) ∧
      ins.getLsbD 4 = s.hash.hmac ∧
      ins.extractLsb' 5 27 = 0) ∧
    (ie.getLsbD 0 = s.doneIe ∧ ie.extractLsb' 1 31 = 0)

/-- R86: a legal write to IN0 or IN1 while idle changes the bytes it covers and nothing else (the reply is the bus's
answer), and a legal read of the same place and size then answers the written bytes. -/
def Obligations.BufferWriteReadsBack : Prop :=
  ∀ (s : State) (off : BitVec 18) (size : Size) (d : Word), s.status.busy = false →
    off.toNat % sizeBytes size = 0 → 0x10000 ≤ off.toNat → off.toNat < 0x30000 →
    (∀ a, Covered off size a → Mapped s.caps a) →
    let t := serveAccess s (.write off size d)
    t = { s with mem := t.mem, replies := s.replies ++ [{ resp := .okay, data := none }] } ∧
    (∀ a, ¬ Covered off size a → readByte t.mem a = readByte s.mem a) ∧
    (∀ k, k < sizeBytes size → readByte t.mem (off.toNat + k) = some (d.extractLsb' (8 * k) 8)) ∧
    (serveAccess t (.read off size)).replies =
      t.replies ++ [{ resp := .okay, data := some (d &&& BitVec.ofNat 32 (2 ^ (8 * sizeBytes size) - 1)) }]

/-- R90: a 4-byte host write of d to IN0 offset 0 gives the big-endian word that is the byte-reversal of d. -/
def Obligations.BusWordIsByteReversed : Prop :=
  ∀ (s : State) (d : Word), s.status.busy = false →
    ∃ bs, readBytes (serveAccess s (.write 0x10000 .b4 d)).mem in0Base 4 = some bs ∧
      (beWords bs).map BitVec.toNat =
        [(d.extractLsb' 0 8).toNat * 2 ^ 24 + (d.extractLsb' 8 8).toNat * 2 ^ 16 +
          (d.extractLsb' 16 8).toNat * 2 ^ 8 + (d.extractLsb' 24 8).toNat]

/-- R91: a read changes no state of the core (only the answers given and the model's draw counter), and two reads
with nothing between them answer the same unless they cover an OUT byte that is unspecified by R48. -/
def Obligations.ReadsHaveNoSideEffects : Prop :=
  ∀ (s : State) (off : BitVec 18) (size : Size),
    let t := serveAccess s (.read off size)
    t = { s with replies := t.replies, draws := t.draws } ∧
    ∃ r r', t.replies = s.replies ++ [r] ∧ (serveAccess t (.read off size)).replies = s.replies ++ [r, r'] ∧
      ((∀ a, Covered off size a → outBase ≤ a →
          s.status.busy = false ∧ a - outBase < s.outlen.toNat ∧ (readByte s.mem a).isSome = true) → r = r')

/-- R48, R88, R86: in every state a legal read of OUT, of any size, answers OKAY and changes nothing but the draw
counter; a byte below OUTLEN while idle travels in its lane as stored, and a byte at or beyond OUTLEN, or any byte
while busy, is a free value (Config.freeByte, the model's form of R48's unspecified value: log entry 6). R37: a
successful command leaves every OUT byte below OUTLEN stored, and after a failing one OUTLEN is 0, so every OUT byte
is free. -/
def Obligations.HostReadsTheResult : Prop :=
  (∀ (s : State) (off : BitVec 18) (size : Size), off.toNat % sizeBytes size = 0 → outBase ≤ off.toNat →
    off.toNat + sizeBytes size ≤ outBase + s.caps.out.val →
    ∃ x : Word, x.toNat < 2 ^ (8 * sizeBytes size) ∧
      serveAccess s (.read off size) =
        { s with
          replies := s.replies ++ [{ resp := .okay, data := some x }]
          draws := s.draws + sizeBytes size } ∧
      ∀ j, j < sizeBytes size →
        ((s.status.busy = true ∨ s.outlen.toNat ≤ off.toNat - outBase + j) →
          x.extractLsb' (8 * j) 8 = Config.freeByte (s.draws + j)) ∧
        (∀ b, s.status.busy = false → off.toNat - outBase + j < s.outlen.toNat →
          readByte s.mem (off.toNat + j) = some b → x.extractLsb' (8 * j) 8 = b)) ∧
  ∀ (i : Instr) (s t : State), exec i s = .next t →
    (t.status.err = false → ∀ k, k < t.outlen.toNat → ∃ b, readByte t.mem (outBase + k) = some b) ∧
    (t.status.err = true → t.outlen = 0)

/-! Reset and the interrupt (70_reset_and_hazards.md, 60_exceptions.md). -/

/-- R70, R453: the values the spec gives for reset, as the host reads them, the instances, the engine idle and
the interrupt output low; no buffer byte is written. -/
def Obligations.ResetValues : Prop :=
  readReg State.reset .id = 0x474D0001#32 ∧ readReg State.reset .status = 0 ∧ readReg State.reset .cfg = 0 ∧
  readReg State.reset .len0 = 0 ∧ readReg State.reset .len1 = 0 ∧ readReg State.reset .outlen = 0 ∧
  readReg State.reset .inst = 0 ∧ readReg State.reset .irqen = 0 ∧
  State.reset.status.busy = false ∧ State.reset.cipher.ready = false ∧ State.reset.cipher.mode = .ecb ∧
  State.reset.cipher.pad = .pkcs7 ∧ State.reset.hash.hmac = false ∧ irq State.reset = false ∧
  ∀ a, readByte State.reset.mem a = none

/-- R450 to R452: asserting `rst` in any state, with or without a command in flight, leaves the engine idle with
the reset values of R70 and every buffer byte as it was (R451; of OUT no read shows it). Releasing it changes
nothing else. While it is held a bus
access has no step: the model refuses it by name (the model's own form of 93_implementation_defined.md U12, log
entry 11). -/
def Obligations.ResetInput : Prop :=
  ∀ (s : State) (rest : List HostEvent),
    (s.host = .rst true :: rest → ∃ t, step s = .next t ∧
      t.host = rest ∧ t.inReset = true ∧ (∀ a, readByte t.mem a = readByte s.mem a) ∧
      readReg t .status = 0 ∧ readReg t .cfg = 0 ∧ readReg t .len0 = 0 ∧ readReg t .len1 = 0 ∧
      readReg t .outlen = 0 ∧ readReg t .inst = 0 ∧ readReg t .irqen = 0 ∧ t.cipher.ready = false ∧
      t.hash.hmac = false ∧ irq t = false) ∧
    (s.host = .rst false :: rest → step s = .next { s with host := rest, inReset := false }) ∧
    (∀ a, s.inReset = true → s.host = .access a :: rest → step s = .refused .busAccessInReset)

/-- R420, R421: the interrupt output is DONE and DONE_IE as the host reads them; every completion leaves it equal
to DONE_IE, and an acceptance leaves it low. -/
def Obligations.InterruptFollowsDone : Prop :=
  ∀ s : State,
    (irq s = ((readReg s .status).getLsbD 1 && (readReg s .irqen).getLsbD 0)) ∧
    (∀ i t, exec i s = .next t → irq t = s.doneIe) ∧
    (∀ w, s.status.busy = false → irq (serveAccess s (.write 0x00004 .b4 w)) = false)

/-! Whole-machine rules. -/

/-- The invariant of a run holds right after reset. -/
def Obligations.InvariantAtReset : Prop := Inv State.reset

/-- Every step keeps the invariant: canonical memory, only existing bytes stored, every OUT byte below OUTLEN
stored while idle, result flags clear while busy, ERRCODE in range and in step with ERR, the engine idle while
`rst` is held; and no step changes the buffer capacities, whatever values R9 allows they have. -/
def Obligations.InvariantKeptByEveryStep : Prop :=
  ∀ s t : State, Inv s → step s = .next t → Inv t ∧ t.caps = s.caps

/-- R56, R59, R70, R37: a step changes the cipher instance only as the successful completion of CFG.CIPHER (or a
reset), and the hash instance only as the successful completion of CFG.HASH (or a reset): the command was in flight
and the step ends it, with BUSY = 0, DONE = 1 and ERR = 0. So no failed command, no other command and no host access
does, an access while that command is in flight included. -/
def Obligations.InstancesWrittenOnlyByConstruction : Prop :=
  ∀ s t : State, step s = .next t → (∀ rest, s.host ≠ .rst true :: rest) →
    (t.cipher ≠ s.cipher →
      s.status.busy = true ∧ decode s.cmdl = .ok .cfgCipher ∧ t.status.busy = false ∧ t.status.done = true ∧
        t.status.err = false ∧ t.cipher.ready = true) ∧
    (t.hash ≠ s.hash →
      s.status.busy = true ∧ decode s.cmdl = .ok .cfgHash ∧ t.status.busy = false ∧ t.status.done = true ∧
        t.status.err = false)

/-- R47: a step changes a byte of IN0 or IN1 only as a host write, served while idle, that covers it. -/
def Obligations.InputBuffersWrittenOnlyByTheHost : Prop :=
  ∀ (s t : State) (a : Nat), step s = .next t → a < outBase → readByte t.mem a ≠ readByte s.mem a →
    ∃ off size d rest, s.host = .access (.write off size d) :: rest ∧ s.status.busy = false ∧ Covered off size a

/-- R57, R64: no host access tells apart two states that differ in CMDL, RK, I_IV, HK0 and the datapath alone: the
answers are equal and the states stay equal in all else, through any list of accesses. -/
def Obligations.HiddenStateIsUnreadable : Prop :=
  ∀ (as : List Access) (s t : State), SameVisible s t →
    SameVisible (as.foldl serveAccess s) (as.foldl serveAccess t) ∧
    (as.foldl serveAccess t).replies = (as.foldl serveAccess s).replies

/-- R471, R87: whatever accesses are still to arrive, the command in flight completes once they are served, with
the latch and every operand as they were: the completion is that of the accepted word, and it leaves the engine
idle with DONE set (or it is the model's fault for an operand byte nothing has written). That the engine's turn comes
once no access is left is the model's choice, the weak fairness of 93_implementation_defined.md U7 (log entry 3). -/
def Obligations.AcceptedCommandCompletes : Prop :=
  ∀ s : State, s.status.busy = true → s.inReset = false → (∀ e ∈ s.host, ∃ a, e = .access a) →
    ∃ u : State, Sys2Proof.core.run s.host.length s = .next u ∧ u.cmdl = s.cmdl ∧ SameOperands s u ∧
      Sys2Proof.core.run (s.host.length + 1) s = completeLatched u ∧
      ((∃ v, completeLatched u = .next v ∧ v.status.busy = false ∧ v.status.done = true) ∨
        completeLatched u = .fault .uninitializedOperand)

/-- What a completed command leaves unchanged, for all nineteen: every control register the host writes, the
latch, WERR, the reset level, the capacities, the answers given and the events to come; the cipher instance but for
CFG.CIPHER, the hash instance but for CFG.HASH; every buffer byte outside OUT[0..OUTLEN), where the result is stored.
R47 gives this of IN0 and IN1; that the stored OUT bytes at or beyond OUTLEN stay, all of them after a failure, is the
model's choice (log entry 14), since R48 and R412 leave them unspecified and a read of them is free. -/
def Obligations.CompletionFrame : Prop :=
  ∀ (i : Instr) (s t : State), exec i s = .next t →
    t.cmdl = s.cmdl ∧ t.cfg = s.cfg ∧ t.len0 = s.len0 ∧ t.len1 = s.len1 ∧ t.doneIe = s.doneIe ∧
    t.status.werr = s.status.werr ∧ t.inReset = s.inReset ∧ t.caps = s.caps ∧ t.host = s.host ∧ t.replies = s.replies ∧
    (i ≠ .cfgCipher → t.cipher = s.cipher) ∧ (i ≠ .cfgHash → t.hash = s.hash) ∧
    (∀ a, ¬ (outBase ≤ a ∧ a < outBase + t.outlen.toNat) → readByte t.mem a = readByte s.mem a)

/-- R120: a command's result is a function of its operands alone: two states that agree on LEN0, LEN1, CFG, the
instances and the contents of IN0 and IN1 complete with the same error or the same output, flag and instances. -/
def Obligations.ResultDependsOnOperandsAlone : Prop :=
  ∀ (i : Instr) (s t : State), SameOperands s t →
    (∀ s', exec i s = .next s' → ∃ t', exec i t = .next t' ∧
      t'.outlen = s'.outlen ∧ t'.status.err = s'.status.err ∧ t'.status.errCode = s'.status.errCode ∧
      t'.status.matched = s'.status.matched ∧ t'.cipher = s'.cipher ∧ t'.hash = s'.hash ∧
      ∀ k, k < s'.outlen.toNat → readByte t'.mem (outBase + k) = readByte s'.mem (outBase + k)) ∧
    (∀ f, exec i s = .fault f → exec i t = .fault f)

/-! Operands and errors (30_encoding.md R121, 60_exceptions.md). -/

/-- R411, R415: LEN0 above CAP_IN0 fails every command that reads m0 with CapacityExceeded (code 9), whatever else
is wrong (CFG.HASH only when HMAC_EN = 1); with m0 readable, LEN1 above CAP_IN1 does the same for the commands that
read m1 (CFG.CIPHER only when MODE = CBC). -/
def Obligations.OperandCapacityErrors : Prop :=
  ∀ s : State,
    (s.caps.in0.val < s.len0.toNat →
      (∀ i, i ≠ .cfgHash → FailsWith i s 9) ∧ (s.cfg.hmacEn = true → FailsWith .cfgHash s 9)) ∧
    (∀ m, OperandIs0 s m → s.caps.in1.val < s.len1.toNat →
      FailsWith .hmacRaw s 9 ∧ FailsWith .hmacHex s 9 ∧ FailsWith .verify s 9 ∧
      (s.cfg.mode = .cbc → FailsWith .cfgCipher s 9))

/-- R46, R418: a command whose operand range includes an unwritten byte is the model's fault. -/
def Obligations.UnwrittenOperandFaults : Prop :=
  ∀ s : State,
    (s.len0.toNat ≤ s.caps.in0.val → (∃ k, k < s.len0.toNat ∧ readByte s.mem (in0Base + k) = none) →
      (∀ i, i ≠ .cfgHash → exec i s = .fault .uninitializedOperand) ∧
      (s.cfg.hmacEn = true → exec .cfgHash s = .fault .uninitializedOperand)) ∧
    (∀ m, OperandIs0 s m → s.len1.toNat ≤ s.caps.in1.val →
      (∃ k, k < s.len1.toNat ∧ readByte s.mem (in1Base + k) = none) →
      exec .hmacRaw s = .fault .uninitializedOperand ∧ exec .hmacHex s = .fault .uninitializedOperand ∧
      exec .verify s = .fault .uninitializedOperand ∧
      (s.cfg.mode = .cbc → exec .cfgCipher s = .fault .uninitializedOperand))

/-- R414, R415: with no cipher instance every ENC and DEC command whose operand is readable fails with
NotConfigured (code 7), before the text is decoded or the length looked at; no other command ever reports it. -/
def Obligations.NotConfiguredErrors : Prop :=
  ∀ (s : State) (i : Instr),
    (∀ t, OperandIs0 s t → s.cipher.ready = false →
      i ∈ ([.encRaw, .encHex, .encB64, .decRaw, .decHex, .decB64] : List Instr) → FailsWith i s 7) ∧
    (∀ s', i ∉ ([.encRaw, .encHex, .encB64, .decRaw, .decHex, .decB64] : List Instr) →
      exec i s = .next s' → s'.status.errCode ≠ 7)

/-- R293, R303, R415: with an instance, encrypting a length that is no multiple of 16 under no padding, and
decrypting such a ciphertext under every padding, fails with InvalidBlockAlignment (code 3). -/
def Obligations.BlockAlignmentErrors : Prop :=
  ∀ (s : State) (t : Bytes), OperandIs0 s t → s.cipher.ready = true →
    (s.cipher.pad = .noPad → t.length % 16 ≠ 0 →
      FailsWith .encRaw s 3 ∧ FailsWith .encHex s 3 ∧ FailsWith .encB64 s 3) ∧
    (t.length % 16 ≠ 0 → FailsWith .decRaw s 3) ∧
    (∀ c, unhex t = some c → c.length % 16 ≠ 0 → FailsWith .decHex s 3) ∧
    (∀ c, unb64 t = some c → c.length % 16 ≠ 0 → FailsWith .decB64 s 3)

/-- R294, R313 to R315: under pkcs7 the decrypted string q of a DEC command's ciphertext (the operand of DEC.RAW, the
bytes the operand's text decodes to for DEC.HEX and DEC.B64) is accepted exactly when it is p followed by n bytes of
value n for some n from 1 to 16, and then the result is p, which fails with CapacityExceeded (code 9) only if it is
longer than CAP_OUT (R9, R122); any other q (the empty one too) fails with InvalidPaddingBytes (code 4). -/
def Obligations.Pkcs7RemovalRule : Prop :=
  ∀ (s : State) (i : Instr) (t c : Bytes), OperandIs0 s t → s.cipher.ready = true → s.cipher.pad = .pkcs7 →
    CiphertextIs i t c → c.length % 16 = 0 →
    let q := (decBlocks s.cipher (cipherBlocks c)).flatten
    (∀ p n, 1 ≤ n → n ≤ 16 → q = p ++ List.replicate n (BitVec.ofNat 8 n) → Emits i s p false) ∧
    ((∀ p n, 1 ≤ n → n ≤ 16 → q ≠ p ++ List.replicate n (BitVec.ofNat 8 n)) → FailsWith i s 4)

/-- R340, R351, R353, R415: a malformed text fails HEX.DEC and B64.DEC with InvalidEncoding (code 5), and with an
instance DEC.HEX and DEC.B64 too. -/
def Obligations.EncodingErrors : Prop :=
  ∀ (s : State) (t : Bytes), OperandIs0 s t →
    (unhex t = none → FailsWith .hexDec s 5 ∧ (s.cipher.ready = true → FailsWith .decHex s 5)) ∧
    (unb64 t = none → FailsWith .b64Dec s 5 ∧ (s.cipher.ready = true → FailsWith .decB64 s 5))

/-! SM3 (41_sm3.md). -/

/-- R160, R161: SM3.RAW completes with the 32-byte digest of m0 and SM3.HEX with its 64 hex characters, for every
readable m0, whatever the hash instance is; with LEN0 above CAP_IN0 both fail with CapacityExceeded (code 9), and
they report no other error. -/
def Obligations.Sm3CommandsComplete : Prop :=
  ∀ s : State,
    (∀ m, OperandIs0 s m →
      Succeeds .sm3Raw s (sm3 m) false ∧ Succeeds .sm3Hex s (hex (sm3 m)) false ∧
      (sm3 m).length = 32 ∧ (hex (sm3 m)).length = 64) ∧
    (s.caps.in0.val < s.len0.toNat → FailsWith .sm3Raw s 9 ∧ FailsWith .sm3Hex s 9) ∧
    (∀ i ∈ ([.sm3Raw, .sm3Hex] : List Instr), ∀ t, exec i s = .next t →
      t.status.errCode = 0 ∨ (t.status.errCode = 9 ∧ s.caps.in0.val < s.len0.toNat))

/-- R146: the padding is 0x80, then z zero bytes with z = (55 − n) mod 64, then the bit length 8n as 64 bits
big-endian; the result is floor((n + 8) / 64) + 1 whole blocks. -/
def Obligations.Sm3PaddingShape : Prop :=
  ∀ m : Bytes, ∃ (z : Nat) (l : Bytes),
    z < 64 ∧ (z + m.length) % 64 = 55 ∧ pad3 m = m ++ [0x80#8] ++ List.replicate z 0x00#8 ++ l ∧
    l.length = 8 ∧ l.foldl (fun x b => x * 256 + b.toNat) 0 = 8 * m.length % 2 ^ 64 ∧
    (pad3 m).length = 64 * ((m.length + 8) / 64 + 1)

/-- R147: W[0..15] are the block's big-endian words, W[16..67] follow the recurrence, W'[j] = W[j] ⊕ W[j+4]. -/
def Obligations.Sm3ExpansionRecurrence : Prop :=
  ∀ b : Bytes, b.length = 64 →
    let w := sm3W b
    let w' := sm3W' w
    w.length = 68 ∧ w'.length = 64 ∧
    (∀ j, j < 16 → w.getD j 0 = be32 (b.getD (4 * j) 0) (b.getD (4 * j + 1) 0) (b.getD (4 * j + 2) 0) (b.getD (4 * j + 3) 0)) ∧
    (∀ j, 16 ≤ j → j < 68 →
      w.getD j 0 = sm3P1 (w.getD (j - 16) 0 ^^^ w.getD (j - 9) 0 ^^^ rotl (w.getD (j - 3) 0) 15)
        ^^^ rotl (w.getD (j - 13) 0) 7 ^^^ w.getD (j - 6) 0) ∧
    (∀ j, j < 64 → w'.getD j 0 = w.getD j 0 ^^^ w.getD (j + 4) 0)

/-- R155: the compression function is the 64 rounds j = 0..63 in order, each by the update of R152 with W[j] and
W'[j], from V, and the exclusive or with V. -/
def Obligations.Sm3CompressionRounds : Prop :=
  ∀ (v : Sm3Regs) (b : Bytes), b.length = 64 →
    let w := sm3W b
    let w' := sm3W' w
    let step1 := fun (r : Sm3Regs) (j : Nat) =>
      let ss1 := rotl (rotl r.a 12 + r.e + rotl (sm3T j) (j % 32)) 7
      let ss2 := ss1 ^^^ rotl r.a 12
      let tt1 := sm3FF j r.a r.b r.c + r.d + ss2 + w'.getD j 0
      let tt2 := sm3GG j r.e r.f r.g + r.h + ss1 + w.getD j 0
      ({ a := tt1, b := r.a, c := rotl r.b 9, d := r.c, e := sm3P0 tt2, f := r.e, g := rotl r.f 19, h := r.g } : Sm3Regs)
    let r := (List.range 64).foldl step1 v
    sm3CF v b = ({ a := r.a ^^^ v.a, b := r.b ^^^ v.b, c := r.c ^^^ v.c, d := r.d ^^^ v.d,
                   e := r.e ^^^ v.e, f := r.f ^^^ v.f, g := r.g ^^^ v.g, h := r.h ^^^ v.h } : Sm3Regs)

/-- R156, R158, R141: the chaining value of whole blocks starts at IV and takes the blocks in order, the last one
last. R156, R157: the digest of m is the chaining value of the padded m, its eight words in order, each most
significant byte first. -/
def Obligations.Sm3BlocksInOrder : Prop :=
  sm3Iterate [] = ({ a := 0x7380166F, b := 0x4914B2B9, c := 0x172442D7, d := 0xDA8A0600,
                     e := 0xA96F30BC, f := 0x163138AA, g := 0xE38DEE4D, h := 0xB0FB0E4E } : Sm3Regs) ∧
  (∀ p b : Bytes, p.length % 64 = 0 → b.length = 64 → sm3Iterate (p ++ b) = sm3CF (sm3Iterate p) b) ∧
  ∀ m : Bytes,
    let v := sm3Iterate (pad3 m)
    sm3 m = [v.a, v.b, v.c, v.d, v.e, v.f, v.g, v.h].flatMap (fun x =>
      [x.extractLsb' 24 8, x.extractLsb' 16 8, x.extractLsb' 8 8, x.extractLsb' 0 8])

/-! HMAC, hash entry point, verify (42_hmac.md). -/

/-- R210, R211: HMAC.RAW and HMAC.HEX complete for every readable message and key, whatever the hash instance. -/
def Obligations.HmacCommandsComplete : Prop :=
  ∀ (s : State) (m k : Bytes), OperandIs0 s m → OperandIs1 s k →
    Succeeds .hmacRaw s (hmac m k) false ∧ Succeeds .hmacHex s (hex (hmac m k)) false ∧
    (hmac m k).length = 32

/-- R212, R213, R204: HASH.RAW and HASH.HEX complete for every readable message with the plain digest when
I_HMAC = 0 and the HMAC under HK0 when I_HMAC = 1; CFG.HMAC_EN is not read. -/
def Obligations.HashCommandsComplete : Prop :=
  ∀ (s : State) (m : Bytes), OperandIs0 s m →
    (s.hash.hmac = false → Succeeds .hashRaw s (sm3 m) false ∧ Succeeds .hashHex s (hex (sm3 m)) false) ∧
    (s.hash.hmac = true →
      Succeeds .hashRaw s (hmac0 m s.hash.hk0.toList) false ∧
      Succeeds .hashHex s (hex (hmac0 m s.hash.hk0.toList)) false)

/-- R214, R206: VERIFY completes for every readable message and candidate, without an error, with MATCH and the
byte 0x01 when the lower-cased candidate is the hash entry point's lower-cased hex digest, and MATCH = 0 and the
byte 0x00 when it is not. -/
def Obligations.VerifyCompletes : Prop :=
  ∀ (s : State) (m cand : Bytes), OperandIs0 s m → OperandIs1 s cand →
    (lower cand = lower (hex (hashSurface s.hash m)) → Succeeds .verify s [0x01] true) ∧
    (lower cand ≠ lower (hex (hashSurface s.hash m)) → Succeeds .verify s [0x00] false)

/-- R206: verification sees a candidate through its lower-case form alone, accepts the digest's own hex, and
accepts exactly the candidates whose lower-case form is that hex; one of another length than 64 never matches. -/
def Obligations.VerifyIsCaseInsensitive : Prop :=
  ∀ (h : HashInst) (m cand : Bytes),
    verifyDigest h m (hex (hashSurface h m)) = true ∧
    (verifyDigest h m cand = true ↔ lower cand = hex (hashSurface h m)) ∧
    (cand.length ≠ 64 → verifyDigest h m cand = false)

/-- R201: K0 is the key with zero bytes up to 64, or for a longer key its digest and 32 zero bytes. R202, R203: HMAC
under a 64-byte key K is the digest of K XOR 64 bytes 0x5C followed by the digest of K XOR 64 bytes 0x36 followed by
the message, and HMAC under any key is that under its K0. R205:
HMAC depends on the key through K0 alone, a key shorter than 64 bytes may gain a zero byte, and a key longer than 64
bytes may be replaced by its digest. -/
def Obligations.HmacKeyEquivalence : Prop :=
  ∀ m k : Bytes,
    (k.length ≤ 64 → hmacK0 k = k ++ List.replicate (64 - k.length) 0x00) ∧
    (64 < k.length → hmacK0 k = sm3 k ++ List.replicate 32 0x00) ∧
    (hmacK0 k).length = 64 ∧
    (∀ key : Bytes, key.length = 64 →
      let pad := fun (v : Byte) => List.zipWith (fun x y => x ^^^ y) key (List.replicate 64 v)
      hmac0 m key = sm3 (pad 0x5C ++ sm3 (pad 0x36 ++ m))) ∧
    hmac m k = hmac0 m (hmacK0 k) ∧
    (∀ k', hmacK0 k' = hmacK0 k → hmac m k' = hmac m k) ∧
    (k.length < 64 → hmac m (k ++ [0x00]) = hmac m k) ∧
    (64 < k.length → hmac m (sm3 k) = hmac m k)

/-! SM4 (43_sm4.md). -/

/-- R255: for any round keys, decryption inverts encryption on 16-byte blocks and encryption inverts decryption; so
encryption takes blocks to blocks one to one and onto. -/
def Obligations.Sm4BlockInverse : Prop :=
  ∀ (rk : List Word) (b : Bytes), b.length = 16 →
    sm4Dec rk (sm4Enc rk b) = b ∧ sm4Enc rk (sm4Dec rk b) = b ∧
    (sm4Enc rk b).length = 16 ∧ (sm4Dec rk b).length = 16

/-- R248 to R250: the words K[0..35] are the key's big-endian words XOR FK, then the recurrence with CK (R247),
and the round keys are K[4..35]. -/
def Obligations.Sm4ScheduleRecurrence : Prop :=
  ∀ key : Bytes, key.length = 16 → ∃ k : List Word, k.length = 36 ∧ sm4Schedule key = k.drop 4 ∧
    (∀ i, i < 4 → k.getD i 0 =
      be32 (key.getD (4 * i) 0) (key.getD (4 * i + 1) 0) (key.getD (4 * i + 2) 0) (key.getD (4 * i + 3) 0)
        ^^^ ([0xA3B1BAC6, 0x56AA3350, 0x677D9197, 0xB27022DC] : List Word).getD i 0) ∧
    (∀ i, i < 32 → k.getD (i + 4) 0 =
      k.getD i 0 ^^^ sm4T' (k.getD (i + 1) 0 ^^^ k.getD (i + 2) 0 ^^^ k.getD (i + 3) 0 ^^^
        be32 (BitVec.ofNat 8 (4 * i * 7)) (BitVec.ofNat 8 ((4 * i + 1) * 7)) (BitVec.ofNat 8 ((4 * i + 2) * 7))
          (BitVec.ofNat 8 ((4 * i + 3) * 7))))

/-- R251, R252: the words X[0..35] of a block transform under round keys r[0..31], and the output X[35], X[34],
X[33], X[32]. R253: block encryption is that transform with RK[0] to RK[31] in order. R254: block decryption is it with
RK[31] to RK[0]. -/
def Obligations.Sm4RoundRecurrence : Prop :=
  ∀ (b : Bytes) (rk : List Word), b.length = 16 → rk.length = 32 →
    let transforms := fun (r : Nat → Word) (out : Bytes) => ∃ x : List Word, x.length = 36 ∧
      (∀ i, i < 4 → x.getD i 0 =
        be32 (b.getD (4 * i) 0) (b.getD (4 * i + 1) 0) (b.getD (4 * i + 2) 0) (b.getD (4 * i + 3) 0)) ∧
      (∀ i, i < 32 → x.getD (i + 4) 0 =
        x.getD i 0 ^^^ sm4T (x.getD (i + 1) 0 ^^^ x.getD (i + 2) 0 ^^^ x.getD (i + 3) 0 ^^^ r i)) ∧
      out =
        be32bytes (x.getD 35 0) ++ be32bytes (x.getD 34 0) ++ be32bytes (x.getD 33 0) ++ be32bytes (x.getD 32 0)
    transforms (fun i => rk.getD i 0) (sm4Crypt b rk) ∧
    transforms (fun i => rk.getD i 0) (sm4Enc rk b) ∧
    transforms (fun i => rk.getD (31 - i) 0) (sm4Dec rk b)

/-! Block modes (44_blockmode.md). -/

/-- What each padding adds and what its removal takes away. R291: pkcs7 adds n = 16 - (len mod 16) bytes of value n.
R292: zero padding adds 0x00 bytes up to the next block boundary. R293: no padding adds nothing to whole blocks and
fails on any other length. R294: pkcs7 removal of a string gives r exactly when the string is r followed by n bytes of
value n for some n from 1 to 16, and fails with InvalidPaddingBytes on every other string. R295: zero removal never
fails and strips every trailing 0x00, across block boundaries, so a string of zeros becomes empty. R296: removal of no
padding gives the string itself. So removal undoes padding, for zero padding up to the plaintext's own trailing
zeros. -/
def Obligations.PaddingRules : Prop :=
  ∀ p : Bytes,
    (∃ q, padBytes .pkcs7 p = .ok q ∧ unpadBytes .pkcs7 q = .ok p ∧ q.length = 16 * (p.length / 16 + 1) ∧
      q = p ++ List.replicate (16 - p.length % 16) (BitVec.ofNat 8 (16 - p.length % 16))) ∧
    (∃ q, padBytes .zero p = .ok q ∧ unpadBytes .zero q = unpadBytes .zero p ∧
      q.length = 16 * ((p.length + 15) / 16) ∧ q = p ++ List.replicate ((16 - p.length % 16) % 16) 0x00) ∧
    (p.length % 16 = 0 → padBytes .noPad p = .ok p) ∧
    (p.length % 16 ≠ 0 → padBytes .noPad p = .error .invalidBlockAlignment) ∧
    (∀ r, unpadBytes .pkcs7 p = .ok r ↔
      ∃ n, 1 ≤ n ∧ n ≤ 16 ∧ p = r ++ List.replicate n (BitVec.ofNat 8 n)) ∧
    ((∀ r, unpadBytes .pkcs7 p ≠ .ok r) → unpadBytes .pkcs7 p = .error .invalidPaddingBytes) ∧
    (∃ r z, unpadBytes .zero p = .ok r ∧ p = r ++ List.replicate z 0x00 ∧ r.getLast? ≠ some 0x00) ∧
    (∀ z, unpadBytes .zero (List.replicate z 0x00) = .ok []) ∧
    unpadBytes .noPad p = .ok p

/-- R304(a), 90_conflicts.md C4: decryption inverts encryption under every mode and padding, for zero padding
exactly when the plaintext does not end in 0x00. -/
def Obligations.DecryptInvertsEncrypt : Prop :=
  ∀ (c : CipherInst) (p q : Bytes), encrypt c p = .ok q →
    ((c.pad = .zero → p.getLast? ≠ some 0x00) → decrypt c q = .ok p) ∧
    (c.pad = .zero → p.getLast? = some 0x00 → decrypt c q ≠ .ok p)

/-- R298: under ECB ciphertext block i is the block encryption of block i of the padded plaintext. R304(b): so equal
plaintext blocks give equal ciphertext blocks. -/
def Obligations.EcbEqualBlocks : Prop :=
  ∀ (c : CipherInst) (p r q : Bytes), c.mode = .ecb → padBytes c.pad p = .ok r → encrypt c p = .ok q →
    q.length = r.length ∧
    (∀ i, i < r.length / 16 →
      (q.drop (16 * i)).take 16 = sm4Enc c.rk.toList ((r.drop (16 * i)).take 16)) ∧
    ∀ i j, i < r.length / 16 → j < r.length / 16 →
      (r.drop (16 * i)).take 16 = (r.drop (16 * j)).take 16 →
      (q.drop (16 * i)).take 16 = (q.drop (16 * j)).take 16

/-- R304(c), 90_conflicts.md C11: under CBC two instances that differ in the IV alone give different ciphertext
blocks at every index of a padded plaintext. -/
def Obligations.CbcDistinctIvs : Prop :=
  ∀ (c : CipherInst) (iv : Vector Byte 16) (p r q q' : Bytes), c.mode = .cbc → iv ≠ c.iv →
    padBytes c.pad p = .ok r → encrypt c p = .ok q → encrypt { c with iv := iv } p = .ok q' →
    ∀ i, i < r.length / 16 → (q.drop (16 * i)).take 16 ≠ (q'.drop (16 * i)).take 16

/-- R300, R302: under CBC ciphertext block i is the encryption of plaintext block i XOR ciphertext block i−1, or
I_IV for block 0. -/
def Obligations.CbcChaining : Prop :=
  ∀ (c : CipherInst) (p r q : Bytes), c.mode = .cbc → padBytes c.pad p = .ok r → encrypt c p = .ok q →
    ∀ i, i < r.length / 16 →
      (q.drop (16 * i)).take 16 =
        sm4Enc c.rk.toList (xorBytes ((r.drop (16 * i)).take 16)
          (if i = 0 then c.iv.toList else (q.drop (16 * (i - 1))).take 16))

/-- R310 to R312, R122: with an instance and a readable plaintext (a multiple of 16 long under no padding) ENC.RAW,
ENC.HEX and ENC.B64 complete with the ciphertext c, its hex text of 2·len(c) and its base64 text of 4·ceil(len(c)/3)
bytes, where that fits CAP_OUT, and fail with CapacityExceeded (code 9) where it does not. R9: every such result fits
when CAP_OUT is at least 2·(CAP_IN0 + 16), as at the default sizes. -/
def Obligations.EncCommandsComplete : Prop :=
  ∀ (s : State) (p : Bytes), s.cipher.ready = true → OperandIs0 s p →
    (s.cipher.pad = .noPad → p.length % 16 = 0) →
    ∃ c, encrypt s.cipher p = .ok c ∧ (hex c).length = 2 * c.length ∧ (b64 c).length = 4 * ((c.length + 2) / 3) ∧
      Emits .encRaw s c false ∧ Emits .encHex s (hex c) false ∧ Emits .encB64 s (b64 c) false ∧
      (2 * (s.caps.in0.val + 16) ≤ s.caps.out.val →
        Succeeds .encRaw s c false ∧ Succeeds .encHex s (hex c) false ∧ Succeeds .encB64 s (b64 c) false)

/-- R313 to R315, R122: with an instance and a readable operand, DEC.RAW completes with the plaintext of the operand,
DEC.HEX and DEC.B64 with the plaintext of the bytes the operand's text decodes to, where it fits CAP_OUT, and with
CapacityExceeded (code 9) where it does not. R313: every plaintext fits when CAP_OUT is at least CAP_IN0. -/
def Obligations.DecCommandsComplete : Prop :=
  ∀ (s : State) (i : Instr) (t c p : Bytes), s.cipher.ready = true → OperandIs0 s t → CiphertextIs i t c →
    decrypt s.cipher c = .ok p →
    Emits i s p false ∧ (s.caps.in0.val ≤ s.caps.out.val → Succeeds i s p false)

/-! Encoder (45_encoder.md). -/

/-- R341: hex writes two characters per byte, the high nibble's digit first, from 0123456789abcdef. R342: a text
decodes exactly when its length is even and every byte is a hex digit of either case, and it decodes to b exactly when
its lower-case form is the hex of b. R345, R346: both encoders lose nothing, and a base64 text decodes to b exactly
when it is the encoding of b, so every other text is malformed. -/
def Obligations.EncodersAreLossless : Prop :=
  ∀ b t : Bytes,
    (let digits : Bytes := [0x30, 0x31, 0x32, 0x33, 0x34, 0x35, 0x36, 0x37, 0x38, 0x39, 0x61, 0x62, 0x63, 0x64, 0x65, 0x66]
     hex b = b.flatMap (fun x => [digits.getD (x.toNat / 16) 0, digits.getD (x.toNat % 16) 0])) ∧
    ((∃ c, unhex t = some c) ↔ t.length % 2 = 0 ∧ ∀ x ∈ t, (0x30 ≤ x.toNat ∧ x.toNat ≤ 0x39) ∨
      (0x61 ≤ x.toNat ∧ x.toNat ≤ 0x66) ∨ (0x41 ≤ x.toNat ∧ x.toNat ≤ 0x46)) ∧
    (unhex t = some b ↔ hex b = lower t) ∧ unhex (hex b) = some b ∧
    (unb64 t = some b ↔ b64 b = t) ∧ unb64 (b64 b) = some b

/-- R350 to R353, R122: HEX.ENC and B64.ENC complete for every readable operand with its text, of 2·LEN0 and
4·ceil(LEN0/3) bytes, and HEX.DEC and B64.DEC for every readable well-formed text with its bytes, where the result fits
CAP_OUT, and fail with CapacityExceeded (code 9) where it does not; a decoded text always fits when CAP_OUT is at least
CAP_IN0. -/
def Obligations.EncoderCommandsComplete : Prop :=
  ∀ (s : State) (t : Bytes), OperandIs0 s t →
    Emits .hexEnc s (hex t) false ∧ (hex t).length = 2 * s.len0.toNat ∧
    Emits .b64Enc s (b64 t) false ∧ (b64 t).length = 4 * ((s.len0.toNat + 2) / 3) ∧
    (∀ b, unhex t = some b →
      Emits .hexDec s b false ∧ (s.caps.in0.val ≤ s.caps.out.val → Succeeds .hexDec s b false)) ∧
    (∀ b, unb64 t = some b →
      Emits .b64Dec s b false ∧ (s.caps.in0.val ≤ s.caps.out.val → Succeeds .b64Dec s b false))

/-! Construction (46_configure.md). -/

/-- R384, R385: CFG.CIPHER completes and builds the instance: in ECB with a zero IV and no IV text read (LEN1 is
free), in CBC with the IV of m1; the padding is the one CFG.PAD names (00 pkcs7, 01 zero, 10 none: R39, R55); the round keys
are the schedule of the key; the hash instance stands. -/
def Obligations.CfgCipherCompletes : Prop :=
  ∀ (s : State) (kt key : Bytes) (pad : Padding), OperandIs0 s kt → unhex kt = some key → key.length = 16 →
    ((s.cfg.pad = 0b00 ∧ pad = .pkcs7) ∨ (s.cfg.pad = 0b01 ∧ pad = .zero) ∨ (s.cfg.pad = 0b10 ∧ pad = .noPad)) →
    (s.cfg.mode = .ecb → ∃ c : CipherInst, c.ready = true ∧ c.mode = .ecb ∧ c.pad = pad ∧
      c.iv.toList = List.replicate 16 0x00 ∧ c.rk.toList = sm4Schedule key ∧
      SucceedsWith .cfgCipher s [] false c s.hash) ∧
    (∀ it iv, s.cfg.mode = .cbc → OperandIs1 s it → unhex it = some iv → iv.length = 16 →
      ∃ c : CipherInst, c.ready = true ∧ c.mode = .cbc ∧ c.pad = pad ∧ c.iv.toList = iv ∧
        c.rk.toList = sm4Schedule key ∧ SucceedsWith .cfgCipher s [] false c s.hash)

/-- R384, R381 to R383, R415: with the operands readable (m1 in CBC only), PAD = 11 fails with InvalidConfig
(code 8) first; then a key text that does not decode to 16 bytes fails with InvalidKeyLength (1); then in CBC an IV
text that does not fails with InvalidIVLength (2). The instance stands each time. -/
def Obligations.CfgCipherErrors : Prop :=
  ∀ (s : State) (kt : Bytes), OperandIs0 s kt → (s.cfg.mode = .cbc → ∃ it, OperandIs1 s it) →
    (s.cfg.pad = 0b11 → FailsWith .cfgCipher s 8) ∧
    (s.cfg.pad ≠ 0b11 → (∀ b, unhex kt = some b → b.length ≠ 16) → FailsWith .cfgCipher s 1) ∧
    (∀ key it, s.cfg.pad ≠ 0b11 → unhex kt = some key → key.length = 16 → s.cfg.mode = .cbc → OperandIs1 s it →
      (∀ b, unhex it = some b → b.length ≠ 16) → FailsWith .cfgCipher s 2)

/-- R390, R204: CFG.HASH completes. With HMAC_EN = 1 it takes the key from m0 and the hash entry point is then
HMAC under that key; with HMAC_EN = 0 no operand is read and the entry point is the plain digest. The cipher
instance stands. -/
def Obligations.CfgHashCompletes : Prop :=
  ∀ s : State,
    (∀ k, s.cfg.hmacEn = true → OperandIs0 s k → ∃ h : HashInst, h.hmac = true ∧ h.hk0.toList = hmacK0 k ∧
      (∀ m, hashSurface h m = hmac m k) ∧ SucceedsWith .cfgHash s [] false s.cipher h) ∧
    (s.cfg.hmacEn = false → ∃ h : HashInst, h.hmac = false ∧ h.hk0.toList = List.replicate 64 0x00 ∧
      (∀ m, hashSurface h m = sm3 m) ∧ SucceedsWith .cfgHash s [] false s.cipher h)
end

