-- ==== Sys2Proof/Laws/Memory.lean ====
section
/-! SUPPORT. The laws of the buffers' memory: a read after a write, and that every write keeps the canonical
form. -/

namespace Sys2Proof.Machine

theorem readByte_append (m m' : Memory) (a : Nat) :
    readByte (m ++ m') a = (readByte m a).orElse (fun _ => readByte m' a) := by
  induction m with
  | nil => simp [readByte]
  | cons c m ih =>
    by_cases h : c.1 = a
    · simp [readByte, h]
    · simp [readByte, h, ih]

theorem readByte_filter (p : Nat → Bool) (m : Memory) (a : Nat) :
    readByte (m.filter (fun c => p c.1)) a = if p a then readByte m a else none := by
  induction m with
  | nil => simp [readByte]
  | cons c m ih =>
    by_cases hp : p c.1 = true
    · by_cases h : c.1 = a
      · subst h; simp [readByte, hp]
      · simp [readByte, hp, h, ih]
    · by_cases h : c.1 = a
      · subst h; simp [hp] at ih ⊢; simp [ih]
      · simp [readByte, hp, h, ih]

theorem readByte_cellsAt (bs : Bytes) (b a : Nat) :
    readByte (cellsAt b bs) a = if b ≤ a then bs[a - b]? else none := by
  induction bs generalizing b with
  | nil => simp [cellsAt, readByte]
  | cons x bs ih =>
    by_cases h : b = a
    · subst h; simp [cellsAt, readByte]
    · simp only [cellsAt, readByte, h, if_false, ih]
      by_cases h2 : b ≤ a
      · have h3 : b + 1 ≤ a := by omega
        have h4 : a - b = (a - (b + 1)) + 1 := by omega
        simp [h2, h3, h4]
      · have h3 : ¬ (b + 1 ≤ a) := by omega
        simp [h2, h3]

/-- A read after a write: the stored byte inside the string's range, the old contents elsewhere. -/
theorem readByte_writeBytes (m : Memory) (b : Nat) (bs : Bytes) (a : Nat) :
    readByte (writeBytes m b bs) a = if b ≤ a ∧ a < b + bs.length then bs[a - b]? else readByte m a := by
  have h1 := readByte_filter (fun x => decide (x < b)) m a
  have h2 := readByte_filter (fun x => decide (b + bs.length ≤ x)) m a
  simp only [writeBytes, readByte_append, h1, h2, readByte_cellsAt]
  by_cases c1 : b ≤ a
  · by_cases c2 : a < b + bs.length
    · have h3 : ¬ a < b := by omega
      have h4 : ¬ (b + bs.length ≤ a) := by omega
      simp [c1, c2, h3, h4]
    · have h3 : ¬ a < b := by omega
      have h4 : b + bs.length ≤ a := by omega
      have h5 : bs[a - b]? = none := by simp; omega
      simp [c1, c2, h3, h4, h5]
  · have h3 : a < b := by omega
    have h4 : ¬ (b + bs.length ≤ a) := by omega
    simp [c1, h3, h4]

theorem readBytes_length {m : Memory} {a n : Nat} {bs : Bytes} (h : readBytes m a n = some bs) :
    bs.length = n := by
  induction n generalizing a bs with
  | zero => simp [readBytes] at h; simp [← h]
  | succ n ih =>
    simp only [readBytes] at h
    split at h
    · rename_i b bs' _ h2; cases h; simp [ih h2]
    · cases h

/-- `readBytes` byte by byte. -/
theorem readBytes_eq_some_iff (m : Memory) (a n : Nat) (bs : Bytes) :
    readBytes m a n = some bs ↔ bs.length = n ∧ ∀ k, k < n → readByte m (a + k) = bs[k]? := by
  induction n generalizing a bs with
  | zero =>
    simp only [readBytes, Option.some.injEq, List.length_eq_zero_iff, Nat.not_lt_zero, false_implies,
      implies_true, and_true]
    exact eq_comm
  | succ n ih =>
    simp only [readBytes]
    constructor
    · intro h
      split at h
      · rename_i b bs' h1 h2
        cases h
        obtain ⟨hl, hk⟩ := (ih _ _).1 h2
        refine ⟨by simp [hl], ?_⟩
        intro k hk'
        cases k with
        | zero => simpa using h1
        | succ k =>
          have := hk k (by omega)
          rw [show a + (k + 1) = a + 1 + k by omega, this]; simp
      · cases h
    · rintro ⟨hl, hk⟩
      cases bs with
      | nil => simp at hl
      | cons b bs =>
        have h0 : readByte m a = some b := by simpa using hk 0 (by omega)
        have h1 : readBytes m (a + 1) n = some bs := (ih _ _).2
          ⟨by simpa using hl, fun k hk' => by
            have := hk (k + 1) (by omega)
            rw [show a + (k + 1) = a + 1 + k by omega] at this; simpa using this⟩
        simp [h0, h1]

/-- The bytes just written read back. -/
theorem readBytes_writeBytes_same (m : Memory) (a : Nat) (bs : Bytes) :
    readBytes (writeBytes m a bs) a bs.length = some bs := by
  rw [readBytes_eq_some_iff]
  refine ⟨rfl, fun k hk => ?_⟩
  rw [readByte_writeBytes]
  simp [hk]

theorem readBytes_congr {m m' : Memory} {a n : Nat}
    (h : ∀ k, k < n → readByte m (a + k) = readByte m' (a + k)) : readBytes m a n = readBytes m' a n := by
  induction n generalizing a with
  | zero => rfl
  | succ n ih =>
    have h0 : readByte m a = readByte m' a := by simpa using h 0 (by omega)
    have h1 : readBytes m (a + 1) n = readBytes m' (a + 1) n := ih (fun k hk => by
      have := h (k + 1) (by omega)
      rwa [show a + (k + 1) = a + 1 + k by omega] at this)
    simp [readBytes, h0, h1]

theorem readBytes_eq_none_iff (m : Memory) (a n : Nat) :
    readBytes m a n = none ↔ ∃ k, k < n ∧ readByte m (a + k) = none := by
  induction n generalizing a with
  | zero => simp [readBytes]
  | succ n ih =>
    simp only [readBytes]
    constructor
    · intro h
      by_cases h0 : readByte m a = none
      · exact ⟨0, by omega, by simpa using h0⟩
      · have h1 : readBytes m (a + 1) n = none := by
          cases e0 : readByte m a with
          | none => exact absurd e0 h0
          | some b =>
            cases e1 : readBytes m (a + 1) n with
            | none => rfl
            | some bs => rw [e0, e1] at h; cases h
        obtain ⟨k, hk, h2⟩ := (ih _).1 h1
        exact ⟨k + 1, by omega, by rw [show a + (k + 1) = a + 1 + k by omega]; exact h2⟩
    · rintro ⟨k, hk, h2⟩
      cases k with
      | zero => simp at h2; simp [h2]
      | succ k =>
        have : readBytes m (a + 1) n = none :=
          (ih _).2 ⟨k, by omega, by rw [show a + 1 + k = a + (k + 1) by omega]; exact h2⟩
        rw [this]; split <;> simp_all

theorem cellsAt_mem {bs : Bytes} {a : Nat} {c : Host.Cell} (h : c ∈ cellsAt a bs) :
    a ≤ c.1 ∧ c.1 < a + bs.length := by
  induction bs generalizing a with
  | nil => simp [cellsAt] at h
  | cons b bs ih =>
    simp only [cellsAt, List.mem_cons] at h
    rcases h with rfl | h
    · simp
    · have := ih h; simp only [List.length_cons]; omega

theorem cellsAt_wf (a : Nat) (bs : Bytes) : (cellsAt a bs).Pairwise (fun c d => c.1 < d.1) := by
  induction bs generalizing a with
  | nil => simp [cellsAt]
  | cons b bs ih =>
    refine List.pairwise_cons.2 ⟨fun c hc => ?_, ih _⟩
    have := cellsAt_mem hc; show a < c.1; omega

/-- A write keeps the canonical form. -/
theorem writeBytes_wf {m : Memory} (a : Nat) (bs : Bytes) (h : m.wf) : (writeBytes m a bs).wf := by
  have hf : ∀ p : Host.Cell → Bool, (m.filter p).Pairwise (fun c d => c.1 < d.1) := fun p => List.Pairwise.filter p h
  refine List.pairwise_append.2 ⟨List.pairwise_append.2 ⟨hf _, cellsAt_wf a bs, ?_⟩, hf _, ?_⟩
  · intro c hc d hd
    have h1 := (List.mem_filter.1 hc).2
    have h2 := cellsAt_mem hd
    simp at h1; omega
  · intro c hc d hd
    have h1 := (List.mem_filter.1 hd).2
    simp at h1
    rcases List.mem_append.1 hc with hc | hc
    · have h2 := (List.mem_filter.1 hc).2; simp at h2; omega
    · have h2 := cellsAt_mem hc; omega

/-- Every cell after a write is one of the old cells or inside the string's range. -/
theorem writeBytes_mem {m : Memory} {a : Nat} {bs : Bytes} {c : Host.Cell} (h : c ∈ writeBytes m a bs) :
    c ∈ m ∨ (a ≤ c.1 ∧ c.1 < a + bs.length) := by
  simp only [writeBytes, List.mem_append, List.mem_filter] at h
  rcases h with (⟨h, _⟩ | h) | ⟨h, _⟩
  · exact .inl h
  · exact .inr (cellsAt_mem h)
  · exact .inl h

/-- Reset memory is in canonical form. -/
theorem reset_mem_wf : State.reset.mem.wf := List.Pairwise.nil

end Sys2Proof.Machine
end

