-- ==== Sys2Proof/Laws/State.lean ====
section
/-! SUPPORT. One lemma per field of State for each named update: what the update leaves in the field. -/

namespace Sys2Proof.Machine

@[simp] theorem accept_status (s : State) (w : Word) : (accept s w).status = statusAccepted s.status := rfl
@[simp] theorem accept_cmdl (s : State) (w : Word) : (accept s w).cmdl = w := rfl
@[simp] theorem accept_cfg (s : State) (w : Word) : (accept s w).cfg = s.cfg := rfl
@[simp] theorem accept_len0 (s : State) (w : Word) : (accept s w).len0 = s.len0 := rfl
@[simp] theorem accept_len1 (s : State) (w : Word) : (accept s w).len1 = s.len1 := rfl
@[simp] theorem accept_outlen (s : State) (w : Word) : (accept s w).outlen = 0 := rfl
@[simp] theorem accept_doneIe (s : State) (w : Word) : (accept s w).doneIe = s.doneIe := rfl
@[simp] theorem accept_cipher (s : State) (w : Word) : (accept s w).cipher = s.cipher := rfl
@[simp] theorem accept_hash (s : State) (w : Word) : (accept s w).hash = s.hash := rfl
@[simp] theorem accept_mem (s : State) (w : Word) : (accept s w).mem = s.mem := rfl
@[simp] theorem accept_sm3 (s : State) (w : Word) : (accept s w).sm3 = s.sm3 := rfl
@[simp] theorem accept_sm4 (s : State) (w : Word) : (accept s w).sm4 = s.sm4 := rfl
@[simp] theorem accept_inReset (s : State) (w : Word) : (accept s w).inReset = s.inReset := rfl
@[simp] theorem accept_caps (s : State) (w : Word) : (accept s w).caps = s.caps := rfl
@[simp] theorem accept_host (s : State) (w : Word) : (accept s w).host = s.host := rfl
@[simp] theorem accept_replies (s : State) (w : Word) : (accept s w).replies = s.replies := rfl
@[simp] theorem accept_draws (s : State) (w : Word) : (accept s w).draws = s.draws := rfl

@[simp] theorem completeOk_status (s : State) (d : Done) : (completeOk s d).status = statusOk s.status d.matched := rfl
@[simp] theorem completeOk_cmdl (s : State) (d : Done) : (completeOk s d).cmdl = s.cmdl := rfl
@[simp] theorem completeOk_cfg (s : State) (d : Done) : (completeOk s d).cfg = s.cfg := rfl
@[simp] theorem completeOk_len0 (s : State) (d : Done) : (completeOk s d).len0 = s.len0 := rfl
@[simp] theorem completeOk_len1 (s : State) (d : Done) : (completeOk s d).len1 = s.len1 := rfl
@[simp] theorem completeOk_outlen (s : State) (d : Done) : (completeOk s d).outlen = BitVec.ofNat 32 d.out.length := rfl
@[simp] theorem completeOk_doneIe (s : State) (d : Done) : (completeOk s d).doneIe = s.doneIe := rfl
@[simp] theorem completeOk_cipher (s : State) (d : Done) : (completeOk s d).cipher = d.cipher := rfl
@[simp] theorem completeOk_hash (s : State) (d : Done) : (completeOk s d).hash = d.hash := rfl
@[simp] theorem completeOk_mem (s : State) (d : Done) : (completeOk s d).mem = writeBytes s.mem outBase d.out := rfl
@[simp] theorem completeOk_sm3 (s : State) (d : Done) : (completeOk s d).sm3 = sm3Residue s.draws := rfl
@[simp] theorem completeOk_sm4 (s : State) (d : Done) : (completeOk s d).sm4 = sm4Residue s.draws := rfl
@[simp] theorem completeOk_inReset (s : State) (d : Done) : (completeOk s d).inReset = s.inReset := rfl
@[simp] theorem completeOk_caps (s : State) (d : Done) : (completeOk s d).caps = s.caps := rfl
@[simp] theorem completeOk_host (s : State) (d : Done) : (completeOk s d).host = s.host := rfl
@[simp] theorem completeOk_replies (s : State) (d : Done) : (completeOk s d).replies = s.replies := rfl
@[simp] theorem completeOk_draws (s : State) (d : Done) : (completeOk s d).draws = s.draws + 1 := rfl

@[simp] theorem completeErr_status (s : State) (e : CmdError) : (completeErr s e).status = statusErr s.status e := rfl
@[simp] theorem completeErr_cmdl (s : State) (e : CmdError) : (completeErr s e).cmdl = s.cmdl := rfl
@[simp] theorem completeErr_cfg (s : State) (e : CmdError) : (completeErr s e).cfg = s.cfg := rfl
@[simp] theorem completeErr_len0 (s : State) (e : CmdError) : (completeErr s e).len0 = s.len0 := rfl
@[simp] theorem completeErr_len1 (s : State) (e : CmdError) : (completeErr s e).len1 = s.len1 := rfl
@[simp] theorem completeErr_outlen (s : State) (e : CmdError) : (completeErr s e).outlen = 0 := rfl
@[simp] theorem completeErr_doneIe (s : State) (e : CmdError) : (completeErr s e).doneIe = s.doneIe := rfl
@[simp] theorem completeErr_cipher (s : State) (e : CmdError) : (completeErr s e).cipher = s.cipher := rfl
@[simp] theorem completeErr_hash (s : State) (e : CmdError) : (completeErr s e).hash = s.hash := rfl
@[simp] theorem completeErr_mem (s : State) (e : CmdError) : (completeErr s e).mem = s.mem := rfl
@[simp] theorem completeErr_sm3 (s : State) (e : CmdError) : (completeErr s e).sm3 = sm3Residue s.draws := rfl
@[simp] theorem completeErr_sm4 (s : State) (e : CmdError) : (completeErr s e).sm4 = sm4Residue s.draws := rfl
@[simp] theorem completeErr_inReset (s : State) (e : CmdError) : (completeErr s e).inReset = s.inReset := rfl
@[simp] theorem completeErr_caps (s : State) (e : CmdError) : (completeErr s e).caps = s.caps := rfl
@[simp] theorem completeErr_host (s : State) (e : CmdError) : (completeErr s e).host = s.host := rfl
@[simp] theorem completeErr_replies (s : State) (e : CmdError) : (completeErr s e).replies = s.replies := rfl
@[simp] theorem completeErr_draws (s : State) (e : CmdError) : (completeErr s e).draws = s.draws + 1 := rfl

@[simp] theorem applyReset_status (s : State) : (applyReset s).status = State.reset.status := rfl
@[simp] theorem applyReset_cmdl (s : State) : (applyReset s).cmdl = State.reset.cmdl := rfl
@[simp] theorem applyReset_cfg (s : State) : (applyReset s).cfg = State.reset.cfg := rfl
@[simp] theorem applyReset_len0 (s : State) : (applyReset s).len0 = State.reset.len0 := rfl
@[simp] theorem applyReset_len1 (s : State) : (applyReset s).len1 = State.reset.len1 := rfl
@[simp] theorem applyReset_outlen (s : State) : (applyReset s).outlen = State.reset.outlen := rfl
@[simp] theorem applyReset_doneIe (s : State) : (applyReset s).doneIe = State.reset.doneIe := rfl
@[simp] theorem applyReset_cipher (s : State) : (applyReset s).cipher = State.reset.cipher := rfl
@[simp] theorem applyReset_hash (s : State) : (applyReset s).hash = State.reset.hash := rfl
@[simp] theorem applyReset_mem (s : State) : (applyReset s).mem = s.mem := rfl
@[simp] theorem applyReset_sm3 (s : State) : (applyReset s).sm3 = State.reset.sm3 := rfl
@[simp] theorem applyReset_sm4 (s : State) : (applyReset s).sm4 = State.reset.sm4 := rfl
@[simp] theorem applyReset_inReset (s : State) : (applyReset s).inReset = true := rfl
@[simp] theorem applyReset_caps (s : State) : (applyReset s).caps = s.caps := rfl
@[simp] theorem applyReset_host (s : State) : (applyReset s).host = s.host := rfl
@[simp] theorem applyReset_replies (s : State) : (applyReset s).replies = s.replies := rfl
@[simp] theorem applyReset_draws (s : State) : (applyReset s).draws = s.draws := rfl

@[simp] theorem placeCommand_status (s : State) (w : Word) : (placeCommand s w).status = statusAccepted s.status := rfl
@[simp] theorem placeCommand_cmdl (s : State) (w : Word) : (placeCommand s w).cmdl = w := rfl
@[simp] theorem placeCommand_cfg (s : State) (w : Word) : (placeCommand s w).cfg = s.cfg := rfl
@[simp] theorem placeCommand_len0 (s : State) (w : Word) : (placeCommand s w).len0 = s.len0 := rfl
@[simp] theorem placeCommand_len1 (s : State) (w : Word) : (placeCommand s w).len1 = s.len1 := rfl
@[simp] theorem placeCommand_outlen (s : State) (w : Word) : (placeCommand s w).outlen = 0 := rfl
@[simp] theorem placeCommand_doneIe (s : State) (w : Word) : (placeCommand s w).doneIe = s.doneIe := rfl
@[simp] theorem placeCommand_cipher (s : State) (w : Word) : (placeCommand s w).cipher = s.cipher := rfl
@[simp] theorem placeCommand_hash (s : State) (w : Word) : (placeCommand s w).hash = s.hash := rfl
@[simp] theorem placeCommand_mem (s : State) (w : Word) : (placeCommand s w).mem = s.mem := rfl
@[simp] theorem placeCommand_sm3 (s : State) (w : Word) : (placeCommand s w).sm3 = s.sm3 := rfl
@[simp] theorem placeCommand_sm4 (s : State) (w : Word) : (placeCommand s w).sm4 = s.sm4 := rfl
@[simp] theorem placeCommand_inReset (s : State) (w : Word) : (placeCommand s w).inReset = false := rfl
@[simp] theorem placeCommand_caps (s : State) (w : Word) : (placeCommand s w).caps = s.caps := rfl
@[simp] theorem placeCommand_host (s : State) (w : Word) : (placeCommand s w).host = .engineTurn :: s.host := rfl
@[simp] theorem placeCommand_replies (s : State) (w : Word) : (placeCommand s w).replies = s.replies := rfl
@[simp] theorem placeCommand_draws (s : State) (w : Word) : (placeCommand s w).draws = s.draws := rfl

@[simp] theorem statusAccepted_busy (st : Status) : (statusAccepted st).busy = true := rfl
@[simp] theorem statusAccepted_done (st : Status) : (statusAccepted st).done = false := rfl
@[simp] theorem statusAccepted_err (st : Status) : (statusAccepted st).err = false := rfl
@[simp] theorem statusAccepted_werr (st : Status) : (statusAccepted st).werr = st.werr := rfl
@[simp] theorem statusAccepted_matched (st : Status) : (statusAccepted st).matched = false := rfl
@[simp] theorem statusAccepted_errCode (st : Status) : (statusAccepted st).errCode = 0 := rfl
@[simp] theorem statusOk_busy (st : Status) (m : Bool) : (statusOk st m).busy = false := rfl
@[simp] theorem statusOk_done (st : Status) (m : Bool) : (statusOk st m).done = true := rfl
@[simp] theorem statusOk_err (st : Status) (m : Bool) : (statusOk st m).err = false := rfl
@[simp] theorem statusOk_werr (st : Status) (m : Bool) : (statusOk st m).werr = st.werr := rfl
@[simp] theorem statusOk_matched (st : Status) (m : Bool) : (statusOk st m).matched = m := rfl
@[simp] theorem statusOk_errCode (st : Status) (m : Bool) : (statusOk st m).errCode = 0 := rfl
@[simp] theorem statusErr_busy (st : Status) (e : CmdError) : (statusErr st e).busy = false := rfl
@[simp] theorem statusErr_done (st : Status) (e : CmdError) : (statusErr st e).done = true := rfl
@[simp] theorem statusErr_err (st : Status) (e : CmdError) : (statusErr st e).err = true := rfl
@[simp] theorem statusErr_werr (st : Status) (e : CmdError) : (statusErr st e).werr = st.werr := rfl
@[simp] theorem statusErr_matched (st : Status) (e : CmdError) : (statusErr st e).matched = false := rfl
@[simp] theorem statusErr_errCode (st : Status) (e : CmdError) : (statusErr st e).errCode = errorCode e := rfl
@[simp] theorem statusW1c_busy (st : Status) (d : Word) : (statusW1c st d).busy = st.busy := rfl
@[simp] theorem statusW1c_err (st : Status) (d : Word) : (statusW1c st d).err = st.err := rfl
@[simp] theorem statusW1c_matched (st : Status) (d : Word) : (statusW1c st d).matched = st.matched := rfl
@[simp] theorem statusW1c_errCode (st : Status) (d : Word) : (statusW1c st d).errCode = st.errCode := rfl
@[simp] theorem statusWerr_busy (st : Status) : (statusWerr st).busy = st.busy := rfl
@[simp] theorem statusWerr_done (st : Status) : (statusWerr st).done = st.done := rfl
@[simp] theorem statusWerr_err (st : Status) : (statusWerr st).err = st.err := rfl
@[simp] theorem statusWerr_werr (st : Status) : (statusWerr st).werr = true := rfl
@[simp] theorem statusWerr_matched (st : Status) : (statusWerr st).matched = st.matched := rfl
@[simp] theorem statusWerr_errCode (st : Status) : (statusWerr st).errCode = st.errCode := rfl

end Sys2Proof.Machine
end

