-- ==== Sys2Proof/Laws/Bus.lean ====
section
/-! SUPPORT. Where a legal access falls, and what one access or one event can do. -/

namespace Sys2Proof.Machine

theorem sizeBytes_cases (size : Size) : sizeBytes size = 1 ∨ sizeBytes size = 2 ∨ sizeBytes size = 4 := by
  cases size <;> simp [sizeBytes]

/-- A register starts at each multiple of 4 below 0x24, and nowhere else. -/
theorem regAt_eq_none_iff (a : Nat) : regAt a = none ↔ ¬ (a % 4 = 0 ∧ a < 0x24) := by
  unfold regAt
  repeat' split
  all_goals simp; omega

/-- The three buffers' mapped bytes are apart, and above the registers. -/
theorem inBuf_bounds {c : Capacities} {b : Buf} {a n : Nat} (h : InBuf c b a n) :
    (b = .in0 ∧ 0x10000 ≤ a ∧ a + n ≤ 0x20000) ∨ (b = .in1 ∧ 0x20000 ≤ a ∧ a + n ≤ 0x30000) ∨
      (b = .out ∧ 0x30000 ≤ a ∧ a + n ≤ 0x40000) := by
  have h0 := c.in0.2
  have h1 := c.in1.2
  have h2 := c.out.2
  cases b <;> simp only [InBuf, bufBase, bufCap, in0Base, in1Base, outBase] at h <;> simp <;> omega

/-- A legal access inside a buffer: its bytes all exist. -/
theorem locate_buf {c : Capacities} {off : BitVec 18} {size : Size} {b : Buf} {k : Nat} (h : locate c off size = some (.buf b k)) :
    off.toNat = bufBase b + k ∧ k + sizeBytes size ≤ bufCap c b ∧ off.toNat % sizeBytes size = 0 := by
  unfold locate locateAt at h
  split at h
  · rename_i ha
    split at h
    · split at h
      · cases hr : regAt off.toNat <;> simp [hr] at h
      · simp at h
    · repeat' split at h
      all_goals first
        | (simp at h; done)
        | (rename_i hb; simp only [Option.some.injEq, Loc.buf.injEq] at h; obtain ⟨rfl, rfl⟩ := h
           simp only [InBuf, bufBase, bufCap, in0Base, in1Base, outBase] at hb ⊢; omega)
  · simp at h

/-- A legal access of a register: an aligned word below 0x24. -/
theorem locate_reg {c : Capacities} {off : BitVec 18} {size : Size} {r : Reg} (h : locate c off size = some (.reg r)) :
    size = .b4 ∧ off.toNat % 4 = 0 ∧ off.toNat < 0x24 ∧ regAt off.toNat = some r := by
  unfold locate locateAt at h
  split at h
  · split at h
    · split at h
      · rename_i _ _ hs
        cases hr : regAt off.toNat with
        | none => simp [hr] at h
        | some r' =>
          simp only [hr, Option.map_some, Option.some.injEq, Loc.reg.injEq] at h
          have hn : regAt off.toNat ≠ none := by simp [hr]
          rw [ne_eq, regAt_eq_none_iff, not_not] at hn
          exact ⟨hs, hn.1, hn.2, by rw [h]⟩
      · simp at h
    · repeat' split at h
      all_goals simp at h
  · simp at h

/-- An aligned access inside a buffer is legal. -/
theorem locate_of_inBuf {c : Capacities} {off : BitVec 18} {size : Size} {b : Buf} (h1 : off.toNat % sizeBytes size = 0)
    (h2 : InBuf c b off.toNat (sizeBytes size)) : locate c off size = some (.buf b (off.toNat - bufBase b)) := by
  have hn := sizeBytes_cases size
  have hb := inBuf_bounds h2
  have apart : ∀ b', InBuf c b' off.toNat (sizeBytes size) → b' = b := fun b' hc => by
    have hc' := inBuf_bounds hc
    rcases hb with ⟨rfl, _⟩ | ⟨rfl, _⟩ | ⟨rfl, _⟩ <;> rcases hc' with ⟨rfl, _⟩ | ⟨rfl, _⟩ | ⟨rfl, _⟩ <;>
      first | rfl | omega
  have off0 : ¬ InBuf c .in0 off.toNat (sizeBytes size) ∨ b = .in0 := by
    by_cases h : InBuf c .in0 off.toNat (sizeBytes size)
    · exact .inr (apart _ h).symm
    · exact .inl h
  have off1 : ¬ InBuf c .in1 off.toNat (sizeBytes size) ∨ b = .in1 := by
    by_cases h : InBuf c .in1 off.toNat (sizeBytes size)
    · exact .inr (apart _ h).symm
    · exact .inl h
  unfold locate locateAt
  rw [if_pos h1, if_neg (by omega)]
  cases b with
  | in0 => rw [if_pos h2]; rfl
  | in1 => rw [if_neg (off0.resolve_right (by simp)), if_pos h2]; rfl
  | out => rw [if_neg (off0.resolve_right (by simp)), if_neg (off1.resolve_right (by simp)), if_pos h2]; rfl

@[simp] theorem locate_id (c : Capacities) : locate c 0#18 .b4 = some (.reg .id) := rfl
@[simp] theorem locate_cmd (c : Capacities) : locate c 4#18 .b4 = some (.reg .cmd) := rfl
@[simp] theorem locate_status (c : Capacities) : locate c 8#18 .b4 = some (.reg .status) := rfl
@[simp] theorem locate_cfg (c : Capacities) : locate c 12#18 .b4 = some (.reg .cfg) := rfl
@[simp] theorem locate_len0 (c : Capacities) : locate c 16#18 .b4 = some (.reg .len0) := rfl
@[simp] theorem locate_len1 (c : Capacities) : locate c 20#18 .b4 = some (.reg .len1) := rfl
@[simp] theorem locate_outlen (c : Capacities) : locate c 24#18 .b4 = some (.reg .outlen) := rfl
@[simp] theorem locate_inst (c : Capacities) : locate c 28#18 .b4 = some (.reg .inst) := rfl
@[simp] theorem locate_irqen (c : Capacities) : locate c 32#18 .b4 = some (.reg .irqen) := rfl

/-- A read served changes the model's own fields alone. -/
theorem busRead_eq (s : State) (off : BitVec 18) (size : Size) :
    ∃ r n, busRead s off size = { s with replies := s.replies ++ [r], draws := n } := by
  unfold busRead
  cases locate s.caps off size with
  | none => exact ⟨_, s.draws, rfl⟩
  | some l => exact ⟨_, _, rfl⟩

/-- What a write served can do: nothing on an ERROR, WERR while busy, `writeLoc` while idle. -/
theorem busWrite_cases (s : State) (off : BitVec 18) (size : Size) (d : Word) :
    (locate s.caps off size = none ∧
      busWrite s off size d = { s with replies := s.replies ++ [{ resp := .error, data := none }] }) ∨
    (∃ l, locate s.caps off size = some l ∧ s.status.busy = true ∧
      busWrite s off size d =
        { s with status := statusWerr s.status, replies := s.replies ++ [{ resp := .okay, data := none }] }) ∨
    (∃ l, locate s.caps off size = some l ∧ s.status.busy = false ∧
      busWrite s off size d =
        { writeLoc s size d l with
          replies := (writeLoc s size d l).replies ++ [{ resp := .okay, data := none }] }) := by
  unfold busWrite
  cases hl : locate s.caps off size with
  | none => exact .inl ⟨rfl, rfl⟩
  | some l =>
    cases hb : s.status.busy
    · exact .inr (.inr ⟨l, rfl, rfl, by simp⟩)
    · exact .inr (.inl ⟨l, rfl, rfl, by simp⟩)

/-- What one step can do: the engine's turn, a served access, a change of `rst`. -/
theorem step_next_cases {s t : State} (h : step s = .next t) :
    (∃ s0, (s.host = [] ∧ s0 = s ∨ ∃ rest, s.host = .engineTurn :: rest ∧ s0 = { s with host := rest }) ∧
      engineStep s0 = .next t) ∨
    (∃ a rest, s.host = .access a :: rest ∧ s.inReset = false ∧ t = serveAccess { s with host := rest } a) ∨
    (∃ rest, s.host = .rst true :: rest ∧ t = applyReset { s with host := rest }) ∨
    (∃ rest, s.host = .rst false :: rest ∧ t = { s with host := rest, inReset := false }) := by
  unfold step stepOnce at h
  cases hh : s.host with
  | nil => rw [hh] at h; exact .inl ⟨s, .inl ⟨rfl, rfl⟩, h⟩
  | cons e rest =>
    rw [hh] at h
    cases e with
    | access a =>
      simp only [serveEvent] at h
      split at h
      · cases h
      · rename_i hr
        cases h
        exact .inr (.inl ⟨a, rest, rfl, by simpa using hr, rfl⟩)
    | engineTurn => exact .inl ⟨_, .inr ⟨rest, rfl, rfl⟩, h⟩
    | rst l =>
      cases l
      · cases h; exact .inr (.inr (.inr ⟨rest, rfl, rfl⟩))
      · cases h; exact .inr (.inr (.inl ⟨rest, rfl, rfl⟩))

/-- What the engine's turn can do: wait, or complete the command in flight. -/
theorem engineStep_next_cases {s t : State} (h : engineStep s = .next t) :
    (s.status.busy = false ∧ t = s) ∨
    (s.status.busy = true ∧ ∃ i, decode s.cmdl = .ok i ∧ exec i s = .next t) ∨
    (s.status.busy = true ∧ (∃ e, decode s.cmdl = .error e) ∧ t = completeErr s .illegalCommand) := by
  unfold engineStep at h
  cases hb : s.status.busy
  · simp [hb] at h; exact .inl ⟨rfl, h.symm⟩
  · simp only [hb, if_true, completeLatched] at h
    cases hd : decode s.cmdl with
    | ok i => rw [hd] at h; exact .inr (.inl ⟨rfl, i, rfl, h⟩)
    | error e => rw [hd] at h; cases h; exact .inr (.inr ⟨rfl, ⟨e, rfl⟩, rfl⟩)

end Sys2Proof.Machine
end

