-- ==== Sys2Proof/Laws/Lengths.lean ====
section
/-! SUPPORT. The lengths of the strings the algorithms produce. -/

namespace Sys2Proof.Machine

@[simp] theorem be32bytes_length (x : Word) : (be32bytes x).length = 4 := rfl

@[simp] theorem be64bytes_length (n : Nat) : (be64bytes n).length = 8 := by simp [be64bytes]

@[simp] theorem beBytes_length (ws : List Word) : (beBytes ws).length = 4 * ws.length := by
  induction ws with
  | nil => rfl
  | cons w ws ih => simp only [beBytes, List.flatMap_cons, List.length_append, be32bytes_length, List.length_cons] at ih ⊢; omega

@[simp] theorem repByte_length (v : Byte) (n : Nat) : (repByte v n).length = n := by simp [repByte]

@[simp] theorem xorBytes_length (a b : Bytes) : (xorBytes a b).length = min a.length b.length := by
  simp [xorBytes]

@[simp] theorem toVec_toList {w n : Nat} {l : List (BitVec w)} (h : l.length = n) : (toVec n l).toList = l := by
  show List.take n (l ++ List.replicate n 0) = l
  subst h; simp

@[simp] theorem blocksOf_length (size n : Nat) (b : Bytes) : (blocksOf size n b).length = n := by
  induction n generalizing b with
  | zero => rfl
  | succ n ih => simp [blocksOf, ih]

/-- The blocks of a string of whole blocks join to the string. -/
theorem blocksOf_flatten (size n : Nat) (b : Bytes) (h : b.length = size * n) :
    (blocksOf size n b).flatten = b := by
  induction n generalizing b with
  | zero => simp at h; simp [blocksOf, h]
  | succ n ih =>
    have h2 : (b.drop size).length = size * n := by
      rw [List.length_drop, h, Nat.mul_succ]; omega
    simp [blocksOf, ih _ h2]

/-- Each block of a string of whole blocks has the block's size. -/
theorem blocksOf_mem_length (size n : Nat) (b : Bytes) (h : b.length = size * n) :
    ∀ q ∈ blocksOf size n b, q.length = size := by
  induction n generalizing b with
  | zero => intro q hq; simp [blocksOf] at hq
  | succ n ih =>
    have h2 : (b.drop size).length = size * n := by
      rw [List.length_drop, h, Nat.mul_succ]; omega
    intro q hq
    simp only [blocksOf, List.mem_cons] at hq
    rcases hq with rfl | hq
    · rw [List.length_take, h, Nat.mul_succ]; omega
    · exact ih _ h2 q hq

/-- Joining blocks of one size and cutting again gives the blocks. -/
theorem blocksOf_of_flatten (size : Nat) (qs : List Bytes) (h : ∀ q ∈ qs, q.length = size) :
    blocksOf size qs.length qs.flatten = qs := by
  induction qs with
  | nil => rfl
  | cons q qs ih =>
    have hq : q.length = size := h q (by simp)
    have := ih (fun r hr => h r (by simp [hr]))
    simp [blocksOf, ← hq] at this ⊢
    exact this

theorem flatten_length_of_blocks (size : Nat) (qs : List Bytes) (h : ∀ q ∈ qs, q.length = size) :
    qs.flatten.length = size * qs.length := by
  induction qs with
  | nil => simp
  | cons q qs ih =>
    have hq : q.length = size := h q (by simp)
    have := ih (fun r hr => h r (by simp [hr]))
    simp only [List.flatten_cons, List.length_append, List.length_cons, hq, this, Nat.mul_succ]; omega

@[simp] theorem sm3_length (m : Bytes) : (sm3 m).length = 32 := by simp [sm3, sm3Serialise]

@[simp] theorem hex_length (b : Bytes) : (hex b).length = 2 * b.length := by
  induction b with
  | nil => rfl
  | cons x b ih => simp only [hex, List.flatMap_cons, List.length_append, List.length_cons, List.length_nil] at ih ⊢; omega

@[simp] theorem hmac0_length (m k : Bytes) : (hmac0 m k).length = 32 := by simp [hmac0]

@[simp] theorem hmac_length (m k : Bytes) : (hmac m k).length = 32 := by simp [hmac]

@[simp] theorem hmacK0_length (k : Bytes) : (hmacK0 k).length = 64 := by
  unfold hmacK0; split <;> simp; omega

@[simp] theorem hashSurface_length (h : HashInst) (m : Bytes) : (hashSurface h m).length = 32 := by
  unfold hashSurface; split <;> simp

@[simp] theorem b64_length (b : Bytes) : (b64 b).length = 4 * ((b.length + 2) / 3) := by
  induction b using b64.induct with
  | case1 => rfl
  | case2 a => simp [b64, b64Group]
  | case3 a b => simp [b64, b64Group]
  | case4 a b c rest ih =>
    simp only [b64, b64Group, List.length_append, List.length_cons, List.length_nil, ih]; omega

@[simp] theorem sm4Output_length (q : Quad) : (sm4Output q).length = 16 := by simp [sm4Output]

@[simp] theorem sm4Crypt_length (b : Bytes) (r : List Word) : (sm4Crypt b r).length = 16 := by simp [sm4Crypt]

@[simp] theorem sm4Enc_length (r : List Word) (b : Bytes) : (sm4Enc r b).length = 16 := by simp [sm4Enc]

@[simp] theorem sm4Dec_length (r : List Word) (b : Bytes) : (sm4Dec r b).length = 16 := by simp [sm4Dec]

@[simp] theorem sm4Keys_length (cks : List Word) (q : Quad) : (sm4Keys cks q).length = cks.length := by
  induction cks generalizing q with
  | nil => rfl
  | cons c cks ih => simp [sm4Keys, ih]

@[simp] theorem sm4Schedule_length (k : Bytes) : (sm4Schedule k).length = 32 := by simp [sm4Schedule]

/-- Every ciphertext block has 16 bytes, one for each padded block. -/
theorem encBlocks_lengths (c : CipherInst) (qs : List Bytes) :
    (encBlocks c qs).length = qs.length ∧ ∀ q ∈ encBlocks c qs, q.length = 16 := by
  unfold encBlocks
  cases c.mode
  · simp [ecbEnc]
  · suffices h : ∀ prev, (cbcEnc c.rk.toList prev qs).length = qs.length ∧
        ∀ q ∈ cbcEnc c.rk.toList prev qs, q.length = 16 from h _
    induction qs with
    | nil => intro prev; simp [cbcEnc]
    | cons q qs ih =>
      intro prev
      refine ⟨by simp [cbcEnc, (ih _).1], fun r hr => ?_⟩
      simp only [cbcEnc, List.mem_cons] at hr
      rcases hr with rfl | hr
      · simp
      · exact (ih _).2 r hr

/-- A padded string is whole blocks, at most one block longer than the plaintext. -/
theorem padBytes_length {p : Padding} {b q : Bytes} (h : padBytes p b = .ok q) :
    q.length % 16 = 0 ∧ b.length ≤ q.length ∧ q.length ≤ b.length + 16 := by
  cases p <;> simp only [padBytes] at h
  · cases h; simp only [List.length_append, repByte_length]; omega
  · cases h; simp only [List.length_append, repByte_length]; omega
  · split at h
    · cases h; omega
    · cases h

/-- The ciphertext's length is the padded plaintext's. -/
theorem encrypt_length {c : CipherInst} {p q : Bytes} (h : encrypt c p = .ok q) :
    ∃ r, padBytes c.pad p = .ok r ∧ q.length = r.length := by
  unfold encrypt at h
  cases hp : padBytes c.pad p with
  | error e => rw [hp] at h; cases h
  | ok r =>
    rw [hp] at h
    injection h with h
    have hl := padBytes_length hp
    refine ⟨r, rfl, ?_⟩
    rw [← h, flatten_length_of_blocks 16 _ (encBlocks_lengths c _).2, (encBlocks_lengths c _).1]
    simp only [cipherBlocks, blocksOf_length]; omega

/-- A ciphertext never exceeds the plaintext by more than a block. -/
theorem encrypt_length_le {c : CipherInst} {p q : Bytes} (h : encrypt c p = .ok q) : q.length ≤ p.length + 16 := by
  obtain ⟨r, hr, hq⟩ := encrypt_length h
  have := padBytes_length hr
  omega

theorem unpadBytes_length {p : Padding} {q b : Bytes} (h : unpadBytes p q = .ok b) : b.length ≤ q.length := by
  cases p <;> simp only [unpadBytes] at h
  · unfold unpadPkcs7 at h
    split at h
    · cases h
    · dsimp only at h
      split at h
      · cases h
      · split at h
        · cases h
        · cases h; simp
  · cases h
    have : (List.dropWhile (fun b => b == (0x00 : Byte)) q.reverse).length ≤ q.reverse.length :=
      (List.dropWhile_suffix _).length_le
    simpa [unpadZero] using this
  · cases h; exact Nat.le_refl _

/-- Every decrypted block has at most 16 bytes, one for each ciphertext block. -/
theorem decBlocks_lengths (c : CipherInst) (cs : List Bytes) :
    (decBlocks c cs).length = cs.length ∧ ∀ q ∈ decBlocks c cs, q.length ≤ 16 := by
  unfold decBlocks
  cases c.mode
  · simp [ecbDec]
  · suffices h : ∀ prev, (cbcDec c.rk.toList prev cs).length = cs.length ∧
        ∀ q ∈ cbcDec c.rk.toList prev cs, q.length ≤ 16 from h _
    induction cs with
    | nil => intro prev; simp [cbcDec]
    | cons q qs ih =>
      intro prev
      refine ⟨by simp [cbcDec, (ih _).1], fun r hr => ?_⟩
      simp only [cbcDec, List.mem_cons] at hr
      rcases hr with rfl | hr
      · simp only [xorBytes_length, sm4Dec_length]; omega
      · exact (ih _).2 r hr

theorem flatten_length_le (n : Nat) (qs : List Bytes) (h : ∀ q ∈ qs, q.length ≤ n) :
    qs.flatten.length ≤ n * qs.length := by
  induction qs with
  | nil => simp
  | cons q qs ih =>
    have hq : q.length ≤ n := h q (by simp)
    have := ih (fun r hr => h r (by simp [hr]))
    simp only [List.flatten_cons, List.length_append, List.length_cons, Nat.mul_succ]; omega

/-- A plaintext never exceeds its ciphertext. -/
theorem decrypt_length_le {c : CipherInst} {t p : Bytes} (h : decrypt c t = .ok p) : p.length ≤ t.length := by
  unfold decrypt at h
  split at h
  · have h1 := unpadBytes_length h
    have h2 := flatten_length_le 16 _ (decBlocks_lengths c (cipherBlocks t)).2
    rw [(decBlocks_lengths c _).1] at h2
    simp only [cipherBlocks, blocksOf_length] at h2
    simp only [cipherBlocks] at h1
    omega
  · cases h

/-- Hex text decodes to half its length. -/
theorem unhex_length : ∀ {t b : Bytes}, unhex t = some b → t.length = 2 * b.length
  | [], b, h => by cases h; rfl
  | [_], b, h => by cases h
  | c :: d :: rest, b, h => by
    simp only [unhex] at h
    split at h
    · rename_i bs _ _ hr
      cases h; have := unhex_length hr; simp only [List.length_cons]; omega
    · cases h

theorem unb64Last_length {c0 c1 c2 c3 : Byte} {b : Bytes} (h : unb64Last c0 c1 c2 c3 = some b) : b.length ≤ 3 := by
  unfold unb64Last at h
  repeat' split at h
  all_goals first
    | (cases h; done)
    | (injection h with h; subst h; simp [b64Bytes])

/-- A text of more than one group: its first group, then the rest. -/
theorem unb64_more (c0 c1 c2 c3 c4 : Byte) (rest : Bytes) :
    unb64 (c0 :: c1 :: c2 :: c3 :: c4 :: rest) =
      match b64Val c0, b64Val c1, b64Val c2, b64Val c3, unb64 (c4 :: rest) with
      | some v0, some v1, some v2, some v3, some bs => some (b64Bytes v0 v1 v2 v3 ++ bs)
      | _, _, _, _, _ => none := by
  rw [unb64] <;> first | exact fun h => nomatch h | rfl

/-- Base64 text decodes to at most its own length. -/
theorem unb64_length_le : ∀ {t b : Bytes}, unb64 t = some b → b.length ≤ t.length
  | [], b, h => by cases h; exact Nat.le_refl _
  | [_], b, h => by simp [unb64] at h
  | [_, _], b, h => by simp [unb64] at h
  | [_, _, _], b, h => by simp [unb64] at h
  | [c0, c1, c2, c3], b, h => by
    have := unb64Last_length (by simpa [unb64] using h)
    simp only [List.length_cons, List.length_nil]; omega
  | c0 :: c1 :: c2 :: c3 :: c4 :: rest, b, h => by
    rw [unb64_more] at h
    split at h
    · rename_i bs _ _ _ _ hr
      cases h; have := unb64_length_le hr
      simp only [b64Bytes, List.length_append, List.length_cons, List.length_nil] at this ⊢; omega
    · cases h

end Sys2Proof.Machine
end

