-- ==== Sys2Proof/Laws/Operands.lean ====
section
/-! SUPPORT. What operand fetch, result emission and completion can answer, and the result every command
completes with. -/

namespace Sys2Proof.Machine

/-- A rule's `let v = f(x)?` succeeds exactly when f does and the rest does. -/
theorem res_bind_ok {α β : Type} {x : Except Stop α} {f : α → Except Stop β} {b : β} :
    (x >>= f) = .ok b ↔ ∃ a, x = .ok a ∧ f a = .ok b := by
  cases x <;> simp [bind, Except.bind]

@[simp] theorem res_ok_bind {α β : Type} (a : α) (f : α → Except Stop β) : (Except.ok a >>= f) = f a := rfl

@[simp] theorem res_error_bind {α β : Type} (e : Stop) (f : α → Except Stop β) :
    ((Except.error e : Except Stop α) >>= f) = .error e := rfl

/-- The three answers of an operand fetch. -/
theorem operandAt_eq (m : Memory) (base cap : Nat) (len : Word) :
    operandAt m base cap len =
      if cap < len.toNat then .error (.error .capacityExceeded)
      else match readBytes m base len.toNat with
        | some b => .ok b
        | none => .error .uninitialized := rfl

theorem operandAt_ok_iff {m : Memory} {base cap : Nat} {len : Word} {b : Bytes} :
    operandAt m base cap len = .ok b ↔ len.toNat ≤ cap ∧ readBytes m base len.toNat = some b := by
  unfold operandAt
  by_cases h : cap < len.toNat
  · simp [h]
  · cases e : readBytes m base len.toNat <;> simp [h]
    omega

theorem operandAt_error {m : Memory} {base cap : Nat} {len : Word} {e : CmdError}
    (h : operandAt m base cap len = .error (.error e)) : e = .capacityExceeded ∧ cap < len.toNat := by
  unfold operandAt at h
  by_cases hc : cap < len.toNat
  · simp [hc] at h; exact ⟨h.symm, hc⟩
  · cases hr : readBytes m base len.toNat <;> simp [hc, hr] at h

theorem operandAt_uninitialized_iff {m : Memory} {base cap : Nat} {len : Word} :
    operandAt m base cap len = .error .uninitialized ↔
      len.toNat ≤ cap ∧ ∃ k, k < len.toNat ∧ readByte m (base + k) = none := by
  unfold operandAt
  by_cases hc : cap < len.toNat
  · simp [hc]
  · rw [← readBytes_eq_none_iff]
    cases readBytes m base len.toNat <;> simp [hc]
    omega

/-- Emission: the string itself, or CapacityExceeded. -/
theorem emit_ok_iff {cap : Nat} {out o : Bytes} : emit cap out = .ok o ↔ o = out ∧ out.length ≤ cap := by
  unfold emit
  by_cases h : cap < out.length
  · simp [h]
  · simp [h, eq_comm]; omega

/-- The shared ending of a command that turns one string into its result: the result where it fits OUT, else
CapacityExceeded. -/
theorem finish_eq (s : State) (out : Bytes) (m : Bool) :
    finish s out m =
      if s.caps.out.val < out.length then .error (.error .capacityExceeded) else .ok (doneWith s out m) := by
  unfold finish emit
  split <;> rfl

theorem finish_ok_iff {s : State} {out : Bytes} {m : Bool} {d : Done} :
    finish s out m = .ok d ↔ d = doneWith s out m ∧ out.length ≤ s.caps.out.val := by
  rw [finish_eq]
  split
  · simp; omega
  · simp [eq_comm]; omega

theorem finish_of_le {s : State} {out : Bytes} {m : Bool} (h : out.length ≤ s.caps.out.val) :
    finish s out m = .ok (doneWith s out m) := finish_ok_iff.2 ⟨rfl, h⟩

/-- A result of at most 64 bytes fits every OUT (00_scope.md R9). -/
theorem finish_of_le_64 {s : State} {out : Bytes} {m : Bool} (h : out.length ≤ 64) :
    finish s out m = .ok (doneWith s out m) := finish_of_le (Nat.le_trans h s.caps.out.2.1)

theorem finish_of_lt {s : State} {out : Bytes} {m : Bool} (h : s.caps.out.val < out.length) :
    finish s out m = .error (.error .capacityExceeded) := by rw [finish_eq, if_pos h]

@[simp] theorem require_true (e : CmdError) : require true e = .ok () := rfl
@[simp] theorem require_false (e : CmdError) : require false e = .error (.error e) := rfl

/-- What a completion can answer. -/
theorem complete_next_iff {s t : State} {r : Except Stop Done} :
    complete s r = .next t ↔
      (∃ d, r = .ok d ∧ t = completeOk s d) ∨ ∃ e, r = .error (.error e) ∧ t = completeErr s e := by
  cases r with
  | ok d => simp [complete, eq_comm]
  | error e => cases e <;> simp [complete, eq_comm]

/-- A completion is never refused. -/
theorem complete_not_refused (s : State) (r : Except Stop Done) (q : Refusal) : complete s r ≠ .refused q := by
  cases r with
  | ok d => simp [complete]
  | error e => cases e <;> simp [complete]

/-- The result of a command's rule (30_encoding.md R120). -/
def resultOf : Instr → State → Except Stop Done
  | .cfgCipher => resCfgCipher
  | .cfgHash => resCfgHash
  | .sm3Raw => resSm3Raw
  | .sm3Hex => resSm3Hex
  | .hashRaw => resHashRaw
  | .hashHex => resHashHex
  | .hmacRaw => resHmacRaw
  | .hmacHex => resHmacHex
  | .verify => resVerify
  | .encRaw => resEncRaw
  | .encHex => resEncHex
  | .encB64 => resEncB64
  | .decRaw => resDecRaw
  | .decHex => resDecHex
  | .decB64 => resDecB64
  | .hexEnc => resHexEnc
  | .hexDec => resHexDec
  | .b64Enc => resB64Enc
  | .b64Dec => resB64Dec

/-- Every command is the completion of its rule's result. -/
theorem exec_eq_complete (i : Instr) (s : State) : exec i s = complete s (resultOf i s) := by
  cases i <;> rfl

/-- What a command's next state can be: a success or a reported error. -/
theorem exec_next_cases {i : Instr} {s t : State} (h : exec i s = .next t) :
    (∃ d, resultOf i s = .ok d ∧ t = completeOk s d) ∨
      ∃ e, resultOf i s = .error (.error e) ∧ t = completeErr s e :=
  complete_next_iff.1 (exec_eq_complete i s ▸ h)

/-- A successful command that is no construction: the instances stand, the output fits, and MATCH stands only
beside a one-byte result. -/
theorem resultOf_ok_plain {i : Instr} {s : State} {d : Done} (h : resultOf i s = .ok d)
    (h1 : i ≠ .cfgCipher) (h2 : i ≠ .cfgHash) :
    ∃ out m, d = doneWith s out m ∧ out.length ≤ s.caps.out.val ∧ (m = true → out.length = 1) := by
  have key : ∀ {out m}, finish s out m = .ok d → (m = true → out.length = 1) →
      ∃ out m, d = doneWith s out m ∧ out.length ≤ s.caps.out.val ∧ (m = true → out.length = 1) :=
    fun hf hm => ⟨_, _, (finish_ok_iff.1 hf).1, (finish_ok_iff.1 hf).2, hm⟩
  cases i
  case cfgCipher => exact absurd rfl h1
  case cfgHash => exact absurd rfl h2
  all_goals
    simp only [resultOf, resSm3Raw, resSm3Hex, resHashRaw, resHashHex, resHmacRaw, resHmacHex, resVerify,
      resEncRaw, resEncHex, resEncB64, resDecRaw, resDecHex, resDecB64, resHexEnc, resHexDec, resB64Enc,
      resB64Dec, decFinish, res_bind_ok] at h
  case verify => obtain ⟨_, _, _, _, h⟩ := h; exact key h (fun _ => rfl)
  case sm3Raw | sm3Hex | hashRaw | hashHex | hexEnc | b64Enc | encRaw | encHex | encB64 =>
    obtain ⟨_, _, h⟩ := h; exact key h (fun hf => by cases hf)
  case hmacRaw | hmacHex | hexDec | b64Dec | decRaw =>
    obtain ⟨_, _, _, _, h⟩ := h; exact key h (fun hf => by cases hf)
  case decHex | decB64 =>
    obtain ⟨_, _, _, _, _, _, h⟩ := h; exact key h (fun hf => by cases hf)

/-- A successful CFG.CIPHER builds a ready instance and leaves the hash instance. -/
theorem resCfgCipher_ok {s : State} {d : Done} (h : resCfgCipher s = .ok d) :
    ∃ pad iv key, d = doneCipher s (buildCipher s.cfg.mode pad iv key) := by
  unfold resCfgCipher at h
  cases hm : s.cfg.mode
  · simp only [hm, resCfgCipherEcb, res_bind_ok] at h
    obtain ⟨_, _, p, _, k, _, h⟩ := h; cases h; exact ⟨p, _, k, rfl⟩
  · simp only [hm, resCfgCipherCbc, res_bind_ok] at h
    obtain ⟨_, _, _, _, p, _, k, _, iv, _, h⟩ := h; cases h; exact ⟨p, iv, k, rfl⟩

/-- A successful CFG.HASH leaves the cipher instance. -/
theorem resCfgHash_ok {s : State} {d : Done} (h : resCfgHash s = .ok d) :
    ∃ hi, d = doneHash s hi ∧ hi.hmac = s.cfg.hmacEn := by
  unfold resCfgHash at h
  cases hm : s.cfg.hmacEn
  · simp only [hm] at h; cases h; exact ⟨_, rfl, rfl⟩
  · simp only [hm, res_bind_ok] at h
    obtain ⟨k, _, h⟩ := h; cases h; exact ⟨_, rfl, rfl⟩

/-- The output of any success fits OUT (R120), and MATCH stands only beside a one-byte output. -/
theorem resultOf_ok_out {i : Instr} {s : State} {d : Done} (h : resultOf i s = .ok d) :
    d.out.length ≤ s.caps.out.val ∧ (d.matched = true → d.out.length = 1) := by
  by_cases h1 : i = .cfgCipher
  · subst h1; obtain ⟨_, _, _, rfl⟩ := resCfgCipher_ok h; simp [doneCipher]
  · by_cases h2 : i = .cfgHash
    · subst h2; obtain ⟨_, rfl, _⟩ := resCfgHash_ok h; simp [doneHash]
    · obtain ⟨out, m, rfl, hl, hm⟩ := resultOf_ok_plain h h1 h2; exact ⟨hl, hm⟩

/-- Only CFG.CIPHER's success changes the cipher instance (R56). -/
theorem resultOf_ok_cipher {i : Instr} {s : State} {d : Done} (h : resultOf i s = .ok d)
    (h1 : i ≠ .cfgCipher) : d.cipher = s.cipher := by
  by_cases h2 : i = .cfgHash
  · subst h2; obtain ⟨_, rfl, _⟩ := resCfgHash_ok h; rfl
  · obtain ⟨out, m, rfl, _⟩ := resultOf_ok_plain h h1 h2; rfl

/-- Only CFG.HASH's success changes the hash instance (R59). -/
theorem resultOf_ok_hash {i : Instr} {s : State} {d : Done} (h : resultOf i s = .ok d)
    (h1 : i ≠ .cfgHash) : d.hash = s.hash := by
  by_cases h2 : i = .cfgCipher
  · subst h2; obtain ⟨_, _, _, rfl⟩ := resCfgCipher_ok h; rfl
  · obtain ⟨out, m, rfl, _⟩ := resultOf_ok_plain h h2 h1; rfl

end Sys2Proof.Machine
end

