-- ==== Sys2Proof/Laws/Completion.lean ====
section
/-! SUPPORT. From a command's result to how the command ends, in the terms of Safety, and runs of the machine one
step at a time. -/

namespace Sys2Proof.Machine

/-- A readable m0 is what the command fetches. -/
theorem operand0_of_is {s : State} {m : Bytes} (h : OperandIs0 s m) : operand0 s = .ok m := operandAt_ok_iff.2 h

/-- A readable m1 is what the command fetches. -/
theorem operand1_of_is {s : State} {m : Bytes} (h : OperandIs1 s m) : operand1 s = .ok m := operandAt_ok_iff.2 h

theorem operandIs0_length {s : State} {m : Bytes} (h : OperandIs0 s m) : m.length ≤ s.caps.in0.val := by
  rw [readBytes_length h.2]; exact h.1

theorem operandIs1_length {s : State} {m : Bytes} (h : OperandIs1 s m) : m.length ≤ s.caps.in1.val := by
  rw [readBytes_length h.2]; exact h.1

/-- A result is a success. -/
theorem succeedsWith_of_result {i : Instr} {s : State} {out : Bytes} {m : Bool} {c : CipherInst} {h : HashInst}
    (hr : resultOf i s = .ok { out := out, cipher := c, hash := h, matched := m }) : SucceedsWith i s out m c h := by
  refine ⟨sm3Residue s.draws, sm4Residue s.draws, s.draws + 1, ?_⟩
  rw [exec_eq_complete, hr]; rfl

/-- A result that fits OUT is a success with the instances unchanged. -/
theorem succeeds_of_finish {i : Instr} {s : State} {out : Bytes} {m : Bool} (hr : resultOf i s = finish s out m)
    (hl : out.length ≤ s.caps.out.val) : Succeeds i s out m := by
  rw [finish_of_le hl] at hr; exact succeedsWith_of_result hr

/-- A result of at most 64 bytes fits every OUT. -/
theorem succeeds_of_finish_64 {i : Instr} {s : State} {out : Bytes} {m : Bool} (hr : resultOf i s = finish s out m)
    (hl : out.length ≤ 64) : Succeeds i s out m := succeeds_of_finish hr (Nat.le_trans hl s.caps.out.2.1)

/-- A reported error is a failure with its code. -/
theorem failsWith_of_error {i : Instr} {s : State} {e : CmdError} (hr : resultOf i s = .error (.error e)) :
    FailsWith i s (errorCode e) := by
  refine ⟨sm3Residue s.draws, sm4Residue s.draws, s.draws + 1, ?_⟩
  rw [exec_eq_complete, hr]; rfl

/-- A result too long for OUT is reported as CapacityExceeded (R122). -/
theorem failsWith_of_finish {i : Instr} {s : State} {out : Bytes} {m : Bool} (hr : resultOf i s = finish s out m)
    (hl : s.caps.out.val < out.length) : FailsWith i s 9 :=
  failsWith_of_error (e := .capacityExceeded) (hr.trans (finish_of_lt hl))

/-- What `finish` gives, in the terms of Safety: the result, or CapacityExceeded. -/
theorem emits_of_finish {i : Instr} {s : State} {out : Bytes} {m : Bool} (hr : resultOf i s = finish s out m) :
    Emits i s out m := ⟨succeeds_of_finish hr, failsWith_of_finish hr⟩

/-- An unwritten operand byte is the model's fault. -/
theorem faults_of_uninitialized {i : Instr} {s : State} (hr : resultOf i s = .error .uninitialized) :
    exec i s = .fault .uninitializedOperand := by
  rw [exec_eq_complete, hr]; rfl

/-- A run whose first step is known. -/
theorem run_succ_of_step {k : Nat} {s t : State} (h : step s = .next t) :
    Sys2Proof.core.run (k + 1) s = Sys2Proof.core.run k t := by
  simp only [Host.Core.run]
  rw [show Sys2Proof.core.step s = .next t from h]

/-- A run of one step is the step. -/
theorem run_one (s : State) : Sys2Proof.core.run 1 s = step s := by
  simp only [Host.Core.run]
  show _ = Sys2Proof.core.step s
  cases Sys2Proof.core.step s <;> rfl

end Sys2Proof.Machine
end

