-- ==== Sys2Proof/Laws/Lanes.lean ====
section
/-! SUPPORT. The byte lanes of the bus (20_memory.md R86): words to bytes and back, and which buffer an aligned
access of existing bytes falls in. -/

namespace Sys2Proof.Machine

@[simp] theorem leBytes_length (d : Word) (n : Nat) : (leBytes d n).length = n := by
  induction n generalizing d with
  | zero => rfl
  | succ n ih => simp [leBytes, ih]

/-- Byte k of a word in bus order is its data bits 8k+7 to 8k. -/
theorem leBytes_getElem? (d : Word) (n k : Nat) (h : k < n) :
    (leBytes d n)[k]? = some (d.extractLsb' (8 * k) 8) := by
  induction n generalizing d k with
  | zero => omega
  | succ n ih =>
    cases k with
    | zero => rfl
    | succ k =>
      simp only [leBytes, List.getElem?_cons_succ]
      rw [ih _ _ (by omega)]
      congr 1
      apply BitVec.eq_of_getLsbD_eq
      intro j hj
      simp only [BitVec.getLsbD_extractLsb', BitVec.getLsbD_ushiftRight, hj]
      congr 2; omega

/-- The bits of a word put together from the bytes of `d` in bus order. -/
theorem leWord_leBytes_getLsbD (d : Word) (n j : Nat) :
    (leWord (leBytes d n)).getLsbD j = (decide (j < 8 * n) && d.getLsbD j) := by
  induction n generalizing d j with
  | zero => simp [leBytes, leWord]
  | succ n ih =>
    simp only [leBytes, leWord, BitVec.getLsbD_or, BitVec.getLsbD_shiftLeft, BitVec.getLsbD_setWidth,
      BitVec.getLsbD_extractLsb', ih, BitVec.getLsbD_ushiftRight, Nat.zero_add]
    by_cases h8 : j < 8
    · simp [h8, show j < 32 by omega, show j < 8 * (n + 1) by omega]
    · by_cases h32 : j < 32
      · have e : 8 + (j - 8) = j := by omega
        by_cases hn : j < 8 * (n + 1)
        · simp [h8, h32, hn, e, show j - 8 < 8 * n by omega]
        · simp [h8, hn, show ¬ j - 8 < 8 * n by omega]
      · simp [h8, h32, BitVec.getLsbD_of_ge d j (by omega)]

/-- The n low bytes of a word, put together again: the word with its higher bits cleared. -/
theorem leWord_leBytes (d : Word) (n : Nat) :
    leWord (leBytes d n) = d &&& BitVec.ofNat 32 (2 ^ (8 * n) - 1) := by
  apply BitVec.eq_of_getLsbD_eq
  intro j hj
  rw [leWord_leBytes_getLsbD, BitVec.getLsbD_and, BitVec.getLsbD_ofNat, Nat.testBit_two_pow_sub_one, Bool.and_comm]
  simp [hj]

/-- Existing bytes above the registers lie in one buffer. -/
theorem exists_inBuf {c : Capacities} {off : BitVec 18} {size : Size} (h : 0x10000 ≤ off.toNat)
    (ha : off.toNat % sizeBytes size = 0) (hm : ∀ a, Covered off size a → Mapped c a) :
    ∃ b, InBuf c b off.toNat (sizeBytes size) := by
  have hn := sizeBytes_cases size
  have hf := hm off.toNat ⟨Nat.le_refl _, by omega⟩
  have hl := hm (off.toNat + sizeBytes size - 1) ⟨by omega, by omega⟩
  have h0 := c.in0.2
  have h1 := c.in1.2
  simp only [Mapped] at hf hl
  have hd : ∀ x, x = 0x20000 ∨ x = 0x30000 → off.toNat < x → off.toNat + sizeBytes size ≤ x := by
    intro x hx hlt
    rcases hn with e | e | e <;> rw [e] at ha ⊢ <;> omega
  have d0 := hd 0x20000 (.inl rfl)
  have d1 := hd 0x30000 (.inr rfl)
  rcases hf with h' | h' | h' | h'
  · omega
  · exact ⟨.in0, by simp only [InBuf, bufBase, bufCap, in0Base]; omega⟩
  · exact ⟨.in1, by simp only [InBuf, bufBase, bufCap, in1Base]; omega⟩
  · exact ⟨.out, by simp only [InBuf, bufBase, bufCap, outBase]; omega⟩

end Sys2Proof.Machine
end

