-- ==== Sys2Proof/Laws/PerInstr.lean ====
section
/-! SUPPORT. Statements made for every command: the fields of its word (30_encoding.md R110, R112, R115). -/

namespace Sys2Proof.Laws.Encoding

/-- The command's word is legal, its RSV is zero, and its OPC and FMT are the table's (R110, R114, R115). -/
def Statement (i : Instr) : Prop :=
  instrWf i = true ∧ rsvOf (encode i) = 0 ∧ opcOf (encode i) = (opcFmt i).1 ∧ fmtOf (encode i) = (opcFmt i).2

theorem cfgCipher : Statement .cfgCipher := ⟨by decide, by decide, by decide, by decide⟩
theorem cfgHash : Statement .cfgHash := ⟨by decide, by decide, by decide, by decide⟩
theorem sm3Raw : Statement .sm3Raw := ⟨by decide, by decide, by decide, by decide⟩
theorem sm3Hex : Statement .sm3Hex := ⟨by decide, by decide, by decide, by decide⟩
theorem hashRaw : Statement .hashRaw := ⟨by decide, by decide, by decide, by decide⟩
theorem hashHex : Statement .hashHex := ⟨by decide, by decide, by decide, by decide⟩
theorem hmacRaw : Statement .hmacRaw := ⟨by decide, by decide, by decide, by decide⟩
theorem hmacHex : Statement .hmacHex := ⟨by decide, by decide, by decide, by decide⟩
theorem verify : Statement .verify := ⟨by decide, by decide, by decide, by decide⟩
theorem encRaw : Statement .encRaw := ⟨by decide, by decide, by decide, by decide⟩
theorem encHex : Statement .encHex := ⟨by decide, by decide, by decide, by decide⟩
theorem encB64 : Statement .encB64 := ⟨by decide, by decide, by decide, by decide⟩
theorem decRaw : Statement .decRaw := ⟨by decide, by decide, by decide, by decide⟩
theorem decHex : Statement .decHex := ⟨by decide, by decide, by decide, by decide⟩
theorem decB64 : Statement .decB64 := ⟨by decide, by decide, by decide, by decide⟩
theorem hexEnc : Statement .hexEnc := ⟨by decide, by decide, by decide, by decide⟩
theorem hexDec : Statement .hexDec := ⟨by decide, by decide, by decide, by decide⟩
theorem b64Enc : Statement .b64Enc := ⟨by decide, by decide, by decide, by decide⟩
theorem b64Dec : Statement .b64Dec := ⟨by decide, by decide, by decide, by decide⟩

end Sys2Proof.Laws.Encoding
end

