-- ==== Sys2Proof/Machine/HostProgram.lean ====
section
/-! DEFINITION. The command syntax and the host notation of 30_encoding.md R125 to R127, as lists of host
events. The branches of R126 are steps of the host's own program: a list here is one unrolled path. -/

namespace Sys2Proof.Machine

/-- The mnemonic of a command (R125). -/
def mnemonic : Instr → String
  | .cfgCipher => "CFG.CIPHER"
  | .cfgHash => "CFG.HASH"
  | .sm3Raw => "SM3.RAW"
  | .sm3Hex => "SM3.HEX"
  | .hashRaw => "HASH.RAW"
  | .hashHex => "HASH.HEX"
  | .hmacRaw => "HMAC.RAW"
  | .hmacHex => "HMAC.HEX"
  | .verify => "VERIFY"
  | .encRaw => "ENC.RAW"
  | .encHex => "ENC.HEX"
  | .encB64 => "ENC.B64"
  | .decRaw => "DEC.RAW"
  | .decHex => "DEC.HEX"
  | .decB64 => "DEC.B64"
  | .hexEnc => "HEX.ENC"
  | .hexDec => "HEX.DEC"
  | .b64Enc => "B64.ENC"
  | .b64Dec => "B64.DEC"

/-- Every command, in the table's order (R114). -/
def allInstrs : List Instr :=
  [.cfgCipher, .cfgHash, .sm3Raw, .sm3Hex, .hashRaw, .hashHex, .hmacRaw, .hmacHex, .verify,
   .encRaw, .encHex, .encB64, .decRaw, .decHex, .decB64, .hexEnc, .hexDec, .b64Enc, .b64Dec]

/-- The word a mnemonic denotes (R125). -/
def assemble (m : String) : Option Word := (allInstrs.find? (fun i => mnemonic i == m)).map encode

/-- `WR32 off, v` (R126). -/
def wr32 (off : Nat) (v : Word) : HostEvent := .access (.write (BitVec.ofNat 18 off) .b4 v)

/-- `WR16 off, v` (R126). -/
def wr16 (off : Nat) (v : Word) : HostEvent := .access (.write (BitVec.ofNat 18 off) .b2 v)

/-- `WR8 off, v` (R126). -/
def wr8 (off : Nat) (v : Byte) : HostEvent := .access (.write (BitVec.ofNat 18 off) .b1 (v.setWidth 32))

/-- `RD32 off` (R126); the value read is the reply's data. -/
def rd32 (off : Nat) : HostEvent := .access (.read (BitVec.ofNat 18 off) .b4)

/-- `RD8 off` (R126). -/
def rd8 (off : Nat) : HostEvent := .access (.read (BitVec.ofNat 18 off) .b1)

/-- One `WR8` per byte from an offset on (R127). -/
def writeString (off : Nat) : Bytes → List HostEvent
  | [] => []
  | b :: bs => wr8 off b :: writeString (off + 1) bs

/-- `LOAD IN0, s` (R127). -/
def loadIn0 (s : Bytes) : List HostEvent :=
  writeString in0Base s ++ [wr32 (regOffset .len0) (BitVec.ofNat 32 s.length)]

/-- `LOAD IN1, s` (R127). -/
def loadIn1 (s : Bytes) : List HostEvent :=
  writeString in1Base s ++ [wr32 (regOffset .len1) (BitVec.ofNat 32 s.length)]

/-- `WAITDONE` (R127) when the completion falls after the given number of polls. -/
def waitDone (polls : Nat) : List HostEvent :=
  List.replicate polls (rd32 (regOffset .status)) ++ [.engineTurn, rd32 (regOffset .status)]

/-- `RUN <mnemonic>` (R127). -/
def runCommand (i : Instr) (polls : Nat) : List HostEvent :=
  wr32 (regOffset .cmd) (encode i) :: waitDone polls

/-- `CLRDONE` (R127). -/
def clrDone : List HostEvent := [wr32 (regOffset .status) 0x00000002]

/-- `READOUT` (R127) of a result of n bytes. -/
def readOut (n : Nat) : List HostEvent :=
  rd32 (regOffset .outlen) :: (List.range n).map (fun k => rd8 (outBase + k))

/-- `hash(m)` (R127). -/
def hostHash (m : Bytes) : List HostEvent := loadIn0 m ++ runCommand .hashHex 0 ++ readOut 64

/-- `hmac(m, k)` (R127). -/
def hostHmac (m k : Bytes) : List HostEvent := loadIn0 m ++ loadIn1 k ++ runCommand .hmacHex 0 ++ readOut 64

/-- `verify(m, h)` (R127); the result is bit 4 of the last STATUS read. -/
def hostVerify (m h : Bytes) : List HostEvent := loadIn0 m ++ loadIn1 h ++ runCommand .verify 0

/-- `encrypt(p)` and its hex and base64 variants (R127), given by the ENC command. -/
def hostEncrypt (enc : Instr) (p : Bytes) (n : Nat) : List HostEvent :=
  loadIn0 p ++ runCommand enc 0 ++ readOut n

/-- `decrypt(c)` and its hex and base64 variants (R127), given by the DEC command. -/
def hostDecrypt (dec : Instr) (c : Bytes) (n : Nat) : List HostEvent :=
  loadIn0 c ++ runCommand dec 0 ++ readOut n

/-- Build a cipher instance (R127, 70_reset_and_hazards.md R455). -/
def hostBuildCipher (mode : Mode) (pad : Padding) (keyHex ivHex : Bytes) : List HostEvent :=
  wr32 (regOffset .cfg) (cfgWord { mode := mode, pad := padCode pad, hmacEn := false })
    :: loadIn0 keyHex ++ loadIn1 ivHex ++ runCommand .cfgCipher 0

/-- Build a hash instance (R127, 70_reset_and_hazards.md R456). -/
def hostBuildHash (hmacEn : Bool) (key : Bytes) : List HostEvent :=
  wr32 (regOffset .cfg) (cfgWord { mode := .ecb, pad := 0, hmacEn := hmacEn })
    :: loadIn0 key ++ runCommand .cfgHash 0

end Sys2Proof.Machine
end

