-- ==== Sys2Proof/Tests/Slice0.lean ====
section
/-! SUPPORT. The model's own tests, their expected results taken from spec/95_test_vectors.md, and for every
statement of Certificates/Slice0/Obligations.lean that has hypotheses a witness that meets them. -/

namespace Sys2Proof.Tests

open Sys2Proof.Machine

set_option Elab.async false

/-! Helpers. -/

/-- ASCII text as bytes. -/
def ascii (s : String) : Bytes := s.toList.map (fun c => BitVec.ofNat 8 c.toNat)

/-- n bytes written as one number, first byte most significant. -/
def bytesOf : (n : Nat) → Nat → Bytes
  | 0, _ => []
  | n + 1, v => BitVec.ofNat 8 (v / 256 ^ n) :: bytesOf n v

/-- Reset, with m0 and m1 loaded. -/
def loaded (m0 m1 : Bytes) : State :=
  { State.reset with
    mem := writeBytes (writeBytes [] in0Base m0) in1Base m1
    len0 := BitVec.ofNat 32 m0.length
    len1 := BitVec.ofNat 32 m1.length }

/-- The standard key of the spec's vectors. -/
def kstd : Bytes := bytesOf 16 0x0123456789abcdeffedcba9876543210

/-- The instance of the standard key with IV 00 01 … 0f. -/
def kstdInst (m : Mode) (p : Padding) : CipherInst := buildCipher m p (bytesOf 16 0x000102030405060708090a0b0c0d0e0f) kstd

/-- m0 loaded and the instance of the standard key built. -/
def ciphered (m : Mode) (p : Padding) (m0 : Bytes) : State := { loaded m0 [] with cipher := kstdInst m p }

/-- A cheap ready instance: every round key zero. -/
def zeroInst (p : Padding) : CipherInst :=
  { ready := true, mode := .ecb, pad := p, iv := Vector.replicate 16 0, rk := Vector.replicate 32 0 }

/-- STATUS as read and OUT[0..OUTLEN) after a command, if it gives a next state. -/
def outcome (i : Instr) (s : State) : Option (Word × Option Bytes) :=
  match exec i s with
  | .next t => some (readReg t .status, readBytes t.mem outBase t.outlen.toNat)
  | _ => none

/-- A next state that passes a test. -/
def nextSat (o : Host.Outcome State Fault Refusal) (p : State → Bool) : Bool :=
  match o with
  | .next t => p t
  | _ => false

theorem exists_of_nextSat {o : Host.Outcome State Fault Refusal} {p : State → Bool} (h : nextSat o p = true) :
    ∃ t, o = .next t ∧ p t = true := by
  cases o with
  | next t => exact ⟨t, rfl, h⟩
  | fault r => cases h
  | refused r => cases h

/-! WellFormed: an ill-formed term for each check (30_encoding.md R115). -/

theorem test_wf_accepts : CommandFields.wf { opc := 0x20, fmt := 2, rsv := 0 } = true := by decide
theorem test_wf_reserved : CommandFields.wf { opc := 0x10, fmt := 0, rsv := 1 } = false := by decide
theorem test_wf_opcode : CommandFields.wf { opc := 0x03, fmt := 0, rsv := 0 } = false := by decide
theorem test_wf_format : CommandFields.wf { opc := 0x10, fmt := 2, rsv := 0 } = false := by decide
theorem test_rsvZero_refuses : CommandFields.rsvZero { opc := 0x13, fmt := 0, rsv := 0x200000 } = false := by decide
theorem test_opcAssigned_refuses : CommandFields.opcAssigned { opc := 0x14, fmt := 0, rsv := 0 } = false := by decide
theorem test_fmtLegal_refuses : CommandFields.fmtLegal { opc := 0x13, fmt := 1, rsv := 0 } = false := by decide

/-! Decode: every command's word written out bit by bit from the table of 30_encoding.md R114. -/

theorem test_decode_cfgCipher : decode 0b00000000000000000000000000000001#32 = .ok .cfgCipher := by decide
theorem test_decode_cfgHash : decode 0b00000000000000000000000000000010#32 = .ok .cfgHash := by decide
theorem test_decode_sm3Raw : decode 0b00000000000000000000000000010000#32 = .ok .sm3Raw := by decide
theorem test_decode_sm3Hex : decode 0b00000000000000000000000100010000#32 = .ok .sm3Hex := by decide
theorem test_decode_hashRaw : decode 0b00000000000000000000000000010001#32 = .ok .hashRaw := by decide
theorem test_decode_hashHex : decode 0b00000000000000000000000100010001#32 = .ok .hashHex := by decide
theorem test_decode_hmacRaw : decode 0b00000000000000000000000000010010#32 = .ok .hmacRaw := by decide
theorem test_decode_hmacHex : decode 0b00000000000000000000000100010010#32 = .ok .hmacHex := by decide
theorem test_decode_verify : decode 0b00000000000000000000000000010011#32 = .ok .verify := by decide
theorem test_decode_encRaw : decode 0b00000000000000000000000000100000#32 = .ok .encRaw := by decide
theorem test_decode_encHex : decode 0b00000000000000000000000100100000#32 = .ok .encHex := by decide
theorem test_decode_encB64 : decode 0b00000000000000000000001000100000#32 = .ok .encB64 := by decide
theorem test_decode_decRaw : decode 0b00000000000000000000000000100001#32 = .ok .decRaw := by decide
theorem test_decode_decHex : decode 0b00000000000000000000000100100001#32 = .ok .decHex := by decide
theorem test_decode_decB64 : decode 0b00000000000000000000001000100001#32 = .ok .decB64 := by decide
theorem test_decode_hexEnc : decode 0b00000000000000000000000000110000#32 = .ok .hexEnc := by decide
theorem test_decode_hexDec : decode 0b00000000000000000000000000110001#32 = .ok .hexDec := by decide
theorem test_decode_b64Enc : decode 0b00000000000000000000000000110010#32 = .ok .b64Enc := by decide
theorem test_decode_b64Dec : decode 0b00000000000000000000000000110011#32 = .ok .b64Dec := by decide

/-- V-CMD-1: the illegal words of the spec's list. -/
theorem test_decode_illegal :
    ([0x00000000, 0x00000003, 0x00000210, 0x00000320, 0x00000101, 0x00000410, 0x80000013, 0x00000233] : List Word).all
      (fun w => !wordLegal w && (match decode w with | .ok _ => false | .error _ => true)) = true := by decide

theorem test_decodeTableWord : decodeTableWord 32 0x00000220 = some .encB64 := by decide

/-! Commands: at most two vectors each (95_test_vectors.md). -/

/-- V-SM4-2: the instance of "0123…3210" under CFG = 0x4 has INST 0x00000009; V-SM4-1: rk[31]. -/
theorem test_cfgCipher_ecb :
    nextSat (exec .cfgCipher { loaded (ascii "0123456789ABCDEFFEDCBA9876543210") [] with cfg := cfgOfWord 4 })
      (fun t => readReg t .inst == 9 && readReg t .status == 2 && t.cipher.rk[31] == 0x9124a012 &&
        t.cipher.iv == Vector.replicate 16 0) = true := by decide +kernel

/-- V-CFG-7: InvalidConfig precedes InvalidKeyLength and InvalidIVLength. -/
theorem test_cfgCipher_error :
    outcome .cfgCipher { loaded (ascii "00") [] with cfg := cfgOfWord 7 } = some (0x806, some []) := by decide +kernel

/-- V-HASH-2: INST 0x10 and HK0 "secret" padded with zeros. -/
theorem test_cfgHash_on :
    nextSat (exec .cfgHash { loaded (ascii "secret") [] with cfg := cfgOfWord 8 })
      (fun t => readReg t .inst == 0x10 && t.hash.hk0.toList == ascii "secret" ++ List.replicate 58 0) = true := by
  decide +kernel

/-- V-CFG-11: with HMAC_EN = 0 the operand is not read. -/
theorem test_cfgHash_off :
    outcome .cfgHash { State.reset with len0 := 4097 } = some (2, some []) := by decide +kernel

/-- V-SM3-2. -/
theorem test_sm3Raw_abc :
    outcome .sm3Raw (loaded (ascii "abc") []) =
      some (2, some (bytesOf 32 0x66c7f0f462eeedd9d1f2d46bdc10e4e24167c4875cf2f7a2297da02b8f4ba8e0)) := by
  decide +kernel

/-- V-SM3-6: LEN0 above capacity. -/
theorem test_sm3Hex_capacity : outcome .sm3Hex { State.reset with len0 := 4097 } = some (0x906, some []) := by
  decide +kernel

/-- V-SM3-1. -/
theorem test_sm3Hex_empty :
    outcome .sm3Hex State.reset =
      some (2, some (ascii "1ab21d8355cfa17f8e61194831e81a8f22bec8c728fefb747ed035eb5082aa2b")) := by decide +kernel

/-- V-SM3-4: two blocks. -/
theorem test_hashRaw_blocks :
    outcome .hashRaw (loaded ((List.replicate 16 (ascii "abcd")).flatten) []) =
      some (2, some (bytesOf 32 0xdebe9ff92275b8a138604889c18e5a4d6fdb70e5387e5765293dcba39c0c5732)) := by
  decide +kernel

/-- V-HMAC-7 through the hash instance. -/
theorem test_hashHex_keyed :
    outcome .hashHex { loaded (ascii "abc") [] with hash := buildHmac (ascii "secret") } =
      some (2, some (ascii "96042a28529e7a438af81eece5b293e0699f481fd372c08c5ac01b8dc4b81856")) := by decide +kernel

/-- V-HMAC-5: a key longer than 64 bytes. -/
theorem test_hmacRaw_long_key :
    outcome .hmacRaw (loaded (ascii "abc") (List.replicate 65 0x6b)) =
      some (2, some (bytesOf 32 0x658228fe546af0045d7b5f69a7e5d64706ac9ec7f3967e39b932cc5230137d74)) := by
  decide +kernel

/-- V-HMAC-2. -/
theorem test_hmacHex_key :
    outcome .hmacHex (loaded (ascii "abc") (ascii "key")) =
      some (2, some (ascii "28e63256e7c5a087b1f073265dc53092163f7b82729735d06f28f10af9d52393")) := by decide +kernel

/-- V-VER-3: mixed case matches, STATUS 0x12. -/
theorem test_verify_match :
    outcome .verify (loaded (ascii "abc") (ascii "66C7f0F462eeedd9d1f2d46bdc10e4e24167c4875cf2f7a2297da02b8f4ba8E0")) =
      some (0x12, some [1]) := by decide +kernel

/-- V-VER-5: 63 characters do not match, and no error. -/
theorem test_verify_short :
    outcome .verify (loaded (ascii "abc") (ascii "66c7f0f462eeedd9d1f2d46bdc10e4e24167c4875cf2f7a2297da02b8f4ba8e")) =
      some (2, some [0]) := by decide +kernel

/-- V-SM4-3 and L1-3. -/
theorem test_encRaw_block :
    outcome .encRaw (ciphered .ecb .noPad kstd) = some (2, some (bytesOf 16 0x681edf34d206965e86b3e94f536e4246)) := by
  decide +kernel

/-- V-MODE-2: one byte under no padding. -/
theorem test_encRaw_unaligned : outcome .encRaw (ciphered .cbc .noPad [0x41]) = some (0x306, some []) := by
  decide +kernel

/-- V-MODE-1: CBC, pkcs7, 17 bytes. -/
theorem test_encHex_cbc :
    outcome .encHex (ciphered .cbc .pkcs7 (ascii "ABCDEFGHIJKLMNOPQ")) =
      some (2, some (ascii "fcccbc199df68a58f4153c9aaff26199e5dab875c4800ba36dba2a0cd73c9423")) := by decide +kernel

/-- L1-3. -/
theorem test_encB64_block :
    outcome .encB64 (ciphered .ecb .noPad kstd) = some (2, some (ascii "aB7fNNIGll6Gs+lPU25CRg==")) := by decide +kernel

/-- V-MODE-1: the round trip of 17 bytes under CBC and pkcs7. -/
theorem test_decRaw_cbc :
    outcome .decRaw (ciphered .cbc .pkcs7 (bytesOf 32 0xfcccbc199df68a58f4153c9aaff26199e5dab875c4800ba36dba2a0cd73c9423)) =
      some (2, some (ascii "ABCDEFGHIJKLMNOPQ")) := by decide +kernel

/-- V-MODE-9: bad padding. -/
theorem test_decRaw_padding :
    outcome .decRaw (ciphered .ecb .pkcs7 (bytesOf 16 0x9b89c43821157e5fda5765858cc6942d)) = some (0x406, some []) := by
  decide +kernel

/-- V-MODE-5f. -/
theorem test_decHex_upper :
    outcome .decHex (ciphered .ecb .noPad (ascii "681EDF34D206965E86B3E94F536E4246")) = some (2, some kstd) := by
  decide +kernel

/-- V-MODE-5k: NotConfigured precedes InvalidEncoding. -/
theorem test_decHex_not_configured : outcome .decHex (loaded (ascii "zz") []) = some (0x706, some []) := by
  decide +kernel

/-- V-MODE-5i. -/
theorem test_decB64_block :
    outcome .decB64 (ciphered .ecb .noPad (ascii "aB7fNNIGll6Gs+lPU25CRg==")) = some (2, some kstd) := by decide +kernel

/-- V-MODE-5j. -/
theorem test_decB64_unpadded :
    outcome .decB64 (ciphered .ecb .noPad (ascii "aB7fNNIGll6Gs+lPU25CRg")) = some (0x506, some []) := by decide +kernel

/-- V-ENC-1. -/
theorem test_hexEnc_bytes : outcome .hexEnc (loaded [0x00, 0xff, 0x10] []) = some (2, some (ascii "00ff10")) := by
  decide +kernel

/-- V-ENC-2: upper case accepted. -/
theorem test_hexDec_upper : outcome .hexDec (loaded (ascii "00FF") []) = some (2, some [0x00, 0xff]) := by
  decide +kernel

/-- V-ENC-2: not a hex digit. -/
theorem test_hexDec_bad : outcome .hexDec (loaded (ascii "0x12") []) = some (0x506, some []) := by decide +kernel

/-- V-ENC-1. -/
theorem test_b64Enc_two : outcome .b64Enc (loaded (ascii "fooba") []) = some (2, some (ascii "Zm9vYmE=")) := by
  decide +kernel

/-- V-ENC-3. -/
theorem test_b64Dec_two : outcome .b64Dec (loaded (ascii "Zm9vYmE=") []) = some (2, some (ascii "fooba")) := by
  decide +kernel

/-- V-ENC-3: the malformed texts. -/
theorem test_b64Dec_malformed :
    ["Zg", "Zh==", "Zm9=", "Z===", "Zm 9", "Zm9v!A==", "====", "Zg=a"].all
      (fun t => unb64 (ascii t) == none) = true := by decide +kernel

/-! Buffer capacities (00_scope.md R9, 30_encoding.md R122): the failing case of V-ENC-4, a result
longer than CAP_OUT, at the smallest sizes. -/

/-- Every buffer of the smallest size R9 allows. -/
def smallCaps : Capacities := { in0 := ⟨64, by decide⟩, in1 := ⟨64, by decide⟩, out := ⟨64, by decide⟩ }

/-- An IN0 wider than OUT. -/
def wideIn0 : Capacities := { smallCaps with in0 := ⟨80, by decide⟩ }

/-- Every buffer of the largest size R9 allows. -/
def largeCaps : Capacities := { in0 := ⟨65536, by decide⟩, in1 := ⟨65536, by decide⟩, out := ⟨65536, by decide⟩ }

/-- Thirty-two bytes give 64 hex characters, the last size that fits, and 33 give CapacityExceeded. -/
theorem test_hexEnc_overflow :
    outcome .hexEnc { loaded (List.replicate 32 0x61) [] with caps := smallCaps } =
        some (2, some ((List.replicate 32 (ascii "61")).flatten)) ∧
      outcome .hexEnc { loaded (List.replicate 33 0x61) [] with caps := smallCaps } = some (0x906, some []) := by
  decide +kernel

/-- A full IN0 of 64 bytes under pkcs7 is 80 bytes of ciphertext: too many for an OUT of 64. -/
theorem test_encRaw_overflow :
    outcome .encRaw { ciphered .ecb .pkcs7 (List.replicate 64 0x61) with caps := smallCaps } = some (0x906, some []) := by
  decide +kernel

/-- The last byte of each buffer and the first unmapped one, at both ends of R9's range. -/
theorem test_locate_capacities :
    (locate smallCaps 0x1003F#18 .b1 = some (.buf .in0 63) ∧ locate smallCaps 0x10040#18 .b1 = none) ∧
    (locate smallCaps 0x3003C#18 .b4 = some (.buf .out 60) ∧ locate smallCaps 0x30040#18 .b4 = none) ∧
    (locate largeCaps 0x1FFFF#18 .b1 = some (.buf .in0 65535) ∧ locate largeCaps 0x20000#18 .b1 = some (.buf .in1 0)) ∧
    locate largeCaps 0x3FFFC#18 .b4 = some (.buf .out 65532) := by decide +kernel

/-! The bus, reset and the flags (V-BUS-1, V-SM3-2, V-RST-1). -/

/-- `WR16 IN1+2, 0xBEEF` stores ef then be. -/
theorem test_bus_lanes :
    (serveAccess State.reset (.write 0x20002 .b2 0xBEEF)).mem = [(0x20002, 0xef), (0x20003, 0xbe)] := by decide +kernel

/-- After SM3.RAW of "abc" a 4-byte read of OUT+0 gives 0xF4F0C766. -/
theorem test_bus_out_word :
    nextSat (exec .sm3Raw (loaded (ascii "abc") []))
      (fun t => (serveAccess t (.read 0x30000 .b4)).replies == [{ resp := .okay, data := some 0xF4F0C766 }]) = true := by
  decide +kernel

/-- A byte read of STATUS is an ERROR access. -/
theorem test_bus_register_byte :
    (serveAccess State.reset (.read 0x00008 .b1)).replies = [{ resp := .error, data := some 0 }] := by decide +kernel

/-- CFG written with ones reads 0x0000000F. -/
theorem test_bus_cfg : readReg (serveAccess State.reset (.write 0x0000C .b4 0xFFFFFFFF)) .cfg = 0xF := by decide +kernel

/-- A write of LEN0 while busy is dropped and sets WERR: STATUS reads 0x00000009. -/
theorem test_bus_busy_write :
    let t := serveAccess (accept State.reset 0x10) (.write 0x00010 .b4 3)
    readReg t .len0 = 0 ∧ readReg t .status = 9 := by decide +kernel

/-- `rst` clears the registers and keeps IN0. -/
theorem test_reset_keeps_buffers :
    nextSat (step { loaded (ascii "hello") [] with host := [.rst true], cipher := zeroInst .noPad, doneIe := true })
      (fun t => readReg t .inst == 0 && readReg t .len0 == 0 && readReg t .irqen == 0 &&
        readBytes t.mem in0Base 5 == some (ascii "hello")) = true := by decide +kernel

/-- P1: SM3 of "abc" as hex, polled once while busy. -/
theorem test_assemble : assemble "SM3.HEX" = some 0x00000110 := by decide +kernel

/-! A command accepted from reset runs as the next step, whatever the table word. -/

theorem test_withFetchWord :
    ([0x001, 0x002, 0x010, 0x110, 0x011, 0x111, 0x012, 0x112, 0x013] ++
      [0x020, 0x120, 0x220, 0x021, 0x121, 0x221, 0x030, 0x031, 0x032, 0x033] : List Nat).all
        (fun w => nextSat (step (State.reset.withFetchWord 32 w)) (fun t => t.status.done)) = true := by decide +kernel

/-! Witnesses: for each statement with hypotheses, a state and operands that meet them all. -/

theorem operand0_loaded_abc : OperandIs0 (loaded (ascii "abc") []) (ascii "abc") := by
  decide +kernel

theorem witness_DecodeInvertsEncode : ∀ i : Instr, instrWf i = true := by intro i; cases i <;> decide

theorem witness_StepRunsLatchedCommand :
    (accept State.reset 0x10).status.busy = true ∧ decode (accept State.reset 0x10).cmdl = .ok .sm3Raw ∧
      (accept State.reset 0x10).host = [] ∧
      (State.reset.withFetchWord 32 0x33).host = .engineTurn :: [] ∧
      (State.reset.withFetchWord 32 0x33).status.busy = true ∧
      decode (State.reset.withFetchWord 32 0x33).cmdl = .ok .b64Dec := by decide +kernel

theorem witness_IllegalCommandCompletes :
    (accept State.reset 3).status.busy = true ∧ decode (accept State.reset 3).cmdl = .error .unassignedOpcode ∧
      (accept State.reset 3).host = [] ∧ (State.reset.withFetchWord 32 3).host = .engineTurn :: [] ∧
      (State.reset.withFetchWord 32 3).status.busy = true := by decide +kernel

theorem witness_CommandAcceptance : State.reset.status.busy = false := by decide

theorem witness_StatusWriteOneToClear :
    State.reset.status.busy = false ∧ (accept State.reset 0x10).status.busy = true := by decide +kernel

theorem witness_ConfigurationRegistersStore : State.reset.status.busy = false := by decide

theorem witness_BusWordIsByteReversed : State.reset.status.busy = false := by decide

theorem witness_StepServesEventsInOrder :
    let a : Access := .write 0x00010 .b4 3
    let s : State := { State.reset with host := [.access a] }
    let t : State := { State.reset with host := [.engineTurn] }
    (s.inReset = false ∧ s.host = .access a :: []) ∧ (t.status.busy = false ∧ t.host = .engineTurn :: []) ∧
      (State.reset.status.busy = false ∧ State.reset.host = []) := by decide +kernel

/-- A misaligned access, a register access of two bytes, and one that covers an unmapped byte. -/
theorem witness_ErrorAccessesChangeNothing_bad :
    (0x00002#18).toNat % sizeBytes .b4 ≠ 0 ∧ ((0x00020#18).toNat < 0x24 ∧ Size.b2 ≠ .b4) ∧
      (Covered 0x00024#18 .b4 0x24 ∧ ¬ Mapped Config.defaultCaps 0x24) ∧ (Covered 0x11000#18 .b1 0x11000 ∧ ¬ Mapped Config.defaultCaps 0x11000) ∧
      (Covered 0x20100#18 .b1 0x20100 ∧ ¬ Mapped Config.defaultCaps 0x20100) ∧ (Covered 0x32020#18 .b1 0x32020 ∧ ¬ Mapped Config.defaultCaps 0x32020) := by
  decide +kernel

theorem covered_of_size1 {off : BitVec 18} {a : Nat} (h : Covered off .b1 a) : a = off.toNat := by
  simp only [Covered, sizeBytes] at h; omega

theorem covered_of_size4 {off : BitVec 18} {a : Nat} (h : Covered off .b4 a) :
    a = off.toNat ∨ a = off.toNat + 1 ∨ a = off.toNat + 2 ∨ a = off.toNat + 3 := by
  simp only [Covered, sizeBytes] at h; omega

/-- The last register, and the last byte of OUT. -/
theorem witness_ErrorAccessesChangeNothing_good :
    (¬ ((0x00020#18).toNat % sizeBytes .b4 ≠ 0 ∨ ((0x00020#18).toNat < 0x24 ∧ Size.b4 ≠ .b4) ∨
      ∃ a, Covered 0x00020#18 .b4 a ∧ ¬ Mapped Config.defaultCaps a)) ∧
    (¬ ((0x3201F#18).toNat % sizeBytes .b1 ≠ 0 ∨ ((0x3201F#18).toNat < 0x24 ∧ Size.b1 ≠ .b4) ∨
      ∃ a, Covered 0x3201F#18 .b1 a ∧ ¬ Mapped Config.defaultCaps a)) := by
  refine ⟨?_, ?_⟩
  · rintro (h | h | ⟨a, h, hm⟩)
    · revert h; decide
    · exact h.2 rfl
    · rcases covered_of_size4 h with rfl | rfl | rfl | rfl <;> revert hm <;> decide
  · rintro (h | h | ⟨a, h, hm⟩)
    · revert h; decide
    · revert h; decide
    · obtain rfl := covered_of_size1 h; revert hm; decide

/-- The read-only registers, and the first and the last byte of OUT. -/
theorem witness_ReadOnlyWritesIgnored :
    (Size.b4 = .b4 ∧ (0x00000#18 = 0x00000 ∨ (0x00000#18 : BitVec 18) = 0x00018 ∨ (0x00000#18 : BitVec 18) = 0x0001C)) ∧
    (Size.b4 = .b4 ∧ (0x0001C#18 = 0x00000 ∨ (0x0001C#18 : BitVec 18) = 0x00018 ∨ (0x0001C#18 : BitVec 18) = 0x0001C)) ∧
    ((0x30000#18).toNat % sizeBytes .b4 = 0 ∧ outBase ≤ (0x30000#18).toNat ∧
      (0x30000#18).toNat + sizeBytes .b4 ≤ outBase + Config.defaultCaps.out.val) ∧
    ((0x3201F#18).toNat % sizeBytes .b1 = 0 ∧ outBase ≤ (0x3201F#18).toNat ∧
      (0x3201F#18).toNat + sizeBytes .b1 ≤ outBase + Config.defaultCaps.out.val) := by decide

/-- While busy: a write of LEN0, and one of the last byte of IN0. -/
theorem witness_WritesWhileBusyAreDropped :
    let s := accept State.reset 0x10
    s.status.busy = true ∧
    ((0x00010#18).toNat % sizeBytes .b4 = 0 ∧ ((0x00010#18).toNat < 0x24 → Size.b4 = .b4) ∧
      ∀ a, Covered 0x00010#18 .b4 a → Mapped Config.defaultCaps a) ∧
    ((0x10FFF#18).toNat % sizeBytes .b1 = 0 ∧ ((0x10FFF#18).toNat < 0x24 → Size.b1 = .b4) ∧
      ∀ a, Covered 0x10FFF#18 .b1 a → Mapped Config.defaultCaps a) := by
  refine ⟨by decide +kernel, ⟨by decide, by decide, fun a h => ?_⟩, ⟨by decide, by decide, fun a h => ?_⟩⟩
  · rcases covered_of_size4 h with rfl | rfl | rfl | rfl <;> decide
  · obtain rfl := covered_of_size1 h; decide

/-- The first word of IN0, the last byte of IN0 and the last word of IN1. -/
theorem witness_BufferWriteReadsBack :
    State.reset.status.busy = false ∧
    ((0x10000#18).toNat % sizeBytes .b4 = 0 ∧ 0x10000 ≤ (0x10000#18).toNat ∧ (0x10000#18).toNat < 0x30000 ∧
      ∀ a, Covered 0x10000#18 .b4 a → Mapped Config.defaultCaps a) ∧
    ((0x10FFF#18).toNat % sizeBytes .b1 = 0 ∧ 0x10000 ≤ (0x10FFF#18).toNat ∧ (0x10FFF#18).toNat < 0x30000 ∧
      ∀ a, Covered 0x10FFF#18 .b1 a → Mapped Config.defaultCaps a) ∧
    ((0x200FC#18).toNat % sizeBytes .b4 = 0 ∧ 0x10000 ≤ (0x200FC#18).toNat ∧ (0x200FC#18).toNat < 0x30000 ∧
      ∀ a, Covered 0x200FC#18 .b4 a → Mapped Config.defaultCaps a) := by
  refine ⟨by decide, ⟨by decide, by decide, by decide, fun a h => ?_⟩,
    ⟨by decide, by decide, by decide, fun a h => ?_⟩, ⟨by decide, by decide, by decide, fun a h => ?_⟩⟩
  · rcases covered_of_size4 h with rfl | rfl | rfl | rfl <;> decide
  · obtain rfl := covered_of_size1 h; decide
  · rcases covered_of_size4 h with rfl | rfl | rfl | rfl <;> decide

/-- A state whose result is the byte 0x01 with MATCH, as VERIFY leaves it. -/
def matchedState : State :=
  { State.reset with
    outlen := 1
    mem := [(outBase, 0x01)]
    status := { busy := false, done := true, err := false, werr := false, matched := true, errCode := 0 } }

/-- A read of a byte below OUTLEN, and one of no OUT byte. -/
theorem witness_ReadsHaveNoSideEffects :
    (∀ a, Covered 0x30000#18 .b1 a → outBase ≤ a →
      matchedState.status.busy = false ∧ a - outBase < matchedState.outlen.toNat ∧
        (readByte matchedState.mem a).isSome = true) ∧
    (∀ a, Covered 0x00008#18 .b4 a → outBase ≤ a →
      State.reset.status.busy = false ∧ a - outBase < State.reset.outlen.toNat ∧
        (readByte State.reset.mem a).isSome = true) := by
  refine ⟨fun a h _ => ?_, fun a h h2 => ?_⟩
  · obtain rfl := covered_of_size1 h; decide
  · rcases covered_of_size4 h with rfl | rfl | rfl | rfl <;> exact absurd h2 (by decide)

/-- The last byte of OUT; a byte below OUTLEN, one at OUTLEN and one while busy; a success and a failure. -/
theorem witness_HostReadsTheResult :
    ((0x3201F#18).toNat % sizeBytes .b1 = 0 ∧ outBase ≤ (0x3201F#18).toNat ∧
      (0x3201F#18).toNat + sizeBytes .b1 ≤ outBase + Config.defaultCaps.out.val) ∧
    ((0x30000#18).toNat % sizeBytes .b4 = 0 ∧ outBase ≤ (0x30000#18).toNat ∧
      (0x30000#18).toNat + sizeBytes .b4 ≤ outBase + matchedState.caps.out.val) ∧
    (matchedState.status.busy = false ∧ (0x30000#18).toNat - outBase + 0 < matchedState.outlen.toNat ∧
      readByte matchedState.mem ((0x30000#18).toNat + 0) = some 0x01 ∧
      matchedState.outlen.toNat ≤ (0x30000#18).toNat - outBase + 1) ∧
    (accept State.reset 0x10).status.busy = true ∧
    (∃ t, exec .hexEnc (loaded [0xAB] []) = .next t ∧ (!t.status.err && decide (0 < t.outlen.toNat)) = true) ∧
    ∃ t, exec .encRaw (loaded [0xAB] []) = .next t ∧ t.status.err = true :=
  ⟨by decide, by decide, by decide, by decide +kernel, exists_of_nextSat (by decide +kernel),
    exists_of_nextSat (by decide +kernel)⟩

theorem witness_ResetInput :
    let s : State := { accept State.reset 0x10 with host := [.rst true] }
    let t : State := { State.reset with host := [.rst false], inReset := true }
    let u : State := { State.reset with host := [.access (.read 0x00000 .b4)], inReset := true }
    s.host = .rst true :: [] ∧ t.host = .rst false :: [] ∧
      (u.inReset = true ∧ u.host = .access (.read 0x00000 .b4) :: []) := by decide +kernel

theorem witness_InterruptFollowsDone :
    (∃ t, exec .hexEnc State.reset = .next t ∧ t.status.done = true) ∧ State.reset.status.busy = false :=
  ⟨exists_of_nextSat (by decide +kernel), by decide⟩

theorem inv_matchedState : Inv matchedState where
  memWf := by decide
  memMapped := by decide
  outBacked := by decide
  outlenCap := by decide
  busyClear := by decide
  errIff := by decide
  errRange := by decide
  errEmpty := by decide
  matchOne := by decide
  resetIdle := by decide
  unconfigured := by decide

theorem inv_accepted : Inv (accept (loaded (ascii "abc") []) 0x10) where
  memWf := by decide +kernel
  memMapped := by decide +kernel
  outBacked := fun h => absurd h (by decide +kernel)
  outlenCap := by decide +kernel
  busyClear := by decide +kernel
  errIff := by decide +kernel
  errRange := by decide +kernel
  errEmpty := by decide +kernel
  matchOne := by decide +kernel
  resetIdle := by decide +kernel
  unconfigured := by decide +kernel

/-- An idle state with a result, and a state with a command in flight whose completion succeeds. -/
theorem witness_InvariantKeptByEveryStep :
    (Inv matchedState ∧ ∃ t, step matchedState = .next t ∧ t.status.matched = true) ∧
    (Inv (accept (loaded (ascii "abc") []) 0x10) ∧
      ∃ t, step (accept (loaded (ascii "abc") []) 0x10) = .next t ∧ (t.outlen == 32) = true) :=
  ⟨⟨inv_matchedState, exists_of_nextSat (by decide +kernel)⟩,
    ⟨inv_accepted, exists_of_nextSat (by decide +kernel)⟩⟩

/-- A CFG.CIPHER and a CFG.HASH that change their instance. -/
theorem witness_InstancesWrittenOnlyByConstruction :
    (∃ t, step (accept (loaded (ascii "0123456789abcdeffedcba9876543210") []) 1) = .next t ∧
      decide (t.cipher ≠ State.reset.cipher) = true) ∧
    (∃ t, step (accept { loaded (ascii "secret") [] with cfg := cfgOfWord 8 } 2) = .next t ∧
      decide (t.hash ≠ State.reset.hash) = true) ∧
    (∀ rest, (accept (loaded (ascii "secret") []) 2).host ≠ .rst true :: rest) :=
  ⟨exists_of_nextSat (by decide +kernel), exists_of_nextSat (by decide +kernel), by intro rest h; cases h⟩

theorem witness_InputBuffersWrittenOnlyByTheHost :
    0x10000 < outBase ∧
    ∃ t, step { State.reset with host := [.access (.write 0x10000 .b1 0x61)] } = .next t ∧
      decide (readByte t.mem 0x10000 ≠ readByte State.reset.mem 0x10000) = true :=
  ⟨by decide, exists_of_nextSat (by decide +kernel)⟩

theorem witness_HiddenStateIsUnreadable :
    SameVisible State.reset
      { State.reset with
        cmdl := 5
        cipher := { State.reset.cipher with rk := Vector.replicate 32 1 }
        hash := { State.reset.hash with hk0 := Vector.replicate 64 1 } } := rfl

/-- A command in flight with a poll still to arrive: readable, and with an unwritten operand byte. -/
theorem witness_AcceptedCommandCompletes :
    let s : State := { accept (loaded (ascii "abc") []) 0x10 with host := [rd32 8, wr32 0x10 7] }
    s.status.busy = true ∧ s.inReset = false ∧ ∀ e ∈ s.host, ∃ a, e = .access a := by
  refine ⟨by decide +kernel, by decide +kernel, fun e h => ?_⟩
  rcases List.mem_cons.1 h with rfl | h
  · exact ⟨_, rfl⟩
  · rcases List.mem_cons.1 h with rfl | h
    · exact ⟨_, rfl⟩
    · cases h

theorem witness_CompletionFrame :
    ∀ i, ∃ t, exec i State.reset = .next t ∧ (!t.status.busy) = true := by
  intro i
  cases i <;> exact exists_of_nextSat (by decide +kernel)

/-- Two states that differ in OUT and in the flags: with a next state, and with a fault. -/
theorem witness_ResultDependsOnOperandsAlone :
    SameOperands State.reset matchedState ∧ (∃ t, exec .sm3Raw State.reset = .next t ∧ (!t.status.err) = true) ∧
    SameOperands { State.reset with len0 := 1 } { matchedState with len0 := 1 } ∧
    exec .sm3Raw { State.reset with len0 := 1 } = .fault .uninitializedOperand := by
  refine ⟨⟨rfl, rfl, rfl, rfl, rfl, rfl, fun k h => ?_, fun k h => ?_⟩, exists_of_nextSat (by decide +kernel),
    ⟨rfl, rfl, rfl, rfl, rfl, rfl, fun k h => ?_, fun k h => ?_⟩, rfl⟩
  all_goals
    first | change k < 4096 at h | change k < 256 at h
    simp only [State.reset, matchedState, readByte, in0Base, in1Base, outBase]
    rw [if_neg (by omega)]

/-- LEN0 just above CAP_IN0, and LEN1 just above CAP_IN1 with m0 readable. -/
theorem witness_OperandCapacityErrors :
    Config.defaultCaps.in0.val < ({ State.reset with len0 := 4097, cfg := cfgOfWord 8 } : State).len0.toNat ∧
      ({ State.reset with len0 := 4097, cfg := cfgOfWord 8 } : State).cfg.hmacEn = true ∧
      (cfgOfWord 1).mode = .cbc ∧ OperandIs0 { State.reset with len1 := 257 } [] ∧
      Config.defaultCaps.in1.val < ({ State.reset with len1 := 257 } : State).len1.toNat := by
  decide

theorem witness_UnwrittenOperandFaults :
    (({ State.reset with len0 := 4096 } : State).len0.toNat ≤ Config.defaultCaps.in0.val ∧
      4095 < ({ State.reset with len0 := 4096 } : State).len0.toNat ∧
      readByte ({ State.reset with len0 := 4096 } : State).mem (in0Base + 4095) = none) ∧
    (OperandIs0 { State.reset with len1 := 256 } [] ∧
      ({ State.reset with len1 := 256 } : State).len1.toNat ≤ Config.defaultCaps.in1.val ∧
      255 < ({ State.reset with len1 := 256 } : State).len1.toNat ∧
      readByte ({ State.reset with len1 := 256 } : State).mem (in1Base + 255) = none) := by
  decide

theorem witness_NotConfiguredErrors :
    (OperandIs0 (loaded (ascii "abc") []) (ascii "abc") ∧ (loaded (ascii "abc") []).cipher.ready = false ∧
      Instr.decB64 ∈ ([.encRaw, .encHex, .encB64, .decRaw, .decHex, .decB64] : List Instr)) ∧
    Instr.hexDec ∉ ([.encRaw, .encHex, .encB64, .decRaw, .decHex, .decB64] : List Instr) ∧
    ∃ t, exec .hexDec (loaded (ascii "abc") []) = .next t ∧ t.status.err = true :=
  ⟨⟨operand0_loaded_abc, by decide +kernel, by decide⟩, by decide, exists_of_nextSat (by decide +kernel)⟩

/-- A readable operand beside a ready instance. -/
theorem operand0_with_cipher {m : Bytes} {c : CipherInst} (h : OperandIs0 (loaded m []) m) :
    OperandIs0 { loaded m [] with cipher := c } m := h

/-- m0 of one byte under no padding; a hex text of one byte; a base64 text of one byte. -/
theorem witness_BlockAlignmentErrors :
    (OperandIs0 { loaded [0x41] [] with cipher := zeroInst .noPad } [0x41] ∧ (zeroInst .noPad).ready = true ∧
      (zeroInst .noPad).pad = .noPad ∧ ([0x41] : Bytes).length % 16 ≠ 0) ∧
    (OperandIs0 { loaded (ascii "41") [] with cipher := zeroInst .noPad } (ascii "41") ∧
      unhex (ascii "41") = some [0x41]) ∧
    (OperandIs0 { loaded (ascii "QQ==") [] with cipher := zeroInst .noPad } (ascii "QQ==") ∧
      unb64 (ascii "QQ==") = some [0x41]) := by
  decide +kernel

/-- A ciphertext of one whole padding block (n = 16), raw and as the text of DEC.HEX and DEC.B64, one of a padding of
n = 1, the empty ciphertext, and a plaintext of 79 bytes that an OUT of 64 does not hold. -/
theorem witness_Pkcs7RemovalRule :
    let c := zeroInst .pkcs7
    let t16 := sm4Enc c.rk.toList (List.replicate 16 0x10)
    let t1 := sm4Enc c.rk.toList (List.replicate 15 0x41 ++ [0x01])
    let t79 := sm4Enc c.rk.toList (List.replicate 15 0x41 ++ [0x01])
    let b79 := (List.replicate 5 t79).flatten
    (OperandIs0 { loaded t16 [] with cipher := c } t16 ∧ c.ready = true ∧ c.pad = .pkcs7 ∧ t16.length % 16 = 0 ∧
      (decBlocks c (cipherBlocks t16)).flatten = [] ++ List.replicate 16 (BitVec.ofNat 8 16)) ∧
    (OperandIs0 { loaded t1 [] with cipher := c } t1 ∧ t1.length % 16 = 0 ∧
      (decBlocks c (cipherBlocks t1)).flatten = List.replicate 15 0x41 ++ List.replicate 1 (BitVec.ofNat 8 1)) ∧
    (OperandIs0 { loaded [] [] with cipher := c } [] ∧ (decBlocks c (cipherBlocks [])).flatten = []) ∧
    (OperandIs0 { loaded (hex t16) [] with cipher := c } (hex t16) ∧ unhex (hex t16) = some t16) ∧
    (OperandIs0 { loaded (b64 t16) [] with cipher := c } (b64 t16) ∧ unb64 (b64 t16) = some t16) ∧
    (OperandIs0 { loaded b79 [] with cipher := c, caps := wideIn0 } b79 ∧ b79.length % 16 = 0 ∧
      (decBlocks c (cipherBlocks b79)).flatten.getLast? = some 0x01 ∧ wideIn0.out.val < 79) := by
  decide +kernel

/-- The three readings of a ciphertext. -/
theorem witness_CiphertextIs (t c : Bytes) (h : unhex t = some c) (h' : unb64 t = some c) :
    CiphertextIs .decRaw c c ∧ CiphertextIs .decHex t c ∧ CiphertextIs .decB64 t c :=
  ⟨.inl ⟨rfl, rfl⟩, .inr (.inl ⟨rfl, h⟩), .inr (.inr ⟨rfl, h'⟩)⟩

/-- An empty string is no padded string, so the last clause of Pkcs7RemovalRule applies to it. -/
theorem witness_Pkcs7RemovalRule_error :
    ∀ (p : Bytes) (n : Nat), 1 ≤ n → n ≤ 16 → ([] : Bytes) ≠ p ++ List.replicate n (BitVec.ofNat 8 n) := by
  intro p n h1 _ h
  have := congrArg List.length h
  simp at this
  omega

theorem witness_EncodingErrors :
    OperandIs0 { loaded (ascii "abc") [] with cipher := zeroInst .zero } (ascii "abc") ∧
      unhex (ascii "abc") = none ∧ unb64 (ascii "abc") = none ∧ (zeroInst .zero).ready = true := by
  decide +kernel

theorem witness_Sm3CommandsComplete :
    OperandIs0 (loaded (ascii "abc") []) (ascii "abc") ∧
    Config.defaultCaps.in0.val < ({ State.reset with len0 := 4097 } : State).len0.toNat ∧
    ∃ t, exec .sm3Raw { State.reset with len0 := 4097 } = .next t ∧ t.status.err = true :=
  ⟨operand0_loaded_abc, by decide, exists_of_nextSat (by decide +kernel)⟩

theorem witness_HashCommandsComplete :
    OperandIs0 (loaded (ascii "abc") []) (ascii "abc") ∧ (loaded (ascii "abc") []).hash.hmac = false ∧
    OperandIs0 { loaded (ascii "abc") [] with hash := buildHmac [] } (ascii "abc") ∧ (buildHmac []).hmac = true :=
  ⟨operand0_loaded_abc, by decide +kernel, operand0_loaded_abc, by decide +kernel⟩

theorem witness_Sm3ExpansionRecurrence : (List.replicate 64 0x61 : Bytes).length = 64 := by decide +kernel

theorem witness_Sm3CompressionRounds : (List.replicate 64 0x61 : Bytes).length = 64 := by decide +kernel

theorem witness_Sm3BlocksInOrder :
    (List.replicate 128 0x61 : Bytes).length % 64 = 0 ∧ (List.replicate 64 0x62 : Bytes).length = 64 := by
  decide +kernel

theorem witness_HmacCommandsComplete :
    OperandIs0 (loaded (ascii "abc") (ascii "key")) (ascii "abc") ∧
    OperandIs1 (loaded (ascii "abc") (ascii "key")) (ascii "key") := by
  decide +kernel

/-- A candidate that matches, and one that does not. -/
theorem witness_VerifyCompletes :
    let good := ascii "66C7F0F462EEEDD9D1F2D46BDC10E4E24167C4875CF2F7A2297DA02B8F4BA8E0"
    (OperandIs0 (loaded (ascii "abc") good) (ascii "abc") ∧ OperandIs1 (loaded (ascii "abc") good) good ∧
      lower good = lower (hex (hashSurface (loaded (ascii "abc") good).hash (ascii "abc")))) ∧
    (OperandIs1 (loaded (ascii "abc") []) [] ∧
      lower [] ≠ lower (hex (hashSurface (loaded (ascii "abc") []).hash (ascii "abc")))) := by
  decide +kernel

theorem witness_VerifyIsCaseInsensitive : (List.replicate 63 0x61 : Bytes).length ≠ 64 := by decide

/-- Two keys with one K0; keys of 63, 64 and 65 bytes. -/
theorem witness_HmacKeyEquivalence :
    (List.replicate 64 0x6b : Bytes).length = 64 ∧
    hmacK0 (ascii "key" ++ [0x00]) = hmacK0 (ascii "key") ∧ (List.replicate 63 0x6b : Bytes).length < 64 ∧
    64 < (List.replicate 65 0x6b : Bytes).length := by decide +kernel

theorem witness_Sm4BlockInverse : kstd.length = 16 := by decide +kernel

theorem witness_Sm4ScheduleRecurrence : kstd.length = 16 := by decide +kernel

theorem witness_Sm4RoundRecurrence : kstd.length = 16 ∧ (sm4Schedule kstd).length = 32 := by decide +kernel

/-- A string function that fails has no result. -/
theorem ne_ok {x : Except CmdError Bytes} {e : CmdError} (h : x = .error e) : ∀ r, x ≠ .ok r :=
  fun r h' => by cases h.symm.trans h'

/-- Whole blocks and other lengths under no padding; strings that pkcs7 removal refuses (empty, n = 0, n = 17) and takes
(n = 1, n = 16); zeros stripped across a block boundary. -/
theorem witness_PaddingRules :
    (List.replicate 16 0x41 : Bytes).length % 16 = 0 ∧ (List.replicate 15 0x41 : Bytes).length % 16 ≠ 0 ∧
    (∀ r, unpadBytes .pkcs7 [] ≠ .ok r) ∧ (∀ r, unpadBytes .pkcs7 (List.replicate 16 0x00) ≠ .ok r) ∧
    (∀ r, unpadBytes .pkcs7 (List.replicate 32 0x11) ≠ .ok r) ∧
    unpadBytes .pkcs7 [0x41, 0x01] = .ok [0x41] ∧ unpadBytes .pkcs7 (List.replicate 16 0x10) = .ok [] ∧
    unpadBytes .zero (0x41 :: List.replicate 31 0x00) = .ok [0x41] :=
  ⟨by decide, by decide, ne_ok (e := .invalidPaddingBytes) (by decide +kernel),
    ne_ok (e := .invalidPaddingBytes) (by decide +kernel), ne_ok (e := .invalidPaddingBytes) (by decide +kernel),
    by decide +kernel, by decide +kernel, by decide +kernel⟩

/-- A string function that does not fail has a result. -/
theorem exists_ok {x : Except CmdError Bytes} (h : x.toOption.isSome = true) : ∃ q, x = .ok q := by
  cases x with
  | ok q => exact ⟨q, rfl⟩
  | error e => cases h

/-- Zero padding of a text that does not end in 0x00 and of one that does. -/
theorem witness_DecryptInvertsEncrypt :
    ((∃ q, encrypt (zeroInst .zero) [0x41] = .ok q) ∧
      ((zeroInst .zero).pad = .zero → ([0x41] : Bytes).getLast? ≠ some 0x00)) ∧
    ((∃ q, encrypt (zeroInst .zero) [0x41, 0x00] = .ok q) ∧ (zeroInst .zero).pad = .zero ∧
      ([0x41, 0x00] : Bytes).getLast? = some 0x00) :=
  ⟨⟨exists_ok (by decide +kernel), by decide⟩, exists_ok (by decide +kernel), by decide, by decide⟩

/-- Two equal blocks. -/
theorem witness_EcbEqualBlocks :
    let p : Bytes := List.replicate 32 0x41
    (zeroInst .noPad).mode = .ecb ∧ padBytes (zeroInst .noPad).pad p = .ok p ∧
      (∃ q, encrypt (zeroInst .noPad) p = .ok q) ∧
      0 < p.length / 16 ∧ 1 < p.length / 16 ∧ (p.drop (16 * 0)).take 16 = (p.drop (16 * 1)).take 16 := by
  refine ⟨by decide, rfl, exists_ok (by decide +kernel), ?_⟩
  decide +kernel

/-- A CBC instance, and a plaintext of two blocks. -/
theorem witness_CbcChaining :
    let c : CipherInst := { zeroInst .noPad with mode := .cbc }
    let p : Bytes := List.replicate 32 0x41
    c.mode = .cbc ∧ padBytes c.pad p = .ok p ∧ (∃ q, encrypt c p = .ok q) ∧ 0 < p.length / 16 ∧ 1 < p.length / 16 := by
  refine ⟨by decide, rfl, exists_ok (by decide +kernel), ?_⟩
  decide +kernel

/-- The same under two IVs. -/
theorem witness_CbcDistinctIvs :
    let c : CipherInst := { zeroInst .noPad with mode := .cbc }
    let p : Bytes := List.replicate 32 0x41
    c.mode = .cbc ∧ (Vector.replicate 16 1 : Vector Byte 16) ≠ c.iv ∧ padBytes c.pad p = .ok p ∧
      (∃ q, encrypt c p = .ok q) ∧ (∃ q', encrypt { c with iv := Vector.replicate 16 1 } p = .ok q') ∧
      1 < p.length / 16 := by
  refine ⟨by decide, by decide +kernel, rfl, exists_ok (by decide +kernel), exists_ok (by decide +kernel), ?_⟩
  decide +kernel

/-- A block at the default sizes, where every result fits; and a full IN0 of 64 bytes, whose 80 bytes of ciphertext and
whose texts do not fit an OUT of 64. -/
theorem witness_EncCommandsComplete :
    let p : Bytes := List.replicate 16 0x41
    let s : State := { loaded p [] with cipher := zeroInst .noPad }
    let p' : Bytes := List.replicate 64 0x41
    let s' : State := { loaded p' [] with cipher := zeroInst .pkcs7, caps := smallCaps }
    (s.cipher.ready = true ∧ OperandIs0 s p ∧ (s.cipher.pad = .noPad → p.length % 16 = 0) ∧
      2 * (s.caps.in0.val + 16) ≤ s.caps.out.val) ∧
    (s'.cipher.ready = true ∧ OperandIs0 s' p' ∧ (s'.cipher.pad = .noPad → p'.length % 16 = 0) ∧
      s'.caps.out.val < 80) := by
  decide +kernel

/-- Decryptable operands: raw, hex text and base64 text of one block; and a plaintext of 80 bytes that an OUT of 64 does
not hold. -/
theorem witness_DecCommandsComplete :
    let c := zeroInst .noPad
    let b : Bytes := List.replicate 16 0x00
    (OperandIs0 { loaded b [] with cipher := c } b ∧ decrypt c b = .ok (decBlocks c [b]).flatten) ∧
    (OperandIs0 { loaded (hex b) [] with cipher := c } (hex b) ∧ unhex (hex b) = some b) ∧
    (OperandIs0 { loaded (b64 b) [] with cipher := c } (b64 b) ∧ unb64 (b64 b) = some b) ∧ c.ready = true ∧
    smallCaps.in0.val ≤ smallCaps.out.val ∧
    (OperandIs0 { loaded (List.replicate 80 0x00) [] with cipher := c, caps := wideIn0 } (List.replicate 80 0x00) ∧
      (decrypt c (List.replicate 80 0x00)).toOption.map List.length = some 80 ∧ wideIn0.out.val < 80) := by
  decide +kernel

/-- A text of both cases, the digits at the ends of each range, and a text of even length with no digit. -/
theorem witness_EncodersAreLossless :
    hex [0x0f, 0xf0] = lower (ascii "0fF0") ∧ unhex (ascii "0fF0") = some [0x0f, 0xf0] ∧
    unhex (ascii "09afAF") = some [0x09, 0xaf, 0xaf] ∧ unhex (ascii "/:") = none ∧ unhex (ascii "@G") = none := by
  decide +kernel

theorem witness_EncoderCommandsComplete :
    (OperandIs0 (loaded (ascii "00FF") []) (ascii "00FF") ∧ unhex (ascii "00FF") = some [0x00, 0xff]) ∧
    unb64 (ascii "00FF") = some [0xd3, 0x41, 0x45] ∧
    (OperandIs0 { loaded (List.replicate 33 0x61) [] with caps := smallCaps } (List.replicate 33 0x61) ∧
      smallCaps.out.val < (hex (List.replicate 33 0x61)).length) ∧
    smallCaps.in0.val ≤ smallCaps.out.val := by
  decide +kernel

/-- The standard key's text; in CBC with an IV text; each padding code. -/
theorem witness_CfgCipherCompletes :
    let kt := ascii "0123456789abcdeffedcba9876543210"
    let it := ascii "000102030405060708090a0b0c0d0e0f"
    let s : State := { loaded kt it with cfg := cfgOfWord 0 }
    let u : State := { loaded kt it with cfg := cfgOfWord 5 }
    (OperandIs0 s kt ∧ unhex kt = some kstd ∧ kstd.length = 16 ∧ s.cfg.pad = 0b00 ∧ s.cfg.mode = .ecb) ∧
    (OperandIs0 u kt ∧ u.cfg.pad = 0b10 ∧ u.cfg.mode = .cbc ∧ OperandIs1 u it ∧
      unhex it = some (bytesOf 16 0x000102030405060708090a0b0c0d0e0f)) ∧
    (cfgOfWord 2).pad = 0b01 := by
  decide +kernel

/-- PAD = 11; a key text that is no text; in CBC an IV text of 15 bytes. -/
theorem witness_CfgCipherErrors :
    let kt := ascii "0123456789abcdeffedcba9876543210"
    let it := ascii "000102030405060708090a0b0c0d0e"
    let s : State := { loaded kt [] with cfg := cfgOfWord 6 }
    let u : State := loaded (ascii "zz") []
    let v : State := { loaded kt it with cfg := cfgOfWord 1 }
    (OperandIs0 s kt ∧ s.cfg.mode = .ecb ∧ s.cfg.pad = 0b11) ∧
    (OperandIs0 u (ascii "zz") ∧ u.cfg.pad ≠ 0b11 ∧ unhex (ascii "zz") = none) ∧
    (OperandIs0 v kt ∧ v.cfg.pad ≠ 0b11 ∧ v.cfg.mode = .cbc ∧ OperandIs1 v it ∧
      unhex it = some (bytesOf 15 0x000102030405060708090a0b0c0d0e)) := by
  decide +kernel

theorem witness_CfgHashCompletes :
    let s : State := { loaded (ascii "secret") [] with cfg := cfgOfWord 8 }
    (s.cfg.hmacEn = true ∧ OperandIs0 s (ascii "secret")) ∧ State.reset.cfg.hmacEn = false := by
  decide +kernel

end Sys2Proof.Tests
end

section
/-! SUPPORT. Each named operation keeps the invariant of a run and the buffer capacities (00_scope.md R9), and so
does every step. -/

namespace Sys2Proof.Machine

/-- The invariant speaks of the memory, the capacities, STATUS, OUTLEN, `rst` and the cipher registers alone. -/
theorem inv_congr {s t : State} (h : Inv s) (hmem : t.mem = s.mem) (hcaps : t.caps = s.caps)
    (hstatus : t.status = s.status) (houtlen : t.outlen = s.outlen) (hreset : t.inReset = s.inReset)
    (hcipher : t.cipher = s.cipher) : Inv t := by
  cases s; cases t
  dsimp only at hmem hcaps hstatus houtlen hreset hcipher
  subst hmem hcaps hstatus houtlen hreset hcipher
  exact { h with }

/-! ## STATUS and acceptance -/

/-- A change of DONE and WERR that keeps DONE clear while busy keeps the invariant. -/
theorem inv_setDoneWerr {s : State} (h : Inv s) (done werr : Bool) (hd : s.status.busy = true → done = false) :
    Inv { s with status := { s.status with done := done, werr := werr } } :=
  { h with
    busyClear := fun hb => ⟨hd hb, (h.busyClear hb).2⟩ }

/-- Acceptance (R36) keeps the invariant, since it happens only with `rst` released. -/
theorem inv_accept {s : State} (h : Inv s) (w : Word) (hr : s.inReset = false) : Inv (accept s w) where
  memWf := h.memWf
  memMapped := h.memMapped
  outBacked := by simp
  outlenCap := by simp
  busyClear := by simp
  errIff := by simp
  errRange := by simp
  errEmpty := by simp
  matchOne := by simp
  resetIdle := by simp [hr]
  unconfigured := h.unconfigured

/-! ## Completion and reset -/

/-- Every code of R410 is 1 to 9. -/
theorem errorCode_range (e : CmdError) : errorCode e ≠ 0#4 ∧ (errorCode e).toNat ≤ 9 := by
  cases e <;> decide

/-- A failing completion (R37, R412) keeps the invariant. -/
theorem inv_completeErr {s : State} (h : Inv s) (e : CmdError) : Inv (completeErr s e) where
  memWf := h.memWf
  memMapped := h.memMapped
  outBacked := by simp
  outlenCap := by simp
  busyClear := by simp
  errIff := by simp [(errorCode_range e).1]
  errRange := by simpa using (errorCode_range e).2
  errEmpty := by simp
  matchOne := by simp
  resetIdle := by simp
  unconfigured := h.unconfigured

/-- OUTLEN holds the length of any string that fits OUT (R9 bounds CAP_OUT). -/
theorem outlen_toNat_of_le {c : Capacities} {n : Nat} (hn : n ≤ c.out.val) : (BitVec.ofNat 32 n).toNat = n := by
  have hcap := c.out.2
  rw [BitVec.toNat_ofNat, Nat.mod_eq_of_lt (by omega)]

/-- A successful completion (R37) keeps the invariant: its output fits OUT, MATCH stands beside one byte, and a
cipher that is not ready reads as after reset. -/
theorem inv_completeOk {s : State} {d : Done} (h : Inv s) (hfit : d.out.length ≤ s.caps.out.val)
    (hmatch : d.matched = true → d.out.length = 1)
    (hcipher : d.cipher.ready = false → d.cipher.mode = .ecb ∧ d.cipher.pad = .pkcs7) : Inv (completeOk s d) where
  memWf := writeBytes_wf _ _ h.memWf
  memMapped := by
    intro c hc
    rcases writeBytes_mem hc with hold | ⟨hlo, hhi⟩
    · exact h.memMapped c hold
    · exact .inr (.inr ⟨hlo, Nat.lt_of_lt_of_le hhi (Nat.add_le_add_left hfit _)⟩)
  outBacked := by
    intro _ k hk
    rw [completeOk_outlen, outlen_toNat_of_le hfit] at hk
    simp [readByte_writeBytes, hk]
  outlenCap := by simpa [outlen_toNat_of_le hfit] using hfit
  busyClear := by simp
  errIff := by simp
  errRange := by simp
  errEmpty := by simp
  matchOne := fun hm => by simp [hmatch hm]
  resetIdle := by simp
  unconfigured := hcipher

/-- Asserting `rst` (R450 to R452) keeps the invariant: the registers are those of reset. -/
theorem inv_applyReset {s : State} (h : Inv s) : Inv (applyReset s) where
  memWf := h.memWf
  memMapped := h.memMapped
  outBacked := by simp [State.reset]
  outlenCap := by simp [State.reset]
  busyClear := by simp [State.reset]
  errIff := by simp [State.reset]
  errRange := by simp [State.reset]
  errEmpty := by simp [State.reset]
  matchOne := by simp [State.reset]
  resetIdle := by simp [State.reset]
  unconfigured := by simp [State.reset]

/-- Releasing `rst` keeps the invariant: only a held `rst` demands anything. -/
theorem inv_releaseReset {s : State} (h : Inv s) : Inv { s with inReset := false } :=
  { h with resetIdle := fun hr => nomatch hr }

/-! ## Host writes -/

/-- A write of existing bytes below OUT keeps the invariant: the result in OUT stands. -/
theorem inv_writeInput {s : State} (h : Inv s) {a : Nat} {bs : Bytes}
    (hmapped : ∀ x, a ≤ x → x < a + bs.length → BufferOffset s.caps x) (hbelow : a + bs.length ≤ outBase) :
    Inv { s with mem := writeBytes s.mem a bs } :=
  { h with
    memWf := writeBytes_wf _ _ h.memWf
    memMapped := by
      intro c hc
      rcases writeBytes_mem hc with hold | ⟨hlo, hhi⟩
      · exact h.memMapped c hold
      · exact hmapped c.1 hlo hhi
    outBacked := by
      intro hb k hk
      rw [readByte_writeBytes, if_neg (by omega)]
      exact h.outBacked hb k hk }

/-- A register write while idle keeps the invariant. -/
theorem inv_writeReg {s : State} (h : Inv s) (d : Word) (r : Reg) (hb : s.status.busy = false)
    (hr : s.inReset = false) : Inv (writeReg s d r) := by
  cases r
  case cmd => exact inv_accept h d hr
  case status => exact inv_setDoneWerr h _ _ (by simp [hb])
  case id | outlen | inst => exact h
  case cfg | len0 | len1 | irqen => exact inv_congr h rfl rfl rfl rfl rfl rfl

/-- A legal write while idle keeps the invariant. -/
theorem inv_writeLoc {s : State} (h : Inv s) {off : BitVec 18} {size : Size} (d : Word) {l : Loc}
    (hl : locate s.caps off size = some l) (hb : s.status.busy = false) (hr : s.inReset = false) :
    Inv (writeLoc s size d l) := by
  have hcap0 := s.caps.in0.2
  have hcap1 := s.caps.in1.2
  match l with
  | .reg r => exact inv_writeReg h d r hb hr
  | .buf .in0 k =>
    have hk : k + sizeBytes size ≤ s.caps.in0.val := (locate_buf hl).2.1
    refine inv_writeInput h (fun x hlo hhi => .inl ?_) ?_ <;>
      simp only [leBytes_length, in0Base, outBase] at * <;> omega
  | .buf .in1 k =>
    have hk : k + sizeBytes size ≤ s.caps.in1.val := (locate_buf hl).2.1
    refine inv_writeInput h (fun x hlo hhi => .inr (.inl ?_)) ?_ <;>
      simp only [leBytes_length, in1Base, outBase] at * <;> omega
  | .buf .out _ => exact h

/-- An access served with `rst` released keeps the invariant. -/
theorem inv_serveAccess {s : State} (h : Inv s) (a : Access) (hr : s.inReset = false) : Inv (serveAccess s a) := by
  cases a with
  | read off size =>
    obtain ⟨r, n, hread⟩ := busRead_eq s off size
    rw [serveAccess, hread]
    exact inv_congr h rfl rfl rfl rfl rfl rfl
  | write off size d =>
    rw [serveAccess]
    rcases busWrite_cases s off size d with ⟨_, hw⟩ | ⟨_, _, _, hw⟩ | ⟨l, hl, hb, hw⟩ <;> rw [hw]
    · exact inv_congr h rfl rfl rfl rfl rfl rfl
    · have hwerr : Inv { s with status := statusWerr s.status } :=
        inv_setDoneWerr h s.status.done true (fun hb => (h.busyClear hb).1)
      exact inv_congr hwerr rfl rfl rfl rfl rfl rfl
    · exact inv_congr (inv_writeLoc h d hl hb hr) rfl rfl rfl rfl rfl rfl

@[simp] theorem writeReg_caps (s : State) (d : Word) (r : Reg) : (writeReg s d r).caps = s.caps := by
  cases r <;> rfl

@[simp] theorem writeLoc_caps (s : State) (size : Size) (d : Word) (l : Loc) :
    (writeLoc s size d l).caps = s.caps := by
  match l with
  | .reg r => exact writeReg_caps s d r
  | .buf .in0 _ | .buf .in1 _ | .buf .out _ => rfl

@[simp] theorem serveAccess_caps (s : State) (a : Access) : (serveAccess s a).caps = s.caps := by
  cases a with
  | read off size =>
    obtain ⟨r, n, hread⟩ := busRead_eq s off size
    rw [serveAccess, hread]
  | write off size d =>
    rw [serveAccess]
    rcases busWrite_cases s off size d with ⟨_, hw⟩ | ⟨_, _, _, hw⟩ | ⟨l, _, _, hw⟩ <;> rw [hw]
    exact writeLoc_caps s size d l

/-! ## Commands and steps -/

/-- The cipher a successful command leaves is a ready one or the one before (R56). -/
theorem resultOf_ok_ready_or_same {i : Instr} {s : State} {d : Done} (h : resultOf i s = .ok d) :
    d.cipher.ready = true ∨ d.cipher = s.cipher := by
  by_cases hi : i = .cfgCipher
  · subst hi
    obtain ⟨_, _, _, rfl⟩ := resCfgCipher_ok h
    exact .inl rfl
  · exact .inr (resultOf_ok_cipher h hi)

/-- A completed command keeps the invariant. -/
theorem inv_exec {i : Instr} {s t : State} (hi : Inv s) (h : exec i s = .next t) : Inv t := by
  rcases exec_next_cases h with ⟨d, hd, rfl⟩ | ⟨e, _, rfl⟩
  · obtain ⟨hfit, hmatch⟩ := resultOf_ok_out hd
    refine inv_completeOk hi hfit hmatch (fun hnot => ?_)
    rcases resultOf_ok_ready_or_same hd with hready | hsame
    · rw [hready] at hnot; cases hnot
    · rw [hsame] at hnot ⊢; exact hi.unconfigured hnot
  · exact inv_completeErr hi e

theorem exec_caps {i : Instr} {s t : State} (h : exec i s = .next t) : t.caps = s.caps := by
  rcases exec_next_cases h with ⟨d, _, rfl⟩ | ⟨e, _, rfl⟩ <;> rfl

/-- The engine's turn keeps the invariant. -/
theorem inv_engineStep {s t : State} (hi : Inv s) (h : engineStep s = .next t) : Inv t := by
  rcases engineStep_next_cases h with ⟨_, rfl⟩ | ⟨_, i, _, he⟩ | ⟨_, _, rfl⟩
  · exact hi
  · exact inv_exec hi he
  · exact inv_completeErr hi .illegalCommand

theorem engineStep_caps {s t : State} (h : engineStep s = .next t) : t.caps = s.caps := by
  rcases engineStep_next_cases h with ⟨_, rfl⟩ | ⟨_, i, _, he⟩ | ⟨_, _, rfl⟩
  · rfl
  · exact exec_caps he
  · rfl

/-- Taking an event off the list of those to come keeps the invariant. -/
theorem inv_setHost {s : State} (h : Inv s) (es : List HostEvent) : Inv { s with host := es } :=
  inv_congr h rfl rfl rfl rfl rfl rfl

/-- Every step of either agent keeps the invariant. -/
theorem inv_step {s t : State} (hi : Inv s) (h : step s = .next t) : Inv t := by
  rcases step_next_cases h with ⟨_, ⟨_, rfl⟩ | ⟨rest, _, rfl⟩, he⟩ | ⟨a, rest, _, hr, rfl⟩ | ⟨rest, _, rfl⟩ |
    ⟨rest, _, rfl⟩
  · exact inv_engineStep hi he
  · exact inv_engineStep (inv_setHost hi rest) he
  · exact inv_serveAccess (inv_setHost hi rest) a hr
  · exact inv_applyReset (inv_setHost hi rest)
  · exact inv_releaseReset (inv_setHost hi rest)

/-- No step changes the capacities. -/
theorem step_caps {s t : State} (h : step s = .next t) : t.caps = s.caps := by
  rcases step_next_cases h with ⟨_, ⟨_, rfl⟩ | ⟨rest, _, rfl⟩, he⟩ | ⟨a, rest, _, _, rfl⟩ | ⟨rest, _, rfl⟩ |
    ⟨rest, _, rfl⟩
  · exact engineStep_caps he
  · rw [engineStep_caps he]
  · exact serveAccess_caps _ a
  · rfl
  · rfl

/-- Settles O23, from what each kind of step (`step_next_cases`) does to the invariant and to the capacities. -/
theorem invariantKeptByEveryStep : Obligations.InvariantKeptByEveryStep :=
  fun _ _ hi h => ⟨inv_step hi h, step_caps h⟩

end Sys2Proof.Machine
end

section
/-! SUPPORT. A stop at an operand's fetch is the stop of every command that reads the operand (30_encoding.md
R121, 60_exceptions.md R415), and the capacity errors that follow from it (R411). -/

namespace Sys2Proof.Machine

theorem operand0_of_lt {s : State} (h : s.caps.in0.val < s.len0.toNat) :
    operand0 s = .error (.error .capacityExceeded) := by
  rw [operand0, operandAt_eq, if_pos h]

theorem operand1_of_lt {s : State} (h : s.caps.in1.val < s.len1.toNat) :
    operand1 s = .error (.error .capacityExceeded) := by
  rw [operand1, operandAt_eq, if_pos h]

/-- CFG.CIPHER fetches m0 first, in either mode. -/
theorem resCfgCipher_of_operand0_error {s : State} {e : Stop} (h : operand0 s = .error e) :
    resCfgCipher s = .error e := by
  unfold resCfgCipher
  split
  · simp [resCfgCipherEcb, h]
  · simp [resCfgCipherCbc, h]

/-- CFG.HASH fetches m0 first, with HMAC_EN = 1. -/
theorem resCfgHash_of_operand0_error {s : State} {e : Stop} (hen : s.cfg.hmacEn = true)
    (h : operand0 s = .error e) : resCfgHash s = .error e := by
  simp [resCfgHash, hen, h]

/-- Every command but CFG.HASH fetches m0 before anything else can stop it: the first check of R415. -/
theorem resultOf_of_operand0_error {i : Instr} {s : State} {e : Stop} (hi : i ≠ .cfgHash)
    (h : operand0 s = .error e) : resultOf i s = .error e := by
  cases i
  case cfgHash => exact absurd rfl hi
  case cfgCipher => exact resCfgCipher_of_operand0_error h
  case sm3Raw | sm3Hex => simp [resultOf, resSm3Raw, resSm3Hex, h]
  case hashRaw | hashHex => simp [resultOf, resHashRaw, resHashHex, h]
  case hmacRaw | hmacHex => simp [resultOf, resHmacRaw, resHmacHex, h]
  case verify => simp [resultOf, resVerify, h]
  case encRaw | encHex | encB64 => simp [resultOf, resEncRaw, resEncHex, resEncB64, encCommon, h]
  case decRaw | decHex | decB64 => simp [resultOf, resDecRaw, resDecHex, resDecB64, decOperand, h]
  case hexEnc | hexDec => simp [resultOf, resHexEnc, resHexDec, h]
  case b64Enc | b64Dec => simp [resultOf, resB64Enc, resB64Dec, h]

/-- The commands that read m1 whatever CFG says fetch it right after m0. -/
theorem resultOf_of_operand1_error {i : Instr} {s : State} {m : Bytes} {e : Stop}
    (hi : i = .hmacRaw ∨ i = .hmacHex ∨ i = .verify) (h0 : operand0 s = .ok m) (h1 : operand1 s = .error e) :
    resultOf i s = .error e := by
  rcases hi with rfl | rfl | rfl
  · simp [resultOf, resHmacRaw, h0, h1]
  · simp [resultOf, resHmacHex, h0, h1]
  · simp [resultOf, resVerify, h0, h1]

/-- CFG.CIPHER fetches m1 right after m0, with MODE = CBC. -/
theorem resCfgCipher_of_operand1_error {s : State} {m : Bytes} {e : Stop} (hmode : s.cfg.mode = .cbc)
    (h0 : operand0 s = .ok m) (h1 : operand1 s = .error e) : resCfgCipher s = .error e := by
  simp [resCfgCipher, hmode, resCfgCipherCbc, h0, h1]

/-- Settles O30: a fetch past its buffer is the command's result. -/
theorem operandCapacityErrors : Obligations.OperandCapacityErrors := by
  intro s
  refine ⟨fun hlen => ?_, fun m hm hlen => ?_⟩
  · have h0 := operand0_of_lt hlen
    exact ⟨fun i hi => failsWith_of_error (resultOf_of_operand0_error hi h0),
      fun hen => failsWith_of_error (i := .cfgHash) (resCfgHash_of_operand0_error hen h0)⟩
  · have h0 := operand0_of_is hm
    have h1 := operand1_of_lt hlen
    have hfail : ∀ i, i = .hmacRaw ∨ i = .hmacHex ∨ i = .verify → FailsWith i s 9 :=
      fun i hi => failsWith_of_error (resultOf_of_operand1_error hi h0 h1)
    exact ⟨hfail _ (by simp), hfail _ (by simp), hfail _ (by simp),
      fun hmode => failsWith_of_error (i := .cfgCipher) (resCfgCipher_of_operand1_error hmode h0 h1)⟩

end Sys2Proof.Machine
end

section
/-! SUPPORT. One rule for a read and one for a write of a register (20_memory.md R82, R85, R87), the bits of the
registers as read (10_state.md R35, R39, R42, R43), and the statements about single registers. -/

namespace Sys2Proof.Machine

/-! ## One access of a register -/

@[simp] theorem writeReg_replies (s : State) (d : Word) (r : Reg) : (writeReg s d r).replies = s.replies := by
  cases r <;> rfl

theorem serveAccess_read_reg {s : State} {off : BitVec 18} {r : Reg}
    (h : locate s.caps off .b4 = some (.reg r)) :
    serveAccess s (.read off .b4) =
      { s with replies := s.replies ++ [{ resp := .okay, data := some (readReg s r) }] } := by
  simp [serveAccess, busRead, h, readData, readDraws]

theorem serveAccess_write_reg_idle {s : State} {off : BitVec 18} {r : Reg} (d : Word)
    (hidle : s.status.busy = false) (h : locate s.caps off .b4 = some (.reg r)) :
    serveAccess s (.write off .b4 d) =
      { writeReg s d r with replies := s.replies ++ [{ resp := .okay, data := none }] } := by
  simp [serveAccess, busWrite, h, hidle, writeLoc]

theorem serveAccess_write_busy {s : State} {off : BitVec 18} {size : Size} {l : Loc} (d : Word)
    (hbusy : s.status.busy = true) (h : locate s.caps off size = some l) :
    serveAccess s (.write off size d) =
      { s with
        status := statusWerr s.status
        replies := s.replies ++ [{ resp := .okay, data := none }] } := by
  simp [serveAccess, busWrite, h, hbusy]

/-! ## The bits of a register as read -/

theorem statusWord_getLsbD (st : Status) (i : Nat) :
    (statusWord st).getLsbD i =
      if i = 0 then st.busy else if i = 1 then st.done else if i = 2 then st.err else if i = 3 then st.werr
      else if i = 4 then st.matched else if i < 8 then false else st.errCode.getLsbD (i - 8) := by
  show BitVec.getLsbD (w := 20 + 4 + 3 + 1 + 1 + 1 + 1 + 1) _ i = _
  simp only [statusWord, BitVec.getLsbD_append, BitVec.getLsbD_ofBool, BitVec.ofNat_eq_ofNat,
    BitVec.getLsbD_zero]
  match i with
  | 0 | 1 | 2 | 3 | 4 | 5 | 6 | 7 => simp
  | n + 8 => simpa using BitVec.lt_of_getLsbD

theorem cfgWord_getLsbD (c : CfgReg) (i : Nat) :
    (cfgWord c).getLsbD i =
      if i = 0 then c.mode == .cbc else if i < 3 then c.pad.getLsbD (i - 1) else if i = 3 then c.hmacEn
      else false := by
  show BitVec.getLsbD (w := 28 + 1 + 2 + 1) _ i = _
  simp only [cfgWord, BitVec.getLsbD_append, BitVec.getLsbD_ofBool, BitVec.ofNat_eq_ofNat, BitVec.getLsbD_zero]
  match i with
  | 0 => cases c.mode <;> rfl
  | 1 | 2 | 3 => simp
  | n + 4 => simp

theorem instWord_getLsbD (c : CipherInst) (h : HashInst) (i : Nat) :
    (instWord c h).getLsbD i =
      if i = 0 then c.ready else if i = 1 then c.mode == .cbc else if i < 4 then (padCode c.pad).getLsbD (i - 2)
      else if i = 4 then h.hmac else false := by
  show BitVec.getLsbD (w := 27 + 1 + 2 + 1 + 1) _ i = _
  simp only [instWord, BitVec.getLsbD_append, BitVec.getLsbD_ofBool, BitVec.ofNat_eq_ofNat,
    BitVec.getLsbD_zero]
  match i with
  | 1 => cases c.mode <;> rfl
  | 0 | 2 | 3 | 4 => simp
  | n + 5 => simp

theorem irqenWord_getLsbD (b : Bool) (i : Nat) : (irqenWord b).getLsbD i = if i = 0 then b else false := by
  show BitVec.getLsbD (w := 31 + 1) _ i = _
  simp only [irqenWord, BitVec.getLsbD_append, BitVec.getLsbD_ofBool, BitVec.ofNat_eq_ofNat,
    BitVec.getLsbD_zero]
  match i with
  | 0 => simp
  | n + 1 => simp

/-- The low `n` bits of a word kept, the others cleared. -/
theorem and_lowMask_getLsbD (d : Word) (n i : Nat) (hi : i < 32) :
    (d &&& BitVec.ofNat 32 (2 ^ n - 1)).getLsbD i = (d.getLsbD i && decide (i < n)) := by
  rw [BitVec.getLsbD_and, BitVec.getLsbD_ofNat, Nat.testBit_two_pow_sub_one]
  simp [hi]

@[simp] theorem modeOfBit_beq_cbc (b : Bool) : (modeOfBit b == Mode.cbc) = b := by cases b <;> rfl

/-- CFG reads back the four bits it stores (R39, R44). -/
theorem cfgWord_cfgOfWord (d : Word) : cfgWord (cfgOfWord d) = d &&& 0x0000000F := by
  apply BitVec.eq_of_getLsbD_eq
  intro i hi
  refine Eq.trans ?_ (and_lowMask_getLsbD d 4 i hi).symm
  rw [cfgWord_getLsbD]
  match i with
  | 0 | 1 | 2 | 3 => simp [cfgOfWord]
  | n + 4 => simp

/-- IRQEN reads back the one bit it stores (R43, R44). -/
theorem irqenWord_bit0 (d : Word) : irqenWord (d.getLsbD 0) = d &&& 0x00000001 := by
  apply BitVec.eq_of_getLsbD_eq
  intro i hi
  refine Eq.trans ?_ (and_lowMask_getLsbD d 1 i hi).symm
  rw [irqenWord_getLsbD]
  match i with
  | 0 => simp
  | n + 1 => simp

theorem statusWord_layout (st : Status) :
    (statusWord st).getLsbD 0 = st.busy ∧ (statusWord st).getLsbD 1 = st.done ∧
    (statusWord st).getLsbD 2 = st.err ∧ (statusWord st).getLsbD 3 = st.werr ∧
    (statusWord st).getLsbD 4 = st.matched ∧ (statusWord st).extractLsb' 5 3 = 0 ∧
    (statusWord st).extractLsb' 8 4 = st.errCode ∧ (statusWord st).extractLsb' 12 20 = 0 := by
  have bit := statusWord_getLsbD st
  refine ⟨bit 0, bit 1, bit 2, bit 3, bit 4, ?_, ?_, ?_⟩ <;> ext i hi <;>
    simp only [BitVec.getElem_extractLsb', bit] <;> grind

theorem cfgWord_layout (c : CfgReg) :
    (cfgWord c).getLsbD 0 = (c.mode == .cbc) ∧ (cfgWord c).extractLsb' 1 2 = c.pad ∧
    (cfgWord c).getLsbD 3 = c.hmacEn ∧ (cfgWord c).extractLsb' 4 28 = 0 := by
  have bit := cfgWord_getLsbD c
  refine ⟨bit 0, ?_, bit 3, ?_⟩ <;> ext i hi <;> simp only [BitVec.getElem_extractLsb', bit] <;> grind

theorem instWord_layout (c : CipherInst) (h : HashInst) :
    (instWord c h).getLsbD 0 = c.ready ∧ (instWord c h).getLsbD 1 = (c.mode == .cbc) ∧
    (instWord c h).extractLsb' 2 2 = padCode c.pad ∧ (instWord c h).getLsbD 4 = h.hmac ∧
    (instWord c h).extractLsb' 5 27 = 0 := by
  have bit := instWord_getLsbD c h
  refine ⟨bit 0, bit 1, ?_, bit 4, ?_⟩ <;> ext i hi <;> simp only [BitVec.getElem_extractLsb', bit] <;> grind

theorem irqenWord_layout (b : Bool) : (irqenWord b).getLsbD 0 = b ∧ (irqenWord b).extractLsb' 1 31 = 0 := by
  have bit := irqenWord_getLsbD b
  refine ⟨bit 0, ?_⟩
  ext i hi
  simp [bit]

/-! ## The statements -/

/-- Settles O14: a 4-byte read answers `readReg`, whose words have the bits above. -/
theorem registerLayouts : Obligations.RegisterLayouts := by
  intro s
  refine ⟨⟨?_, ?_, ?_, ?_, ?_, ?_, ?_, ?_, ?_⟩, statusWord_layout s.status, cfgWord_layout s.cfg,
    instWord_layout s.cipher s.hash, irqenWord_layout s.doneIe⟩
  · exact serveAccess_read_reg (locate_id s.caps)
  · exact serveAccess_read_reg (locate_cmd s.caps)
  · exact serveAccess_read_reg (locate_status s.caps)
  · exact serveAccess_read_reg (locate_cfg s.caps)
  · exact serveAccess_read_reg (locate_len0 s.caps)
  · exact serveAccess_read_reg (locate_len1 s.caps)
  · exact serveAccess_read_reg (locate_outlen s.caps)
  · exact serveAccess_read_reg (locate_inst s.caps)
  · exact serveAccess_read_reg (locate_irqen s.caps)

/-- Settles O13: each write is `writeReg`, which stores in its own register alone. -/
theorem configurationRegistersStore : Obligations.ConfigurationRegistersStore := by
  intro s d hidle
  have hcfg := serveAccess_write_reg_idle d hidle (locate_cfg s.caps)
  have hirqen := serveAccess_write_reg_idle d hidle (locate_irqen s.caps)
  refine ⟨⟨cfgOfWord d, hcfg, ?_⟩, ?_, ?_, ⟨d.getLsbD 0, hirqen, ?_⟩⟩
  · exact (congrArg (readReg · .cfg) hcfg).trans (cfgWord_cfgOfWord d)
  · exact serveAccess_write_reg_idle d hidle (locate_len0 s.caps)
  · exact serveAccess_write_reg_idle d hidle (locate_len1 s.caps)
  · exact (congrArg (readReg · .irqen) hirqen).trans (irqenWord_bit0 d)

/-- While busy, and at or beyond OUTLEN, an OUT byte reads as a free value (R48). -/
theorem hostOutByte_of_undefined {s : State} {k : Nat} (h : s.status.busy = true ∨ s.outlen.toNat ≤ k)
    (n : Nat) : hostOutByte s k n = Config.freeByte n := by
  have hnot : outDefined s k = false := by
    rcases h with hbusy | hlen
    · simp [outDefined, hbusy]
    · simp [outDefined, hlen]
  simp [hostOutByte, hnot]

/-- Settles O7: an idle write of CMD is `accept`. -/
theorem commandAcceptance : Obligations.CommandAcceptance := by
  intro s w hidle
  have hw := serveAccess_write_reg_idle w hidle (locate_cmd s.caps)
  have hbusy : (serveAccess s (.write 0x00004 .b4 w)).status.busy = true := congrArg (·.status.busy) hw
  exact ⟨hw, fun k n => hostOutByte_of_undefined (.inl hbusy) n⟩

/-- A bit written as one clears a flag. -/
theorem and_not_eq_ite (flag bit : Bool) : (flag && !bit) = if bit then false else flag := by
  cases bit <;> simp

/-- Settles O12: idle, the write is `statusW1c`; busy, it only sets WERR. -/
theorem statusWriteOneToClear : Obligations.StatusWriteOneToClear := by
  intro s d
  refine ⟨fun hidle => ?_, fun hbusy => serveAccess_write_busy d hbusy (locate_status s.caps)⟩
  rw [← and_not_eq_ite, ← and_not_eq_ite]
  exact serveAccess_write_reg_idle d hidle (locate_status s.caps)

end Sys2Proof.Machine
end

section
/-! SUPPORT. The bytes of an answer in their lanes (20_memory.md R86), and what a host read of OUT answers
(10_state.md R48). -/

namespace Sys2Proof.Machine

/-! ## Bytes in lanes -/

theorem leWord_toNat_lt (bs : Bytes) : (leWord bs).toNat < 2 ^ (8 * bs.length) := by
  induction bs with
  | nil => simp [leWord]
  | cons b bs ih =>
    have hlow : b.toNat < 2 ^ (8 * (bs.length + 1)) :=
      Nat.lt_of_lt_of_le b.isLt (Nat.pow_le_pow_right (by omega) (by omega))
    have hhigh : (leWord bs).toNat <<< 8 < 2 ^ (8 * (bs.length + 1)) := by
      rw [Nat.shiftLeft_eq, Nat.mul_add, Nat.pow_add]; omega
    simp only [leWord, List.length_cons, BitVec.toNat_or, BitVec.toNat_setWidth, BitVec.toNat_shiftLeft]
    exact Nat.or_lt_two_pow (Nat.lt_of_le_of_lt (Nat.mod_le ..) hlow)
      (Nat.lt_of_le_of_lt (Nat.mod_le ..) hhigh)

/-- Lane `j` of a word put together from at most four bytes holds byte `j`. -/
theorem leWord_lane {bs : Bytes} {j : Nat} {b : Byte} (hj : bs[j]? = some b) (h4 : j < 4) :
    (leWord bs).extractLsb' (8 * j) 8 = b := by
  induction bs generalizing j with
  | nil => simp at hj
  | cons c bs ih =>
    ext i hi
    simp only [leWord, BitVec.getElem_extractLsb', BitVec.getLsbD_or, BitVec.getLsbD_setWidth,
      BitVec.getLsbD_shiftLeft]
    cases j with
    | zero =>
      obtain rfl : c = b := by simpa using hj
      simp [show i < 32 by omega, hi]
    | succ j =>
      have hbyte := congrArg (·[i]) (ih (j := j) (by simpa using hj) (by omega))
      simp only [BitVec.getElem_extractLsb'] at hbyte
      rw [← hbyte, show 8 * (j + 1) + i - 8 = 8 * j + i by omega, BitVec.getLsbD_of_ge c _ (by omega)]
      simp; omega

/-! ## A read of OUT -/

theorem serveAccess_read_out {s : State} {off : BitVec 18} {size : Size} {k : Nat}
    (h : locate s.caps off size = some (.buf .out k)) :
    serveAccess s (.read off size) =
      { s with
        replies := s.replies ++
          [{ resp := .okay, data := some (leWord (hostBufBytes s .out k (sizeBytes size))) }]
        draws := s.draws + sizeBytes size } := by
  simp [serveAccess, busRead, h, readData, readDraws]

theorem hostBufBytes_out_length (s : State) (k n : Nat) : (hostBufBytes s .out k n).length = n := by
  simp [hostBufBytes]

theorem hostBufBytes_out_getElem? (s : State) {k n j : Nat} (hj : j < n) :
    (hostBufBytes s .out k n)[j]? = some (hostOutByte s (k + j) (s.draws + j)) := by
  simp [hostBufBytes, hj]

theorem hostOutByte_of_stored {s : State} {k : Nat} {b : Byte} (hidle : s.status.busy = false)
    (hlen : k < s.outlen.toNat) (hb : readByte s.mem (outBase + k) = some b) (n : Nat) :
    hostOutByte s k n = b := by
  simp [hostOutByte, outDefined, hidle, hlen, hb]

/-- A success stores every OUT byte below OUTLEN. -/
theorem completeOk_out_stored (s : State) (d : Done) {k : Nat} (hk : k < (completeOk s d).outlen.toNat) :
    ∃ b, readByte (completeOk s d).mem (outBase + k) = some b := by
  have hlen : k < d.out.length := Nat.lt_of_lt_of_le hk (by simpa using Nat.mod_le ..)
  exact ⟨d.out[k], by simp [readByte_writeBytes, hlen]⟩

/-- Settles O18: each byte of the answer is `hostOutByte`, and only a success leaves OUTLEN above 0. -/
theorem hostReadsTheResult : Obligations.HostReadsTheResult := by
  refine ⟨fun s off size halign hlo hhi => ?_, fun i s t h => ?_⟩
  · have hloc : locate s.caps off size = some (.buf .out (off.toNat - outBase)) :=
      locate_of_inBuf halign ⟨hlo, hhi⟩
    refine ⟨_, ?_, serveAccess_read_out hloc, fun j hj => ?_⟩
    · simpa only [hostBufBytes_out_length] using leWord_toNat_lt (hostBufBytes s .out _ (sizeBytes size))
    · have hlane := leWord_lane (hostBufBytes_out_getElem? s (k := off.toNat - outBase) hj)
        (by have := sizeBytes_cases size; omega)
      rw [hlane]
      refine ⟨fun hfree => hostOutByte_of_undefined hfree _, fun b hidle hlen hb => ?_⟩
      have hplace : outBase + (off.toNat - outBase + j) = off.toNat + j := by omega
      exact hostOutByte_of_stored hidle hlen (by rwa [hplace]) _
  · rcases exec_next_cases h with ⟨d, _, rfl⟩ | ⟨e, _, rfl⟩
    · exact ⟨fun _ k hk => completeOk_out_stored s d hk, fun herr => by simp at herr⟩
    · exact ⟨fun herr => by simp at herr, fun _ => rfl⟩

end Sys2Proof.Machine
end

section
/-! SUPPORT. What a step leaves unchanged: no access touches the two instances (10_state.md R56, R59), a byte of
IN0 or IN1 changes only under a host write that covers it (R47), and a completion's frame (R37). -/

namespace Sys2Proof.Machine

/-! ## Accesses -/

theorem writeReg_keeps_instances (s : State) (d : Word) (r : Reg) :
    (writeReg s d r).cipher = s.cipher ∧ (writeReg s d r).hash = s.hash := by
  cases r <;> exact ⟨rfl, rfl⟩

theorem writeLoc_keeps_instances (s : State) (size : Size) (d : Word) (l : Loc) :
    (writeLoc s size d l).cipher = s.cipher ∧ (writeLoc s size d l).hash = s.hash := by
  match l with
  | .reg r => exact writeReg_keeps_instances s d r
  | .buf .in0 _ | .buf .in1 _ | .buf .out _ => exact ⟨rfl, rfl⟩

@[simp] theorem writeReg_mem (s : State) (d : Word) (r : Reg) : (writeReg s d r).mem = s.mem := by
  cases r <;> rfl

theorem serveAccess_keeps_instances (s : State) (a : Access) :
    (serveAccess s a).cipher = s.cipher ∧ (serveAccess s a).hash = s.hash := by
  cases a with
  | read off size =>
    obtain ⟨r, n, hread⟩ := busRead_eq s off size
    rw [serveAccess, hread]
    exact ⟨rfl, rfl⟩
  | write off size d =>
    rw [serveAccess]
    rcases busWrite_cases s off size d with ⟨_, hw⟩ | ⟨_, _, _, hw⟩ | ⟨l, _, _, hw⟩ <;> rw [hw]
    · exact ⟨rfl, rfl⟩
    · exact ⟨rfl, rfl⟩
    · exact writeLoc_keeps_instances s size d l

/-- A legal write leaves every byte it does not cover. -/
theorem readByte_writeLoc_of_not_covered {s : State} {off : BitVec 18} {size : Size} (d : Word) {l : Loc} {a : Nat}
    (hl : locate s.caps off size = some l) (ha : ¬ Covered off size a) :
    readByte (writeLoc s size d l).mem a = readByte s.mem a := by
  have outside : ∀ base, off.toNat = base →
      readByte (writeBytes s.mem base (leBytes d (sizeBytes size))) a = readByte s.mem a := by
    intro base hbase
    rw [readByte_writeBytes, leBytes_length, ← hbase, if_neg ha]
  match l with
  | .reg r => exact congrArg (readByte · a) (writeReg_mem s d r)
  | .buf .in0 k => exact outside _ (locate_buf hl).1
  | .buf .in1 k => exact outside _ (locate_buf hl).1
  | .buf .out k => rfl

/-- An access that changes a buffer byte is a write, served while idle, that covers it (R47, R87). -/
theorem serveAccess_changes_byte {s : State} {acc : Access} {a : Nat}
    (h : readByte (serveAccess s acc).mem a ≠ readByte s.mem a) :
    ∃ off size d, acc = .write off size d ∧ s.status.busy = false ∧ Covered off size a := by
  cases acc with
  | read off size =>
    obtain ⟨r, n, hread⟩ := busRead_eq s off size
    rw [serveAccess, hread] at h
    exact absurd rfl h
  | write off size d =>
    rw [serveAccess] at h
    rcases busWrite_cases s off size d with ⟨_, hw⟩ | ⟨_, _, _, hw⟩ | ⟨l, hl, hidle, hw⟩ <;> rw [hw] at h
    · exact absurd rfl h
    · exact absurd rfl h
    · exact ⟨off, size, d, rfl, hidle,
        Decidable.by_contra fun ha => h (readByte_writeLoc_of_not_covered d hl ha)⟩

/-! ## Completions -/

/-- A success stores its result in OUT[0..OUTLEN) alone. -/
theorem readByte_completeOk_outside {i : Instr} {s : State} {d : Done} (hd : resultOf i s = .ok d) {a : Nat}
    (ha : ¬ (outBase ≤ a ∧ a < outBase + (completeOk s d).outlen.toNat)) :
    readByte (completeOk s d).mem a = readByte s.mem a := by
  rw [completeOk_outlen, outlen_toNat_of_le (resultOf_ok_out hd).1] at ha
  rw [completeOk_mem, readByte_writeBytes, if_neg ha]

/-- Settles O28: a success changes what `completeOk` names, a failure what `completeErr` names. -/
theorem completionFrame : Obligations.CompletionFrame := by
  intro i s t h
  rcases exec_next_cases h with ⟨d, hd, rfl⟩ | ⟨e, _, rfl⟩
  · exact ⟨rfl, rfl, rfl, rfl, rfl, rfl, rfl, rfl, rfl, rfl, resultOf_ok_cipher hd, resultOf_ok_hash hd,
      fun a ha => readByte_completeOk_outside hd ha⟩
  · exact ⟨rfl, rfl, rfl, rfl, rfl, rfl, rfl, rfl, rfl, rfl, fun _ => rfl, fun _ => rfl, fun _ _ => rfl⟩

/-- No engine's turn changes a byte below OUT (R47). -/
theorem readByte_engineStep_below_out {s t : State} (h : engineStep s = .next t) {a : Nat} (ha : a < outBase) :
    readByte t.mem a = readByte s.mem a := by
  rcases engineStep_next_cases h with ⟨_, rfl⟩ | ⟨_, i, _, he⟩ | ⟨_, _, rfl⟩
  · rfl
  · rcases exec_next_cases he with ⟨d, hd, rfl⟩ | ⟨e, _, rfl⟩
    · exact readByte_completeOk_outside hd (by omega)
    · rfl
  · rfl

/-- The engine changes the cipher only as the success of CFG.CIPHER (R56). -/
theorem engineStep_changes_cipher {s t : State} (h : engineStep s = .next t) (hne : t.cipher ≠ s.cipher) :
    s.status.busy = true ∧ decode s.cmdl = .ok .cfgCipher ∧ t.status.busy = false ∧ t.status.done = true ∧
      t.status.err = false ∧ t.cipher.ready = true := by
  rcases engineStep_next_cases h with ⟨_, rfl⟩ | ⟨hbusy, i, hdec, he⟩ | ⟨_, _, rfl⟩
  · exact absurd rfl hne
  · rcases exec_next_cases he with ⟨d, hd, rfl⟩ | ⟨e, _, rfl⟩
    · obtain rfl : i = .cfgCipher := Decidable.by_contra fun hi => hne (resultOf_ok_cipher hd hi)
      obtain ⟨_, _, _, rfl⟩ := resCfgCipher_ok hd
      exact ⟨hbusy, hdec, rfl, rfl, rfl, rfl⟩
    · exact absurd rfl hne
  · exact absurd rfl hne

/-- The engine changes the hash configuration only as the success of CFG.HASH (R59). -/
theorem engineStep_changes_hash {s t : State} (h : engineStep s = .next t) (hne : t.hash ≠ s.hash) :
    s.status.busy = true ∧ decode s.cmdl = .ok .cfgHash ∧ t.status.busy = false ∧ t.status.done = true ∧
      t.status.err = false := by
  rcases engineStep_next_cases h with ⟨_, rfl⟩ | ⟨hbusy, i, hdec, he⟩ | ⟨_, _, rfl⟩
  · exact absurd rfl hne
  · rcases exec_next_cases he with ⟨d, hd, rfl⟩ | ⟨e, _, rfl⟩
    · obtain rfl : i = .cfgHash := Decidable.by_contra fun hi => hne (resultOf_ok_hash hd hi)
      exact ⟨hbusy, hdec, rfl, rfl, rfl⟩
    · exact absurd rfl hne
  · exact absurd rfl hne

/-! ## Steps -/

/-- Settles O24: of the steps other than an assertion of `rst`, only the engine's
turn can touch the cipher or the hash configuration. -/
theorem instancesWrittenOnlyByConstruction : Obligations.InstancesWrittenOnlyByConstruction := by
  intro s t h hnorst
  rcases step_next_cases h with ⟨_, ⟨_, rfl⟩ | ⟨rest, _, rfl⟩, he⟩ | ⟨a, rest, _, _, rfl⟩ | ⟨rest, hrst, _⟩ |
    ⟨rest, _, rfl⟩
  · exact ⟨engineStep_changes_cipher he, engineStep_changes_hash he⟩
  · have hcipher := engineStep_changes_cipher he
    have hhash := engineStep_changes_hash he
    exact ⟨hcipher, hhash⟩
  · obtain ⟨hcipher, hhash⟩ := serveAccess_keeps_instances { s with host := rest } a
    exact ⟨fun hne => absurd hcipher hne, fun hne => absurd hhash hne⟩
  · exact absurd hrst (hnorst rest)
  · exact ⟨fun hne => absurd rfl hne, fun hne => absurd rfl hne⟩

/-- Settles O25: an engine's turn stores at or above OUT, a change of `rst` stores nothing, and an access stores
what it covers. -/
theorem inputBuffersWrittenOnlyByTheHost : Obligations.InputBuffersWrittenOnlyByTheHost := by
  intro s t a h ha hne
  rcases step_next_cases h with ⟨_, ⟨_, rfl⟩ | ⟨rest, _, rfl⟩, he⟩ | ⟨acc, rest, hhost, _, rfl⟩ | ⟨rest, _, rfl⟩ |
    ⟨rest, _, rfl⟩
  · exact absurd (readByte_engineStep_below_out he ha) hne
  · exact absurd (readByte_engineStep_below_out he ha) hne
  · obtain ⟨off, size, d, rfl, hidle, hcov⟩ := serveAccess_changes_byte hne
    exact ⟨off, size, d, rest, hhost, hidle, hcov⟩
  · exact absurd rfl hne
  · exact absurd rfl hne

end Sys2Proof.Machine
end

section
/-! SUPPORT. Hidden registers and host accesses (10_state.md R57, R64): an access served in a state with other
hidden registers does what it does in the state itself. -/

namespace Sys2Proof.Machine

/-- The registers no access reads: CMDL, I_IV, RK, HK0 and the datapath. -/
structure HiddenRegs where
  cmdl : Word
  iv : Vector Byte 16
  rk : Vector Word 32
  hk0 : Vector Byte 64
  sm3 : Sm3Datapath
  sm4 : Sm4Datapath

/-- The state with these hidden registers. -/
def withHidden (s : State) (x : HiddenRegs) : State :=
  { s with
    cmdl := x.cmdl
    cipher := { s.cipher with iv := x.iv, rk := x.rk }
    hash := { s.hash with hk0 := x.hk0 }
    sm3 := x.sm3
    sm4 := x.sm4 }

theorem sameVisible_iff {s t : State} : SameVisible s t ↔ ∃ x, t = withHidden s x :=
  ⟨fun h => ⟨⟨t.cmdl, t.cipher.iv, t.cipher.rk, t.hash.hk0, t.sm3, t.sm4⟩, h⟩, by rintro ⟨x, rfl⟩; rfl⟩

theorem SameVisible.replies_eq {s t : State} (h : SameVisible s t) : t.replies = s.replies := by
  obtain ⟨x, rfl⟩ := sameVisible_iff.1 h
  rfl

@[simp] theorem readReg_withHidden (s : State) (x : HiddenRegs) (r : Reg) :
    readReg (withHidden s x) r = readReg s r := by
  cases r <;> rfl

@[simp] theorem readData_withHidden (s : State) (x : HiddenRegs) (size : Size) (l : Loc) :
    readData (withHidden s x) size l = readData s size l := by
  match l with
  | .reg r => exact readReg_withHidden s x r
  | .buf .in0 _ | .buf .in1 _ | .buf .out _ => rfl

theorem busRead_withHidden (s : State) (x : HiddenRegs) (off : BitVec 18) (size : Size) :
    busRead (withHidden s x) off size = withHidden (busRead s off size) x := by
  have hcaps : (withHidden s x).caps = s.caps := rfl
  unfold busRead
  rw [hcaps]
  cases locate s.caps off size with
  | none => rfl
  | some l => simp only [readData_withHidden]; rfl

/-- A write of CMD latches its word in CMDL; every other write leaves the hidden registers. -/
theorem writeLoc_withHidden (s : State) (x : HiddenRegs) (size : Size) (d : Word) (l : Loc) :
    ∃ y, writeLoc (withHidden s x) size d l = withHidden (writeLoc s size d l) y := by
  match l with
  | .reg .cmd => exact ⟨{ x with cmdl := d }, rfl⟩
  | .reg .id | .reg .status | .reg .cfg | .reg .len0 | .reg .len1 | .reg .outlen | .reg .inst | .reg .irqen =>
    exact ⟨x, rfl⟩
  | .buf .in0 _ | .buf .in1 _ | .buf .out _ => exact ⟨x, rfl⟩

theorem busWrite_withHidden (s : State) (x : HiddenRegs) (off : BitVec 18) (size : Size) (d : Word) :
    ∃ y, busWrite (withHidden s x) off size d = withHidden (busWrite s off size d) y := by
  have hcaps : (withHidden s x).caps = s.caps := rfl
  have hbusy : (withHidden s x).status.busy = s.status.busy := rfl
  unfold busWrite
  rw [hcaps]
  cases locate s.caps off size with
  | none => exact ⟨x, rfl⟩
  | some l =>
    obtain ⟨y, hy⟩ := writeLoc_withHidden s x size d l
    simp only [hbusy, hy]
    cases s.status.busy
    · exact ⟨y, rfl⟩
    · exact ⟨x, rfl⟩

theorem SameVisible.serveAccess {s t : State} (h : SameVisible s t) (a : Access) :
    SameVisible (serveAccess s a) (serveAccess t a) := by
  obtain ⟨x, rfl⟩ := sameVisible_iff.1 h
  cases a with
  | read off size => exact sameVisible_iff.2 ⟨x, busRead_withHidden s x off size⟩
  | write off size d => exact sameVisible_iff.2 (busWrite_withHidden s x off size d)

theorem SameVisible.serveAccesses {s t : State} (h : SameVisible s t) (as : List Access) :
    SameVisible (as.foldl Machine.serveAccess s) (as.foldl Machine.serveAccess t) := by
  induction as generalizing s t with
  | nil => exact h
  | cons a as ih => exact ih (h.serveAccess a)

/-- Settles O26: `SameVisible` survives each access, and so any list of them, and covers the answers given. -/
theorem hiddenStateIsUnreadable : Obligations.HiddenStateIsUnreadable :=
  fun as _ _ h => ⟨h.serveAccesses as, (h.serveAccesses as).replies_eq⟩

end Sys2Proof.Machine
end

section
/-! SUPPORT. The engine's turn on a legal word, the fault at an unwritten operand byte (10_state.md R46), and the
state right after reset (R70). -/

namespace Sys2Proof.Machine

theorem engineStep_of_decode {s : State} {i : Instr} (hbusy : s.status.busy = true) (hd : decode s.cmdl = .ok i) :
    engineStep s = exec i s := by
  simp [engineStep, hbusy, completeLatched, hd]

theorem step_of_no_event {s : State} (h : s.host = []) : step s = engineStep s := by
  simp [step, stepOnce, h]

theorem step_of_engineTurn {s : State} {rest : List HostEvent} (h : s.host = .engineTurn :: rest) :
    step s = engineStep { s with host := rest } := by
  simp [step, stepOnce, h, serveEvent]

/-- Settles O5: either form of the turn is `engineStep`, which runs the latched command. -/
theorem stepRunsLatchedCommand : Obligations.StepRunsLatchedCommand := by
  intro s i hbusy hd
  refine ⟨fun hnone => ?_, fun rest hturn => ?_⟩
  · rw [step_of_no_event hnone, engineStep_of_decode hbusy hd]
  · rw [step_of_engineTurn hturn]
    exact engineStep_of_decode hbusy hd

/-- Settles O31: the fetch of the operand stops the command. -/
theorem unwrittenOperandFaults : Obligations.UnwrittenOperandFaults := by
  intro s
  refine ⟨fun hlen hgap => ?_, fun m hm hlen hgap => ?_⟩
  · have h0 : operand0 s = .error .uninitialized := operandAt_uninitialized_iff.2 ⟨hlen, hgap⟩
    exact ⟨fun i hi => faults_of_uninitialized (resultOf_of_operand0_error hi h0),
      fun hen => faults_of_uninitialized (i := .cfgHash) (resCfgHash_of_operand0_error hen h0)⟩
  · have h0 := operand0_of_is hm
    have h1 : operand1 s = .error .uninitialized := operandAt_uninitialized_iff.2 ⟨hlen, hgap⟩
    have hfault : ∀ i, i = .hmacRaw ∨ i = .hmacHex ∨ i = .verify → exec i s = .fault .uninitializedOperand :=
      fun i hi => faults_of_uninitialized (resultOf_of_operand1_error hi h0 h1)
    exact ⟨hfault _ (by simp), hfault _ (by simp), hfault _ (by simp),
      fun hmode => faults_of_uninitialized (i := .cfgCipher) (resCfgCipher_of_operand1_error hmode h0 h1)⟩

/-- Settles O19: each register by evaluation, and the memory is empty. -/
theorem resetValues : Obligations.ResetValues :=
  ⟨rfl, by decide, by decide, rfl, rfl, rfl, by decide, by decide, rfl, rfl, rfl, rfl, rfl, rfl, fun _ => rfl⟩

/-- Settles O22: nothing is stored, OUTLEN is 0 and every flag is clear. -/
theorem invariantAtReset : Obligations.InvariantAtReset where
  memWf := reset_mem_wf
  memMapped := fun _ hc => nomatch hc
  outBacked := fun _ _ hk => absurd hk (Nat.not_lt_zero _)
  outlenCap := Nat.zero_le _
  busyClear := fun hbusy => nomatch hbusy
  errIff := by simp [State.reset]
  errRange := Nat.zero_le _
  errEmpty := fun herr => nomatch herr
  matchOne := fun hmatch => nomatch hmatch
  resetIdle := fun _ => rfl
  unconfigured := fun _ => ⟨rfl, rfl⟩

end Sys2Proof.Machine
end

section
/-! SUPPORT. The host's bus (20_memory.md): which accesses are legal (R82 to R84), what a legal read or write
does, and the statements about the order of events, ERROR accesses and writes that are ignored or dropped. -/

namespace Sys2Proof.Machine

/-! ## Legal accesses -/

/-- An aligned word below 0x24 is a register. -/
theorem exists_locate_reg {c : Capacities} {off : BitVec 18} (halign : off.toNat % 4 = 0)
    (hlow : off.toNat < 0x24) : ∃ r, locate c off .b4 = some (.reg r) := by
  have hreg : regAt off.toNat ≠ none := fun h => (regAt_eq_none_iff _).1 h ⟨halign, hlow⟩
  obtain ⟨r, hr⟩ := Option.ne_none_iff_exists'.1 hreg
  exact ⟨r, by simp [locate, locateAt, sizeBytes, halign, show off.toNat < 65536 by omega, hr]⟩

theorem inBuf_of_locate {c : Capacities} {off : BitVec 18} {size : Size} {b : Buf} {k : Nat}
    (h : locate c off size = some (.buf b k)) : InBuf c b off.toNat (sizeBytes size) := by
  obtain ⟨hplace, hfit, _⟩ := locate_buf h
  omega

theorem mapped_of_inBuf {c : Capacities} {b : Buf} {off : BitVec 18} {size : Size} {a : Nat}
    (h : InBuf c b off.toNat (sizeBytes size)) (ha : Covered off size a) : Mapped c a := by
  cases b <;> simp only [InBuf, bufBase, bufCap, in0Base, in1Base, outBase] at h <;> omega

/-- The legal accesses (R82 to R84): aligned, a word for a register, and of mapped bytes only. -/
theorem exists_locate_iff {c : Capacities} {off : BitVec 18} {size : Size} :
    (∃ l, locate c off size = some l) ↔
      off.toNat % sizeBytes size = 0 ∧ (off.toNat < 0x24 → size = .b4) ∧ ∀ a, Covered off size a → Mapped c a := by
  have hsize := sizeBytes_cases size
  constructor
  · rintro ⟨r | ⟨b, k⟩, h⟩
    · obtain ⟨rfl, halign, hlow, _⟩ := locate_reg h
      refine ⟨halign, fun _ => rfl, fun a ha => .inl ?_⟩
      simp only [Covered, sizeBytes] at ha
      omega
    · obtain ⟨_, _, halign⟩ := locate_buf h
      have hin := inBuf_of_locate h
      have habove := inBuf_bounds hin
      exact ⟨halign, fun hlow => by omega, fun a ha => mapped_of_inBuf hin ha⟩
  · rintro ⟨halign, hword, hmapped⟩
    by_cases hlow : off.toNat < 0x24
    · obtain rfl := hword hlow
      obtain ⟨r, hr⟩ := exists_locate_reg (c := c) halign hlow
      exact ⟨.reg r, hr⟩
    · have hfirst := hmapped off.toNat ⟨Nat.le_refl _, by omega⟩
      obtain ⟨b, hb⟩ := exists_inBuf (by simp only [Mapped] at hfirst; omega) halign hmapped
      exact ⟨_, locate_of_inBuf halign hb⟩

/-- The ERROR accesses of R84. -/
theorem locate_eq_none_iff {c : Capacities} {off : BitVec 18} {size : Size} :
    locate c off size = none ↔
      (off.toNat % sizeBytes size ≠ 0 ∨ (off.toNat < 0x24 ∧ size ≠ .b4) ∨
        ∃ a, Covered off size a ∧ ¬ Mapped c a) := by
  rw [Option.eq_none_iff_forall_ne_some, ← not_exists, exists_locate_iff]
  simp only [not_and_or, not_forall, exists_prop, ne_eq]

/-! ## One access served -/

theorem serveAccess_read_error {s : State} {off : BitVec 18} {size : Size} (h : locate s.caps off size = none) :
    serveAccess s (.read off size) = { s with replies := s.replies ++ [{ resp := .error, data := some 0 }] } := by
  simp [serveAccess, busRead, h]

theorem serveAccess_write_error {s : State} {off : BitVec 18} {size : Size} (d : Word)
    (h : locate s.caps off size = none) :
    serveAccess s (.write off size d) = { s with replies := s.replies ++ [{ resp := .error, data := none }] } := by
  simp [serveAccess, busWrite, h]

theorem serveAccess_read_legal {s : State} {off : BitVec 18} {size : Size} {l : Loc}
    (h : locate s.caps off size = some l) :
    serveAccess s (.read off size) =
      { s with
        replies := s.replies ++ [{ resp := .okay, data := some (readData s size l) }]
        draws := s.draws + readDraws size l } := by
  simp [serveAccess, busRead, h]

@[simp] theorem writeLoc_replies (s : State) (size : Size) (d : Word) (l : Loc) :
    (writeLoc s size d l).replies = s.replies := by
  match l with
  | .reg r => exact writeReg_replies s d r
  | .buf .in0 _ | .buf .in1 _ | .buf .out _ => rfl

theorem serveAccess_write_idle {s : State} {off : BitVec 18} {size : Size} {l : Loc} (d : Word)
    (hidle : s.status.busy = false) (h : locate s.caps off size = some l) :
    serveAccess s (.write off size d) =
      { writeLoc s size d l with replies := s.replies ++ [{ resp := .okay, data := none }] } := by
  simp [serveAccess, busWrite, h, hidle]

/-- A write that would change nothing while idle sets WERR at most, and only while busy (R85, R87). -/
theorem serveAccess_write_readOnly {s : State} {off : BitVec 18} {size : Size} {l : Loc} (d : Word)
    (h : locate s.caps off size = some l) (hkeeps : writeLoc s size d l = s) :
    serveAccess s (.write off size d) =
      { s with
        status := { s.status with werr := s.status.werr || s.status.busy }
        replies := s.replies ++ [{ resp := .okay, data := none }] } := by
  cases hbusy : s.status.busy
  · rw [serveAccess_write_idle d hbusy h, hkeeps, Bool.or_false]
  · rw [serveAccess_write_busy d hbusy h, Bool.or_true]; rfl

/-! ## The statements -/

/-- Settles O9: an access is an ERROR access where `locate` has no place for it. -/
theorem errorAccessesChangeNothing : Obligations.ErrorAccessesChangeNothing := by
  intro s off size d
  refine ⟨fun hbad => ?_, fun hgood => ?_⟩
  · have hnone := locate_eq_none_iff.2 hbad
    exact ⟨serveAccess_read_error hnone, serveAccess_write_error d hnone⟩
  · obtain ⟨l, hl⟩ := Option.ne_none_iff_exists'.1 fun hnone => hgood (locate_eq_none_iff.1 hnone)
    refine ⟨⟨readData s size l, by rw [serveAccess_read_legal hl]⟩, ?_⟩
    cases hbusy : s.status.busy
    · rw [serveAccess_write_idle d hbusy hl]
    · rw [serveAccess_write_busy d hbusy hl]

/-- Settles O10: `writeLoc` stores nothing at ID, OUTLEN, INST or in OUT. -/
theorem readOnlyWritesIgnored : Obligations.ReadOnlyWritesIgnored := by
  intro s off size d hplace
  refine ⟨?_, serveAccess_read_reg (locate_cmd s.caps)⟩
  rcases hplace with ⟨rfl, rfl | rfl | rfl⟩ | ⟨halign, hlo, hhi⟩
  · exact serveAccess_write_readOnly d (locate_id s.caps) rfl
  · exact serveAccess_write_readOnly d (locate_outlen s.caps) rfl
  · exact serveAccess_write_readOnly d (locate_inst s.caps) rfl
  · exact serveAccess_write_readOnly d (locate_of_inBuf (b := .out) halign ⟨hlo, hhi⟩) rfl

/-- Settles O11: a legal access has a place, and a write of any place while busy sets WERR alone. -/
theorem writesWhileBusyAreDropped : Obligations.WritesWhileBusyAreDropped := by
  intro s off size d hbusy halign hword hmapped
  obtain ⟨l, hl⟩ := exists_locate_iff.2 ⟨halign, hword, hmapped⟩
  exact serveAccess_write_busy d hbusy hl

theorem engineStep_of_idle {s : State} (h : s.status.busy = false) : engineStep s = .next s := by
  simp [engineStep, h]

theorem step_of_access {s : State} {a : Access} {rest : List HostEvent} (hr : s.inReset = false)
    (h : s.host = .access a :: rest) : step s = .next (serveAccess { s with host := rest } a) := by
  simp [step, stepOnce, h, serveEvent, hr]

/-- Settles O8: a step serves the first event of the list, and the turn of an idle engine changes nothing. -/
theorem stepServesEventsInOrder : Obligations.StepServesEventsInOrder := by
  intro s rest
  refine ⟨fun a hr hhost => step_of_access hr hhost, fun hidle hhost => ?_, fun hidle hhost => ?_⟩
  · rw [step_of_engineTurn hhost]
    exact engineStep_of_idle hidle
  · rw [step_of_no_event hhost, engineStep_of_idle hidle]

end Sys2Proof.Machine
end

section
/-! SUPPORT. Buffer accesses (20_memory.md R86 to R91): a write of IN0 or IN1 and the read that follows it, the
word an algorithm makes of the written bytes, and what a repeated read answers. -/

namespace Sys2Proof.Machine

/-! ## Writes and reads of IN0 and IN1 -/

/-- An idle write of IN0 or IN1 stores the bytes of its data at its own window offset. -/
theorem serveAccess_write_input {s : State} {off : BitVec 18} {size : Size} {b : Buf} {k : Nat} (d : Word)
    (hidle : s.status.busy = false) (h : locate s.caps off size = some (.buf b k)) (hb : b ≠ .out) :
    serveAccess s (.write off size d) =
      { s with
        mem := writeBytes s.mem off.toNat (leBytes d (sizeBytes size))
        replies := s.replies ++ [{ resp := .okay, data := none }] } := by
  rw [serveAccess_write_idle d hidle h, (locate_buf h).1]
  cases b with
  | in0 | in1 => rfl
  | out => exact absurd rfl hb

/-- A host read of stored IN0 or IN1 bytes answers them (R88). -/
theorem hostBufBytes_of_readBytes {s : State} {b : Buf} {k n : Nat} {bs : Bytes} (hb : b ≠ .out)
    (h : readBytes s.mem (bufBase b + k) n = some bs) : hostBufBytes s b k n = bs := by
  obtain ⟨hlen, hbyte⟩ := (readBytes_eq_some_iff ..).1 h
  have hlist : hostBufBytes s b k n = (List.range n).map (fun i => hostInByte s (bufBase b + k + i)) := by
    cases b with
    | in0 | in1 => rfl
    | out => exact absurd rfl hb
  rw [hlist]
  refine List.ext_getElem (by simp [hlen]) fun i hi hi' => ?_
  simp [hostInByte, hbyte i (by omega), List.getElem?_eq_getElem hi']

theorem serveAccess_read_stored_input {s : State} {off : BitVec 18} {size : Size} {b : Buf} {k : Nat} {bs : Bytes}
    (h : locate s.caps off size = some (.buf b k)) (hb : b ≠ .out)
    (hbs : readBytes s.mem off.toNat (sizeBytes size) = some bs) :
    (serveAccess s (.read off size)).replies = s.replies ++ [{ resp := .okay, data := some (leWord bs) }] := by
  rw [(locate_buf h).1] at hbs
  rw [serveAccess_read_legal h, readData, hostBufBytes_of_readBytes hb hbs]

/-- Where a legal access from IN0's base up to OUT falls. -/
theorem exists_locate_input {c : Capacities} {off : BitVec 18} {size : Size}
    (halign : off.toNat % sizeBytes size = 0) (hlo : 0x10000 ≤ off.toNat) (hhi : off.toNat < 0x30000)
    (hmapped : ∀ a, Covered off size a → Mapped c a) :
    ∃ b k, locate c off size = some (.buf b k) ∧ b ≠ .out := by
  obtain ⟨b, hb⟩ := exists_inBuf hlo halign hmapped
  refine ⟨b, _, locate_of_inBuf halign hb, ?_⟩
  rintro rfl
  exact Nat.not_le.2 hhi hb.1

/-- The bytes of a word just stored read back. -/
theorem readBytes_writeBytes_leBytes (m : Memory) (a : Nat) (d : Word) (n : Nat) :
    readBytes (writeBytes m a (leBytes d n)) a n = some (leBytes d n) := by
  simpa using readBytes_writeBytes_same m a (leBytes d n)

/-- Settles O15: the write is `writeBytes` of `leBytes d`, and the read puts those bytes together again. -/
theorem bufferWriteReadsBack : Obligations.BufferWriteReadsBack := by
  intro s off size d hidle halign hlo hhi hmapped
  obtain ⟨b, k, hl, hb⟩ := exists_locate_input halign hlo hhi hmapped
  have hw := serveAccess_write_input d hidle hl hb
  intro t
  have hmem : t.mem = writeBytes s.mem off.toNat (leBytes d (sizeBytes size)) := congrArg (·.mem) hw
  have hcaps : t.caps = s.caps := serveAccess_caps s _
  refine ⟨?_, fun a ha => ?_, fun j hj => ?_, ?_⟩
  · rw [hmem]
    exact hw
  · rw [hmem, readByte_writeBytes, leBytes_length, if_neg ha]
  · rw [hmem, readByte_writeBytes, leBytes_length, if_pos (by omega), Nat.add_sub_cancel_left,
      leBytes_getElem? d _ j hj]
  · have hstored : readBytes t.mem off.toNat (sizeBytes size) = some (leBytes d (sizeBytes size)) := by
      rw [hmem, readBytes_writeBytes_leBytes]
    rw [serveAccess_read_stored_input (hcaps ▸ hl) hb hstored, leWord_leBytes]

/-! ## The word of four written bytes -/

/-- The value of a big-endian word (R15). -/
theorem be32_toNat (b0 b1 b2 b3 : Byte) :
    (be32 b0 b1 b2 b3).toNat = b0.toNat * 2 ^ 24 + b1.toNat * 2 ^ 16 + b2.toNat * 2 ^ 8 + b3.toNat := by
  have happend : ∀ {w : Nat} (x : BitVec w) (y : Byte), (x ++ y).toNat = x.toNat * 2 ^ 8 + y.toNat := by
    intro w x y
    rw [BitVec.toNat_append, ← Nat.shiftLeft_add_eq_or_of_lt y.isLt, Nat.shiftLeft_eq]
  rw [be32, happend, happend, happend]
  omega

theorem leBytes_four (d : Word) :
    leBytes d 4 = [d.extractLsb' 0 8, d.extractLsb' 8 8, d.extractLsb' 16 8, d.extractLsb' 24 8] := by
  refine List.ext_getElem? fun k => ?_
  match k with
  | 0 | 1 | 2 | 3 => exact leBytes_getElem? d 4 _ (by omega)
  | k + 4 => rfl

/-- Settles O16: the stored bytes are `leBytes d 4`, lowest first, and `beWords` takes the first one as the
highest. -/
theorem busWordIsByteReversed : Obligations.BusWordIsByteReversed := by
  intro s d hidle
  have hin : InBuf s.caps .in0 (0x10000#18).toNat (sizeBytes .b4) := by
    have hcap := s.caps.in0.2
    simp only [InBuf, bufBase, bufCap, in0Base, sizeBytes, BitVec.toNat_ofNat]
    omega
  have hw := serveAccess_write_input d hidle (locate_of_inBuf (by decide) hin) (by decide)
  have hmem : (serveAccess s (.write 0x10000 .b4 d)).mem = writeBytes s.mem in0Base (leBytes d 4) :=
    congrArg (·.mem) hw
  refine ⟨leBytes d 4, ?_, ?_⟩
  · rw [hmem, readBytes_writeBytes_leBytes]
  · simp only [leBytes_four, beWords, List.map_cons, List.map_nil, be32_toNat]

/-! ## Repeated reads -/

/-- A legal read of no unspecified OUT byte (R48) does not depend on the answers given or on the draw counter. -/
theorem readData_setReplies {s : State} {off : BitVec 18} {size : Size} {l : Loc} (rs : List Reply) (n : Nat)
    (h : locate s.caps off size = some l)
    (hdef : ∀ a, Covered off size a → outBase ≤ a →
      s.status.busy = false ∧ a - outBase < s.outlen.toNat ∧ (readByte s.mem a).isSome = true) :
    readData { s with replies := rs, draws := n } size l = readData s size l := by
  match l with
  | .reg r => cases r <;> rfl
  | .buf .in0 _ | .buf .in1 _ => rfl
  | .buf .out k =>
    have hplace : off.toNat = outBase + k := (locate_buf h).1
    refine congrArg leWord (List.map_congr_left fun i hi => ?_)
    have hi' := List.mem_range.1 hi
    obtain ⟨hidle, hlen, hsome⟩ := hdef (outBase + (k + i)) ⟨by omega, by omega⟩ (Nat.le_add_right ..)
    obtain ⟨b, hb⟩ := Option.isSome_iff_exists.1 hsome
    rw [Nat.add_sub_cancel_left] at hlen
    exact (hostOutByte_of_stored hidle hlen hb _).trans (hostOutByte_of_stored hidle hlen hb _).symm

/-- A second read of the same place answers after the first one, by its own rule. -/
theorem serveAccess_read_twice {s t : State} {off : BitVec 18} {size : Size} {l : Loc}
    (ht : t = serveAccess s (.read off size)) (h : locate s.caps off size = some l) :
    (serveAccess t (.read off size)).replies =
      s.replies ++ [{ resp := .okay, data := some (readData s size l) },
        { resp := .okay, data := some (readData t size l) }] := by
  have hcaps : t.caps = s.caps := ht ▸ serveAccess_caps s _
  rw [serveAccess_read_legal (hcaps ▸ h), ht, serveAccess_read_legal h]
  simp

/-- Settles O17: a read changes only the answers and the draw counter, on which a second answer depends for the
unspecified OUT bytes alone. -/
theorem readsHaveNoSideEffects : Obligations.ReadsHaveNoSideEffects := by
  intro s off size t
  cases hl : locate s.caps off size with
  | none =>
    have ht : t = _ := serveAccess_read_error hl
    have hagain : serveAccess t (.read off size) = _ := serveAccess_read_error (by rw [ht]; exact hl)
    exact ⟨by rw [ht], _, _, by rw [ht], by rw [hagain, ht, List.append_assoc]; rfl, fun _ => rfl⟩
  | some l =>
    have ht : t = _ := serveAccess_read_legal hl
    refine ⟨by rw [ht], _, _, by rw [ht], serveAccess_read_twice rfl hl, fun hdef => ?_⟩
    have hsame : readData t size l = readData s size l := ht ▸ readData_setReplies _ _ hl hdef
    rw [hsame]

end Sys2Proof.Machine
end

section
/-! SUPPORT. The decoder against the table of R114 (30_encoding.md): a word decodes to a command exactly when it is
that command's word, so the legal words are the nineteen of the table, and any other word completes with
IllegalCommand (R115, 60_exceptions.md R413). -/

namespace Sys2Proof.Machine

/-! ## A command's word -/

/-- A word is its three fields put together (R110). -/
theorem word_eq_fields (w : Word) : w = rsvOf w ++ fmtOf w ++ opcOf w := by
  have hlow : w.extractLsb' 8 2 ++ w.extractLsb' 0 8 = w.extractLsb' 0 10 :=
    BitVec.extractLsb'_append_extractLsb'_eq_extractLsb' rfl
  have hall : w.extractLsb' 10 22 ++ w.extractLsb' 0 10 = w.extractLsb' 0 32 :=
    BitVec.extractLsb'_append_extractLsb'_eq_extractLsb' rfl
  rw [BitVec.append_assoc]
  simp [rsvOf, fmtOf, opcOf, hlow, hall]

/-- The pairs R116 lists are those of the table. -/
theorem decodeOpcFmt_ok_iff {opc fmt : Nat} {i : Instr} :
    decodeOpcFmt opc fmt = .ok i ↔ opc = (opcFmt i).1.toNat ∧ fmt = (opcFmt i).2.toNat := by
  constructor
  · fun_cases decodeOpcFmt opc fmt <;> rintro ⟨⟩ <;> exact ⟨rfl, rfl⟩
  · rintro ⟨rfl, rfl⟩
    cases i <;> rfl

/-- Only words with zero RSV decode, by the table's pair (R110, R116). -/
theorem decode_ok_iff_fields {w : Word} {i : Instr} :
    decode w = .ok i ↔ rsvOf w = 0 ∧ opcFmt i = (opcOf w, fmtOf w) := by
  unfold decode
  split
  case isTrue hrsv =>
    rw [decodeOpcFmt_ok_iff, ← BitVec.toNat_eq, ← BitVec.toNat_eq, Prod.ext_iff, eq_comm (a := opcOf w),
      eq_comm (a := fmtOf w)]
    simp [hrsv]
  case isFalse hrsv => exact ⟨nofun, fun ⟨hzero, _⟩ => absurd hzero hrsv⟩

/-- A word decodes to a command exactly when it is the command's word. -/
theorem decode_ok_iff {w : Word} {i : Instr} : decode w = .ok i ↔ w = encode i := by
  constructor
  · intro h
    obtain ⟨hrsv, hpair⟩ := decode_ok_iff_fields.1 h
    rw [word_eq_fields w, hrsv, encode, hpair]
  · rintro rfl
    cases i <;> rfl

/-- A word read back from its bytes in bus order (20_memory.md R86). -/
theorem wordOfBytes_busBytes (w : Word) :
    wordOfBytes [BitVec.ofNat 8 w.toNat, BitVec.ofNat 8 (w.toNat / 256), BitVec.ofNat 8 (w.toNat / 65536),
      BitVec.ofNat 8 (w.toNat / 16777216)] = some w := by
  refine congrArg some (BitVec.eq_of_toNat_eq ((be32_toNat _ _ _ _).trans ?_))
  have hw : w.toNat < 2 ^ 32 := w.isLt
  simp only [BitVec.toNat_ofNat]
  omega

/-- A legal word decodes to the same command from the bytes that carry it (R111). -/
theorem decodeTableWord_of_decode {w : Word} {i : Instr} (h : decode w = .ok i) :
    decodeTableWord 32 w.toNat = some i := by
  have hw : w.toNat % 2 ^ 32 = w.toNat := Nat.mod_eq_of_lt w.isLt
  simp only [decodeTableWord, hw, w.isLt, if_true, decodeBytes, wordOfBytes_busBytes, Option.map_some, h]

/-- Settles O3: `decode_ok_iff`, and the bytes of a word give the word back. -/
theorem decodeInvertsEncode : Obligations.DecodeInvertsEncode := by
  intro i _
  have hdec : decode (encode i) = .ok i := decode_ok_iff.2 rfl
  exact ⟨hdec, decodeTableWord_of_decode hdec, fun w h => decode_ok_iff.1 h⟩

/-! ## The table of R114 -/

/-- The nineteen commands, in the order of the table. -/
def tableInstrs : List Instr :=
  [.cfgCipher, .cfgHash, .sm3Raw, .sm3Hex, .hashRaw, .hashHex, .hmacRaw, .hmacHex, .verify, .encRaw, .encHex,
    .encB64, .decRaw, .decHex, .decB64, .hexEnc, .hexDec, .b64Enc, .b64Dec]

theorem mem_tableInstrs (i : Instr) : i ∈ tableInstrs := by
  cases i <;> decide

theorem mem_map_encode_iff {w : Word} {i : Instr} :
    (w, i) ∈ tableInstrs.map (fun j => (encode j, j)) ↔ w = encode i := by
  simp [mem_tableInstrs, eq_comm]

/-- Settles O2: the rows of R114 are the words that `encode` gives the nineteen commands. -/
theorem decodeIsExactlyTheTable : Obligations.DecodeIsExactlyTheTable := fun _ _ =>
  decode_ok_iff.trans mem_map_encode_iff.symm

/-- Settles O1: one word of each family, and one word for each reason to refuse. -/
theorem tableWordsDecode : Obligations.TableWordsDecode := by
  unfold Obligations.TableWordsDecode
  decide

/-! ## Refused words -/

/-- The OPC and FMT of some command are an assigned opcode with a format legal for its class (R112, R115). -/
theorem exists_opcFmt_iff (opc : BitVec 8) (fmt : BitVec 2) :
    (∃ i, opcFmt i = (opc, fmt)) ↔
      opc ∈ assignedOpcodes ∧ fmt ≠ 0b11 ∧
        (fmt = 0b01 → opc ∈ ([0x10, 0x11, 0x12, 0x20, 0x21] : List (BitVec 8))) ∧
        (fmt = 0b10 → opc ∈ ([0x20, 0x21] : List (BitVec 8))) := by
  constructor
  · rintro ⟨i, hi⟩
    cases i <;> cases hi <;> decide
  · rintro ⟨hopc, h3, h1, h2⟩
    have hall : ∀ opc ∈ assignedOpcodes, ∀ fmt : BitVec 2, fmt ≠ 0b11 →
        (fmt = 0b01 → opc ∈ ([0x10, 0x11, 0x12, 0x20, 0x21] : List (BitVec 8))) →
        (fmt = 0b10 → opc ∈ ([0x20, 0x21] : List (BitVec 8))) →
        ∃ i ∈ tableInstrs, opcFmt i = (opc, fmt) := by
      decide
    obtain ⟨i, _, hi⟩ := hall opc hopc fmt h3 h1 h2
    exact ⟨i, hi⟩

theorem decode_error_iff {w : Word} : (∃ e, decode w = .error e) ↔ ¬ ∃ i, decode w = .ok i := by
  cases decode w <;> simp

/-- Settles O4: a word is refused where no command has its fields. -/
theorem illegalWordsByFields : Obligations.IllegalWordsByFields := by
  intro w
  simp only [decode_error_iff, decode_ok_iff_fields, exists_and_left, exists_opcFmt_iff, rsvOf, opcOf, fmtOf,
    assignedOpcodes]
  tauto

/-! ## The completion of a refused word -/

/-- A refused word is the failure with IllegalCommand, before any operand is read (R115, R413). -/
theorem completeLatched_of_error {s : State} {e : DecodeError} (h : decode s.cmdl = .error e) :
    completeLatched s = .next (completeErr s .illegalCommand) := by
  simp [completeLatched, h, complete]

theorem engineStep_of_busy {s : State} (h : s.status.busy = true) : engineStep s = completeLatched s := by
  simp [engineStep, h]

/-- Settles O6: the completion is `completeErr`, and either form of the turn is that completion. -/
theorem illegalCommandCompletes : Obligations.IllegalCommandCompletes := by
  intro s e h
  refine ⟨⟨_, _, _, completeLatched_of_error h⟩, fun hbusy hnone => ?_, fun rest hbusy hturn => ?_⟩
  · rw [step_of_no_event hnone, engineStep_of_busy hbusy]
  · rw [step_of_engineTurn hturn]
    exact engineStep_of_busy hbusy

end Sys2Proof.Machine
end

section
/-! SUPPORT. Determinism (30_encoding.md R120): two states that agree on what a command may read give it the same
result, and so complete alike. -/

namespace Sys2Proof.Machine

section
variable {s t : State} (h : SameOperands s t)
include h

theorem SameOperands.operand0_eq : operand0 s = operand0 t := by
  unfold operand0 operandAt
  rw [← h.len0, ← h.caps]
  split
  · rfl
  · rw [readBytes_congr fun k hk => h.in0 k (by omega)]

theorem SameOperands.operand1_eq : operand1 s = operand1 t := by
  unfold operand1 operandAt
  rw [← h.len1, ← h.caps]
  split
  · rfl
  · rw [readBytes_congr fun k hk => h.in1 k (by omega)]

theorem SameOperands.finish_eq (out : Bytes) (m : Bool) : finish s out m = finish t out m := by
  simp only [finish, doneWith, h.caps, h.cipher, h.hash]

theorem SameOperands.encCommon_eq : encCommon s = encCommon t := by
  simp only [encCommon, h.operand0_eq, h.cipher]

theorem SameOperands.decOperand_eq : decOperand s = decOperand t := by
  simp only [decOperand, h.operand0_eq, h.cipher]

theorem SameOperands.decFinish_eq (c : Bytes) : decFinish s c = decFinish t c := by
  simp only [decFinish, h.finish_eq, h.cipher]

theorem SameOperands.resCfgCipher_eq : resCfgCipher s = resCfgCipher t := by
  simp only [resCfgCipher, resCfgCipherEcb, resCfgCipherCbc, doneCipher, h.operand0_eq, h.operand1_eq, h.cfg,
    h.hash]

theorem SameOperands.resCfgHash_eq : resCfgHash s = resCfgHash t := by
  simp only [resCfgHash, doneHash, h.operand0_eq, h.cfg, h.cipher]

/-- A command's result is a function of its operands (R113, R120). -/
theorem SameOperands.resultOf_eq (i : Instr) : resultOf i s = resultOf i t := by
  cases i
  case cfgCipher => exact h.resCfgCipher_eq
  case cfgHash => exact h.resCfgHash_eq
  case sm3Raw | sm3Hex | hexEnc | hexDec | b64Enc | b64Dec =>
    simp only [resultOf, resSm3Raw, resSm3Hex, resHexEnc, resHexDec, resB64Enc, resB64Dec, h.operand0_eq,
      h.finish_eq]
  case hashRaw | hashHex =>
    simp only [resultOf, resHashRaw, resHashHex, h.operand0_eq, h.hash, h.finish_eq]
  case hmacRaw | hmacHex | verify =>
    simp only [resultOf, resHmacRaw, resHmacHex, resVerify, h.operand0_eq, h.operand1_eq, h.hash, h.finish_eq]
  case encRaw | encHex | encB64 =>
    simp only [resultOf, resEncRaw, resEncHex, resEncB64, h.encCommon_eq, h.finish_eq]
  case decRaw | decHex | decB64 =>
    simp only [resultOf, resDecRaw, resDecHex, resDecB64, h.decOperand_eq, h.decFinish_eq]

end

/-- A completion is a fault only by its result, whatever the state. -/
theorem complete_fault_iff {s : State} {r : Except Stop Done} {f : Fault} :
    complete s r = .fault f ↔ r = .error .uninitialized := by
  match r with
  | .ok d => simp [complete]
  | .error (.error e) => simp [complete]
  | .error .uninitialized => cases f; simp [complete]

/-- The bytes of OUT below OUTLEN after a success are the result's, whatever was stored before. -/
theorem readByte_completeOk_out (s : State) (d : Done) {k : Nat} (hk : k < (completeOk s d).outlen.toNat) :
    readByte (completeOk s d).mem (outBase + k) = d.out[k]? := by
  have hlen : k < d.out.length := by
    rw [completeOk_outlen, BitVec.toNat_ofNat] at hk
    exact hk.trans_le (Nat.mod_le _ _)
  rw [completeOk_mem, readByte_writeBytes, if_pos (by omega), Nat.add_sub_cancel_left]

/-- Settles O29: the two completions apply one result. -/
theorem resultDependsOnOperandsAlone : Obligations.ResultDependsOnOperandsAlone := by
  intro i s t h
  refine ⟨fun s' hs => ?_, fun f hf => ?_⟩
  · rw [exec_eq_complete i t, ← h.resultOf_eq]
    rcases exec_next_cases hs with ⟨d, hd, rfl⟩ | ⟨e, he, rfl⟩
    · rw [hd]
      exact ⟨completeOk t d, rfl, rfl, rfl, rfl, rfl, rfl, rfl, fun k hk =>
        (readByte_completeOk_out t d hk).trans (readByte_completeOk_out s d hk).symm⟩
    · rw [he]
      exact ⟨completeErr t e, rfl, rfl, rfl, rfl, rfl, h.cipher.symm, h.hash.symm,
        fun k hk => absurd hk (Nat.not_lt_zero k)⟩
  · rw [exec_eq_complete, complete_fault_iff] at hf ⊢
    rw [← h.resultOf_eq, hf]

end Sys2Proof.Machine
end

section
/-! SUPPORT. The SM3 message expansion and compression (41_sm3.md R147, R150 to R155): the words of a block, the
recurrence of the words after them, and the rounds as one fold over the round numbers. -/

namespace Sys2Proof.Machine

/-! ## Message expansion -/

@[simp] theorem beWords_length (b : Bytes) : (beWords b).length = b.length / 4 := by
  induction b using beWords.induct with
  | case1 b0 b1 b2 b3 rest ih => simp only [beWords, List.length_cons, ih]; omega
  | case2 b hshort =>
    match b with
    | [] => rfl
    | [_] | [_, _] | [_, _, _] => simp [beWords]
    | b0 :: b1 :: b2 :: b3 :: rest => exact absurd rfl (hshort b0 b1 b2 b3 rest)

/-- Word `j` of a string is its bytes `4j` to `4j + 3`, the first one highest (R15). -/
theorem beWords_getD {b : Bytes} {j : Nat} (hj : 4 * j + 3 < b.length) :
    (beWords b).getD j 0 =
      be32 (b.getD (4 * j) 0) (b.getD (4 * j + 1) 0) (b.getD (4 * j + 2) 0) (b.getD (4 * j + 3) 0) := by
  induction j generalizing b with
  | zero =>
    match b, hj with
    | b0 :: b1 :: b2 :: b3 :: rest, _ => rfl
  | succ j ih =>
    match b, hj with
    | b0 :: b1 :: b2 :: b3 :: rest, hj => exact ih (b := rest) (by simp only [List.length_cons] at hj; omega)

@[simp] theorem sm3ExpandFrom_length (n : Nat) (l : List Word) :
    (sm3ExpandFrom n l).length = n + l.length := by
  induction n generalizing l with
  | zero => simp [sm3ExpandFrom]
  | succ n ih => simp only [sm3ExpandFrom, ih, List.length_cons]; omega

/-- The expansion puts its `n` words in front and keeps the ones it starts from. -/
theorem sm3ExpandFrom_drop (n : Nat) (l : List Word) : (sm3ExpandFrom n l).drop n = l := by
  induction n generalizing l with
  | zero => rfl
  | succ n ih => rw [sm3ExpandFrom, ← List.drop_drop, ih, List.drop_one, List.tail_cons]

theorem getD_drop (l : List Word) (k i : Nat) : (l.drop k).getD i 0 = l.getD (k + i) 0 := by
  simp [List.getD_eq_getElem?_getD]

/-- Each of the `n` words in front is the next word of those after it. -/
theorem sm3ExpandFrom_getD {n i : Nat} (l : List Word) (hi : i < n) :
    (sm3ExpandFrom n l).getD i 0 = sm3NextW ((sm3ExpandFrom n l).drop (i + 1)) := by
  induction n generalizing l with
  | zero => omega
  | succ n ih =>
    rw [sm3ExpandFrom]
    rcases Nat.lt_succ_iff_lt_or_eq.1 hi with hlt | rfl
    · exact ih _ hlt
    · have hkept := sm3ExpandFrom_drop i (sm3NextW l :: l)
      have hword := getD_drop (sm3ExpandFrom i (sm3NextW l :: l)) i 0
      rw [hkept] at hword
      rw [← List.drop_drop, hkept]
      exact hword.symm

theorem sm3W_length {b : Bytes} (hb : b.length = 64) : (sm3W b).length = 68 := by simp [sm3W, hb]

theorem sm3W'_length {w : List Word} (hw : w.length = 68) : (sm3W' w).length = 64 := by simp [sm3W', hw]

/-- The words of the block, newest first, and the 52 in front of them. -/
theorem sm3W_getD {b : Bytes} (hb : b.length = 64) {j : Nat} (hj : j < 68) :
    (sm3W b).getD j 0 = (sm3ExpandFrom 52 (beWords b).reverse).getD (67 - j) 0 := by
  rw [sm3W, List.getD_reverse _ (by simp [hb, hj])]
  simp [hb]

theorem sm3W_getD_of_lt {b : Bytes} (hb : b.length = 64) {j : Nat} (hj : j < 16) :
    (sm3W b).getD j 0 = (beWords b).getD j 0 := by
  have hkept := getD_drop (sm3ExpandFrom 52 (beWords b).reverse) 52 (15 - j)
  rw [sm3ExpandFrom_drop, List.getD_reverse _ (by simp [hb]; omega)] at hkept
  rw [sm3W_getD hb (by omega), show 67 - j = 52 + (15 - j) by omega, ← hkept, beWords_length, hb,
    show 64 / 4 - 1 - (15 - j) = j by omega]

theorem sm3W_recurrence {b : Bytes} (hb : b.length = 64) {j : Nat} (h16 : 16 ≤ j) (hj : j < 68) :
    (sm3W b).getD j 0 =
      sm3P1 ((sm3W b).getD (j - 16) 0 ^^^ (sm3W b).getD (j - 9) 0 ^^^ rotl ((sm3W b).getD (j - 3) 0) 15)
        ^^^ rotl ((sm3W b).getD (j - 13) 0) 7 ^^^ (sm3W b).getD (j - 6) 0 := by
  have hplace : ∀ k, k < j → (sm3W b).getD (j - (k + 1)) 0 =
      ((sm3ExpandFrom 52 (beWords b).reverse).drop (67 - j + 1)).getD k 0 := by
    intro k hk
    rw [sm3W_getD hb (by omega), getD_drop]
    congr 1; omega
  rw [sm3W_getD hb hj, sm3ExpandFrom_getD _ (by omega), sm3NextW, ← hplace 15 (by omega), ← hplace 8 (by omega),
    ← hplace 2 (by omega), ← hplace 12 (by omega), ← hplace 5 (by omega)]

theorem sm3W'_getD {w : List Word} {j : Nat} (hj : j + 4 < w.length) :
    (sm3W' w).getD j 0 = w.getD j 0 ^^^ w.getD (j + 4) 0 := by
  have h4 : w[4 + j]? = some (w[j + 4]) := by rw [Nat.add_comm]; exact List.getElem?_eq_getElem hj
  simp [sm3W', List.getD_eq_getElem?_getD, List.getElem?_zipWith, h4, hj, show j < w.length by omega]

/-- Settles O38: the last 16 places hold the block's words, and each place in front of them the next word. -/
theorem sm3ExpansionRecurrence : Obligations.Sm3ExpansionRecurrence := by
  intro b hb w w'
  have hw : w.length = 68 := sm3W_length hb
  refine ⟨hw, sm3W'_length hw, fun j hj => ?_, fun j h16 hj => sm3W_recurrence hb h16 hj,
    fun j hj => sm3W'_getD (by omega)⟩
  exact (sm3W_getD_of_lt hb hj).trans (beWords_getD (by omega))

/-! ## Compression -/

/-- The rounds from number `j` on are one fold over the places of the schedule. -/
theorem sm3Rounds_eq_foldl (j : Nat) (ws ws' : List Word) (r : Sm3Regs) (hlen : ws'.length ≤ ws.length) :
    sm3Rounds j ws ws' r =
      (List.range ws'.length).foldl (fun r i => sm3Round (j + i) (ws.getD i 0) (ws'.getD i 0) r) r := by
  induction ws' generalizing j ws r with
  | nil => cases ws <;> rfl
  | cons w' ws' ih =>
    cases ws with
    | nil => simp at hlen
    | cons w ws =>
      rw [sm3Rounds, ih _ _ _ (by simpa using hlen), List.length_cons, List.range_succ_eq_map, List.foldl_cons,
        List.foldl_map]
      simp only [List.getD_cons_zero, List.getD_cons_succ, Nat.add_zero, Nat.succ_eq_add_one, Nat.add_assoc,
        Nat.add_comm 1]

/-- CF of a block is the 64 rounds in order and the feed-forward (R155). -/
theorem sm3CF_eq_foldl (v : Sm3Regs) {b : Bytes} (hb : b.length = 64) :
    sm3CF v b =
      sm3Feed ((List.range 64).foldl
        (fun r j => sm3Round j ((sm3W b).getD j 0) ((sm3W' (sm3W b)).getD j 0) r) v) v := by
  have hw := sm3W_length hb
  have hw' := sm3W'_length hw
  rw [sm3CF, sm3Rounds_eq_foldl _ _ _ _ (by omega), hw']
  simp only [Nat.zero_add]

/-- Settles O39: each round of `sm3CF_eq_foldl` is the update of R152. -/
theorem sm3CompressionRounds : Obligations.Sm3CompressionRounds := fun v _ hb => sm3CF_eq_foldl v hb

end Sys2Proof.Machine
end

section
/-! SUPPORT. The SM3 padding (41_sm3.md R146), the blocks of the padded message in order (R156, R158), and the
commands SM3.RAW and SM3.HEX (R160, R161). -/

namespace Sys2Proof.Machine

/-! ## Padding -/

/-- Reading on over the four bytes of a word adds the word as four more digits (R15). -/
theorem foldl_be32bytes (x : Word) (a : Nat) :
    (be32bytes x).foldl (fun x b => x * 256 + b.toNat) a = a * 2 ^ 32 + x.toNat := by
  have hx : x.toNat < 2 ^ 32 := x.isLt
  simp only [be32bytes, wordByte, List.foldl_cons, List.foldl_nil, BitVec.extractLsb'_toNat,
    Nat.shiftRight_eq_div_pow]
  omega

/-- `be64bytes(n)` reads as n mod 2^64 (R15). -/
theorem foldl_be64bytes (n : Nat) : (be64bytes n).foldl (fun x b => x * 256 + b.toNat) 0 = n % 2 ^ 64 := by
  rw [be64bytes, List.foldl_append, foldl_be32bytes, foldl_be32bytes, BitVec.toNat_ofNat, BitVec.toNat_ofNat]
  omega

/-- The zero bytes fill the block up to its last eight bytes (R146). -/
theorem pad3Zeros_spec (n : Nat) : pad3Zeros n < 64 ∧ (pad3Zeros n + n) % 64 = 55 := by
  rw [pad3Zeros]; omega

theorem pad3_length (m : Bytes) : (pad3 m).length = 64 * ((m.length + 8) / 64 + 1) := by
  have hzeros := pad3Zeros_spec m.length
  simp only [pad3, List.length_append, List.length_cons, List.length_nil, repByte_length, be64bytes_length]
  omega

/-- Settles O37: the zero bytes and the length bytes are those of `pad3`. -/
theorem sm3PaddingShape : Obligations.Sm3PaddingShape := by
  intro m
  obtain ⟨hlt, hmod⟩ := pad3Zeros_spec m.length
  exact ⟨pad3Zeros m.length, be64bytes (8 * m.length), hlt, hmod, rfl, be64bytes_length _, foldl_be64bytes _,
    pad3_length m⟩

/-! ## Blocks -/

/-- A block after a string of whole blocks is the last block of the whole. -/
theorem blocksOf_append_block {size n : Nat} {p b : Bytes} (hp : p.length = size * n) (hb : b.length = size) :
    blocksOf size (n + 1) (p ++ b) = blocksOf size n p ++ [b] := by
  have hsize : ∀ q ∈ blocksOf size n p ++ [b], q.length = size := by
    intro q hq
    rcases List.mem_append.1 hq with hq | hq
    · exact blocksOf_mem_length size n p hp q hq
    · rw [List.mem_singleton.1 hq, hb]
  have hcut := blocksOf_of_flatten size _ hsize
  simpa [blocksOf_flatten size n p hp] using hcut

/-- One more block is one more compression (R156). -/
theorem sm3Iterate_append_block {p b : Bytes} (hp : p.length % 64 = 0) (hb : b.length = 64) :
    sm3Iterate (p ++ b) = sm3CF (sm3Iterate p) b := by
  have hcount : (p ++ b).length / 64 = p.length / 64 + 1 := by rw [List.length_append]; omega
  rw [sm3Iterate, hcount, blocksOf_append_block (by omega) hb, List.foldl_append]
  rfl

/-- Settles O40: IV is the value of no blocks, and the digest's bytes are those of `be32bytes`. -/
theorem sm3BlocksInOrder : Obligations.Sm3BlocksInOrder :=
  ⟨rfl, fun _ _ hp hb => sm3Iterate_append_block hp hb, fun _ => rfl⟩

/-! ## SM3.RAW and SM3.HEX -/

theorem resSm3Raw_of_operand0 {s : State} {m : Bytes} (h : operand0 s = .ok m) :
    resultOf .sm3Raw s = finish s (sm3 m) false := by
  simp [resultOf, resSm3Raw, h]

theorem resSm3Hex_of_operand0 {s : State} {m : Bytes} (h : operand0 s = .ok m) :
    resultOf .sm3Hex s = finish s (hex (sm3 m)) false := by
  simp [resultOf, resSm3Hex, h]

/-- A fetched m0 is all that SM3.RAW and SM3.HEX need: the digest fits every OUT. -/
theorem resultOf_sm3_ok {i : Instr} {s : State} {m : Bytes} (hi : i ∈ ([.sm3Raw, .sm3Hex] : List Instr))
    (h : operand0 s = .ok m) : ∃ d, resultOf i s = .ok d := by
  simp only [List.mem_cons, List.not_mem_nil, or_false] at hi
  rcases hi with rfl | rfl
  · exact ⟨_, (resSm3Raw_of_operand0 h).trans (finish_of_le_64 (by simp))⟩
  · exact ⟨_, (resSm3Hex_of_operand0 h).trans (finish_of_le_64 (by simp))⟩

/-- The one error SM3.RAW and SM3.HEX report is that of fetching m0 past IN0. -/
theorem resultOf_sm3_error {i : Instr} {s : State} {e : CmdError} (hi : i ∈ ([.sm3Raw, .sm3Hex] : List Instr))
    (h : resultOf i s = .error (.error e)) : e = .capacityExceeded ∧ s.caps.in0.val < s.len0.toNat := by
  cases h0 : operand0 s with
  | ok m =>
    obtain ⟨d, hd⟩ := resultOf_sm3_ok hi h0
    rw [hd] at h; cases h
  | error e' =>
    have hne : i ≠ .cfgHash := by rintro rfl; simp at hi
    have hfetch := resultOf_of_operand0_error hne h0
    rw [hfetch] at h; cases h
    exact operandAt_error h0

/-- Settles O36: the digest of a fetched m0 fits every OUT, and the fetch is the only check. -/
theorem sm3CommandsComplete : Obligations.Sm3CommandsComplete := by
  intro s
  refine ⟨fun m hm => ?_, fun hlen => ?_, fun i hi t ht => ?_⟩
  · have h0 := operand0_of_is hm
    exact ⟨succeeds_of_finish_64 (resSm3Raw_of_operand0 h0) (by simp),
      succeeds_of_finish_64 (resSm3Hex_of_operand0 h0) (by simp), sm3_length m, by simp⟩
  · have h0 := operand0_of_lt hlen
    exact ⟨failsWith_of_error (i := .sm3Raw) (resultOf_of_operand0_error nofun h0),
      failsWith_of_error (i := .sm3Hex) (resultOf_of_operand0_error nofun h0)⟩
  · rcases exec_next_cases ht with ⟨d, _, rfl⟩ | ⟨e, he, rfl⟩
    · exact .inl rfl
    · obtain ⟨rfl, hlen⟩ := resultOf_sm3_error hi he
      exact .inr ⟨rfl, hlen⟩

end Sys2Proof.Machine
end

section
/-! SUPPORT. HMAC-SM3, the hash entry point and verify (42_hmac.md): the normalised key K0 (R201, R205), the
lower-case form verify compares (R206), and the commands HMAC.*, HASH.* and VERIFY (R210 to R214). -/

namespace Sys2Proof.Machine

/-! ## The normalised key -/

theorem hmacK0_of_le {k : Bytes} (h : k.length ≤ 64) : hmacK0 k = k ++ repByte 0x00 (64 - k.length) :=
  if_neg (Nat.not_lt.2 h)

theorem hmacK0_of_lt {k : Bytes} (h : 64 < k.length) : hmacK0 k = sm3 k ++ repByte 0x00 32 := if_pos h

/-- The zero byte of a longer key is the first of the zero bytes that fill the shorter one. -/
theorem hmacK0_append_zero {k : Bytes} (h : k.length < 64) : hmacK0 (k ++ [0x00]) = hmacK0 k := by
  have hfill : 64 - k.length = 64 - (k ++ [0x00]).length + 1 := by
    rw [List.length_append, List.length_singleton]; omega
  rw [hmacK0_of_le (Nat.le_of_lt h), hfill, hmacK0_of_le (by simpa using h), List.append_assoc]
  rfl

/-- A digest is a key of 32 bytes, filled with the same 32 zero bytes as the long key it stands for. -/
theorem hmacK0_sm3 {k : Bytes} (h : 64 < k.length) : hmacK0 (sm3 k) = hmacK0 k := by
  rw [hmacK0_of_le (by simp), hmacK0_of_lt h, sm3_length]

/-- HMAC sees the key through K0 alone. -/
theorem hmac_eq_of_hmacK0_eq {k k' : Bytes} (m : Bytes) (h : hmacK0 k' = hmacK0 k) : hmac m k' = hmac m k :=
  congrArg (hmac0 m) h

/-- Settles O45: equal normalised keys give equal HMACs, and K0 takes a key with one zero byte more, and the digest
of a long key, to the K0 of the key itself. -/
theorem hmacKeyEquivalence : Obligations.HmacKeyEquivalence := fun m k =>
  ⟨hmacK0_of_le, hmacK0_of_lt, hmacK0_length k, fun _ _ => rfl, rfl, fun _ h => hmac_eq_of_hmacK0_eq m h,
    fun h => hmac_eq_of_hmacK0_eq m (hmacK0_append_zero h), fun h => hmac_eq_of_hmacK0_eq m (hmacK0_sm3 h)⟩

/-! ## Lower case -/

@[simp] theorem lower_length (b : Bytes) : (lower b).length = b.length := by simp [lower]

theorem lowerByte_hexDigit {v : Nat} (hv : v < 16) : lowerByte (hexDigit v) = hexDigit v := by
  revert v; decide

/-- A hex text is its own lower-case form. -/
@[simp] theorem lower_hex (b : Bytes) : lower (hex b) = hex b := by
  have hself : ∀ c ∈ hex b, lowerByte c = c := by
    intro c hc
    obtain ⟨x, -, hx⟩ := List.mem_flatMap.1 hc
    have hxlt : x.toNat < 256 := x.isLt
    simp only [List.mem_cons, List.not_mem_nil, or_false] at hx
    rcases hx with rfl | rfl
    · exact lowerByte_hexDigit (by omega)
    · exact lowerByte_hexDigit (by omega)
  exact (List.map_congr_left hself).trans (List.map_id _)

theorem verifyDigest_iff {h : HashInst} {m cand : Bytes} :
    verifyDigest h m cand = true ↔ lower cand = lower (hex (hashSurface h m)) := beq_iff_eq

theorem verifyDigest_eq_false_iff {h : HashInst} {m cand : Bytes} :
    verifyDigest h m cand = false ↔ lower cand ≠ lower (hex (hashSurface h m)) := beq_eq_false_iff_ne

/-- Settles O44: the digest's hex is its own lower-case form, 64 characters long. -/
theorem verifyIsCaseInsensitive : Obligations.VerifyIsCaseInsensitive := by
  intro h m cand
  refine ⟨verifyDigest_iff.2 rfl, by rw [verifyDigest_iff, lower_hex], fun hlen => verifyDigest_eq_false_iff.2 fun heq => hlen ?_⟩
  have hlens := congrArg List.length heq
  rwa [lower_length, lower_length, hex_length, hashSurface_length] at hlens

/-! ## HMAC.RAW and HMAC.HEX -/

section
variable {s : State} {m k : Bytes} (h0 : operand0 s = .ok m) (h1 : operand1 s = .ok k)
include h0 h1

theorem resHmacRaw_of_operands : resultOf .hmacRaw s = finish s (hmac m k) false := by
  simp [resultOf, resHmacRaw, h0, h1]

theorem resHmacHex_of_operands : resultOf .hmacHex s = finish s (hex (hmac m k)) false := by
  simp [resultOf, resHmacHex, h0, h1]

end

/-- Settles O41: the HMAC of the two fetched operands fits every OUT, raw and in hex. -/
theorem hmacCommandsComplete : Obligations.HmacCommandsComplete := by
  intro s m k hm hk
  have h0 := operand0_of_is hm
  have h1 := operand1_of_is hk
  exact ⟨succeeds_of_finish_64 (resHmacRaw_of_operands h0 h1) (by simp),
    succeeds_of_finish_64 (resHmacHex_of_operands h0 h1) (by simp), hmac_length m k⟩

/-! ## HASH.RAW and HASH.HEX -/

theorem hashSurface_of_plain {h : HashInst} (hh : h.hmac = false) (m : Bytes) : hashSurface h m = sm3 m := by
  simp [hashSurface, hh]

theorem hashSurface_of_hmac {h : HashInst} (hh : h.hmac = true) (m : Bytes) :
    hashSurface h m = hmac0 m h.hk0.toList := if_pos hh

/-- Both commands complete with the hash entry point's answer, whichever it is: it fits every OUT. -/
theorem hash_succeeds {s : State} {m : Bytes} (hm : OperandIs0 s m) :
    Succeeds .hashRaw s (hashSurface s.hash m) false ∧ Succeeds .hashHex s (hex (hashSurface s.hash m)) false := by
  have h0 := operand0_of_is hm
  exact ⟨succeeds_of_finish_64 (by simp [resultOf, resHashRaw, h0]) (by simp),
    succeeds_of_finish_64 (by simp [resultOf, resHashHex, h0]) (by simp)⟩

/-- Settles O42: I_HMAC alone chooses what the hash entry point answers. -/
theorem hashCommandsComplete : Obligations.HashCommandsComplete := by
  intro s m hm
  have hdone := hash_succeeds hm
  constructor
  · intro hplain
    rwa [hashSurface_of_plain hplain] at hdone
  · intro hkeyed
    rwa [hashSurface_of_hmac hkeyed] at hdone

/-! ## VERIFY -/

/-- VERIFY answers with the flag and with the one byte that repeats it. -/
theorem verify_succeeds {s : State} {m cand : Bytes} (hm : OperandIs0 s m) (hc : OperandIs1 s cand) :
    Succeeds .verify s [if verifyDigest s.hash m cand then 0x01 else 0x00] (verifyDigest s.hash m cand) :=
  succeeds_of_finish_64 (by simp [resultOf, resVerify, operand0_of_is hm, operand1_of_is hc]) (by simp)

/-- Settles O43: the flag is the comparison of the two lower-case forms. -/
theorem verifyCompletes : Obligations.VerifyCompletes := by
  intro s m cand hm hc
  have hdone := verify_succeeds hm hc
  constructor
  · intro heq
    rwa [verifyDigest_iff.2 heq] at hdone
  · intro hne
    rwa [verifyDigest_eq_false_iff.2 hne] at hdone

end Sys2Proof.Machine
end

section
/-! SUPPORT. SM4 (43_sm4.md R246 to R256): the words of a block as bytes and back, the round that undoes a round, and
the words a moving window runs through, which the key schedule and the block transform share. -/

namespace Sys2Proof.Machine

/-! ## Words and their bytes -/

/-- A byte of a word as a digit of its value (R15). -/
theorem wordByte_toNat (x : Word) (k : Nat) : (wordByte x k).toNat = x.toNat / 2 ^ (8 * (3 - k)) % 256 := by
  rw [wordByte, BitVec.extractLsb'_toNat, Nat.shiftRight_eq_div_pow]

/-- A word is the big-endian word of its four bytes. -/
theorem be32_wordByte (x : Word) : be32 (wordByte x 0) (wordByte x 1) (wordByte x 2) (wordByte x 3) = x := by
  have hx : x.toNat < 2 ^ 32 := x.isLt
  refine BitVec.eq_of_toNat_eq ?_
  simp only [be32_toNat, wordByte_toNat]
  omega

theorem be32bytes_be32 (b0 b1 b2 b3 : Byte) : be32bytes (be32 b0 b1 b2 b3) = [b0, b1, b2, b3] := by
  have h0 : b0.toNat < 2 ^ 8 := b0.isLt
  have h1 : b1.toNat < 2 ^ 8 := b1.isLt
  have h2 : b2.toNat < 2 ^ 8 := b2.isLt
  have h3 : b3.toNat < 2 ^ 8 := b3.isLt
  simp only [be32bytes, List.cons.injEq, and_true]
  refine ⟨?_, ?_, ?_, ?_⟩ <;>
  · refine BitVec.eq_of_toNat_eq ?_
    rw [wordByte_toNat, be32_toNat]
    omega

@[simp] theorem beWords_beBytes (ws : List Word) : beWords (beBytes ws) = ws := by
  induction ws with
  | nil => rfl
  | cons w ws ih =>
    change be32 (wordByte w 0) (wordByte w 1) (wordByte w 2) (wordByte w 3) :: beWords (beBytes ws) = w :: ws
    rw [be32_wordByte, ih]

/-- Whole words keep every byte of the string. -/
theorem beBytes_beWords {b : Bytes} (h : b.length % 4 = 0) : beBytes (beWords b) = b := by
  induction b using beWords.induct with
  | case1 b0 b1 b2 b3 rest ih =>
    change be32bytes (be32 b0 b1 b2 b3) ++ beBytes (beWords rest) = _
    rw [be32bytes_be32, ih (by simp only [List.length_cons] at h; omega)]
    rfl
  | case2 b hshort =>
    match b with
    | [] => rfl
    | [_] | [_, _] | [_, _, _] => simp at h
    | b0 :: b1 :: b2 :: b3 :: rest => exact absurd rfl (hshort b0 b1 b2 b3 rest)

/-! ## The words of a window -/

def quadWords (q : Quad) : List Word := [q.x0, q.x1, q.x2, q.x3]

/-- A window read backwards, the order in which the output's words are serialised (R252). -/
def quadReverse (q : Quad) : Quad := { x0 := q.x3, x1 := q.x2, x2 := q.x1, x3 := q.x0 }

theorem quadWords_quadOfBytes {b : Bytes} (hb : b.length = 16) : quadWords (quadOfBytes b) = beWords b := by
  obtain ⟨w0, w1, w2, w3, hw⟩ : ∃ w0 w1 w2 w3, beWords b = [w0, w1, w2, w3] :=
    List.length_eq_four.1 (by rw [beWords_length, hb])
  rw [quadOfBytes, hw]
  rfl

/-- The first window's words are those of the string it is read from (R248, R251). -/
theorem quadWords_quadOfBytes_getD {b : Bytes} (hb : b.length = 16) {i : Nat} (hi : i < 4) :
    (quadWords (quadOfBytes b)).getD i 0 =
      be32 (b.getD (4 * i) 0) (b.getD (4 * i + 1) 0) (b.getD (4 * i + 2) 0) (b.getD (4 * i + 3) 0) := by
  rw [quadWords_quadOfBytes hb, beWords_getD (by omega)]

theorem sm4Output_eq_beBytes (q : Quad) : sm4Output q = beBytes (quadWords (quadReverse q)) := by
  simp [sm4Output, beBytes, quadWords, quadReverse]

/-! ## Decryption undoes encryption -/

theorem quadOfBytes_sm4Output (q : Quad) : quadOfBytes (sm4Output q) = quadReverse q := by
  rw [quadOfBytes, sm4Output_eq_beBytes, beWords_beBytes]
  rfl

theorem sm4Output_quadReverse_quadOfBytes {b : Bytes} (hb : b.length = 16) :
    sm4Output (quadReverse (quadOfBytes b)) = b := by
  calc sm4Output (quadReverse (quadOfBytes b))
      = beBytes (quadWords (quadOfBytes b)) := sm4Output_eq_beBytes _
    _ = b := by rw [quadWords_quadOfBytes hb, beBytes_beWords (by omega)]

/-- A round is undone by the same round on the reversed window: the three words in T are the same ones, and XOR with
T's value twice gives back the word that left the window. -/
theorem sm4Round_undoes (q : Quad) (rk : Word) :
    sm4Round (quadReverse (sm4Round q rk)) rk = quadReverse q := by
  have hT : q.x3 ^^^ q.x2 ^^^ q.x1 ^^^ rk = q.x1 ^^^ q.x2 ^^^ q.x3 ^^^ rk := by
    rw [BitVec.xor_comm q.x3, BitVec.xor_comm _ q.x1, ← BitVec.xor_assoc]
  have hword : sm4RoundWord (quadReverse (sm4Round q rk)) rk = q.x0 := by
    change q.x0 ^^^ sm4T (q.x1 ^^^ q.x2 ^^^ q.x3 ^^^ rk) ^^^ sm4T (q.x3 ^^^ q.x2 ^^^ q.x1 ^^^ rk) = q.x0
    rw [hT, BitVec.xor_assoc, BitVec.xor_self, BitVec.xor_zero]
  rw [sm4Round, hword]
  rfl

/-- Rounds are undone by the same round keys in reverse order. -/
theorem sm4Rounds_undo (rks : List Word) (q : Quad) :
    rks.reverse.foldl sm4Round (quadReverse (rks.foldl sm4Round q)) = quadReverse q := by
  induction rks generalizing q with
  | nil => rfl
  | cons rk rks ih =>
    rw [List.reverse_cons, List.foldl_append]
    change sm4Round (rks.reverse.foldl sm4Round (quadReverse (rks.foldl sm4Round (sm4Round q rk)))) rk = quadReverse q
    rw [ih]
    exact sm4Round_undoes q rk

theorem sm4Crypt_reverse {b : Bytes} (hb : b.length = 16) (rks : List Word) :
    sm4Crypt (sm4Crypt b rks) rks.reverse = b := by
  rw [sm4Crypt, sm4Crypt, quadOfBytes_sm4Output, sm4Rounds_undo, sm4Output_quadReverse_quadOfBytes hb]

/-- Settles O46: both directions are `sm4Crypt_reverse`, the second for the reversed round keys. -/
theorem sm4BlockInverse : Obligations.Sm4BlockInverse := by
  intro rk b hb
  have hencdec : sm4Enc rk (sm4Dec rk b) = b := by
    have h := sm4Crypt_reverse hb rk.reverse
    rwa [List.reverse_reverse] at h
  exact ⟨sm4Crypt_reverse hb rk, hencdec, sm4Enc_length rk b, sm4Dec_length rk b⟩

/-! ## The words of a recurrence -/

/-- The words that enter a moving window (R256), one new word `f q c` for each constant or round key. -/
def newWords (f : Quad → Word → Word) : List Word → Quad → List Word
  | [], _ => []
  | c :: cs, q => f q c :: newWords f cs (quadPush q (f q c))

/-- All the words the window runs through: those of the first window, then the new ones. -/
def windowWords (f : Quad → Word → Word) (cs : List Word) (q : Quad) : List Word := quadWords q ++ newWords f cs q

/-- The window of a list of words at place `i`. -/
def windowAt (ws : List Word) (i : Nat) : Quad :=
  { x0 := ws.getD i 0, x1 := ws.getD (i + 1) 0, x2 := ws.getD (i + 2) 0, x3 := ws.getD (i + 3) 0 }

@[simp] theorem newWords_length (f : Quad → Word → Word) (cs : List Word) (q : Quad) :
    (newWords f cs q).length = cs.length := by
  induction cs generalizing q with
  | nil => rfl
  | cons c cs ih => rw [newWords, List.length_cons, List.length_cons, ih]

@[simp] theorem windowWords_length (f : Quad → Word → Word) (cs : List Word) (q : Quad) :
    (windowWords f cs q).length = cs.length + 4 := by
  simp [windowWords, quadWords]

theorem windowWords_getD_of_lt (f : Quad → Word → Word) (cs : List Word) (q : Quad) {i : Nat} (hi : i < 4) :
    (windowWords f cs q).getD i 0 = (quadWords q).getD i 0 :=
  List.getD_append _ _ _ _ hi

/-- The window at place `i` is the first one moved on over the first `i` constants. -/
theorem windowAt_windowWords (f : Quad → Word → Word) {cs : List Word} {i : Nat} (hi : i ≤ cs.length) (q : Quad) :
    windowAt (windowWords f cs q) i = (cs.take i).foldl (fun q c => quadPush q (f q c)) q := by
  induction cs generalizing i q with
  | nil =>
    obtain rfl : i = 0 := Nat.le_zero.1 hi
    rfl
  | cons c cs ih =>
    match i with
    | 0 => rfl
    | i + 1 => exact ih (Nat.le_of_succ_le_succ hi) (quadPush q (f q c))

/-- The recurrence: each word after the first four is `f` of the window before it. -/
theorem windowWords_getD {f : Quad → Word → Word} {cs : List Word} {i : Nat} (hi : i < cs.length) (q : Quad) :
    (windowWords f cs q).getD (i + 4) 0 = f (windowAt (windowWords f cs q) i) (cs.getD i 0) := by
  have hnext := windowAt_windowWords f (Nat.succ_le_of_lt hi) q
  rw [List.take_succ_eq_append_getElem hi, List.foldl_append, ← windowAt_windowWords f hi.le] at hnext
  rw [List.getD_eq_getElem _ _ hi]
  exact congrArg Quad.x3 hnext

/-! ## The key schedule -/

theorem sm4Keys_eq_newWords (cks : List Word) (q : Quad) : sm4Keys cks q = newWords sm4KeyStep cks q := by
  induction cks generalizing q with
  | nil => rfl
  | cons ck cks ih => rw [sm4Keys, newWords, ih]

/-- K[0..3] are the key's words masked by FK (R249). -/
theorem quadWords_sm4KeyInit_getD (key : Bytes) {i : Nat} (hi : i < 4) :
    (quadWords (sm4KeyInit key)).getD i 0 = (quadWords (quadOfBytes key)).getD i 0 ^^^ (quadWords sm4FK).getD i 0 := by
  match i, hi with
  | 0, _ | 1, _ | 2, _ | 3, _ => rfl

theorem sm4CK_list_getD {i : Nat} (hi : i < 32) : ((List.range 32).map sm4CK).getD i 0 = sm4CK i := by
  simp [List.getD_eq_getElem?_getD, hi]

/-- Settles O47: K[0..35] are the words the window of the schedule runs through. -/
theorem sm4ScheduleRecurrence : Obligations.Sm4ScheduleRecurrence := by
  intro key hkey
  refine ⟨windowWords sm4KeyStep ((List.range 32).map sm4CK) (sm4KeyInit key), by simp,
    sm4Keys_eq_newWords _ _, fun i hi => ?_, fun i hi => ?_⟩
  · rw [windowWords_getD_of_lt _ _ _ hi, quadWords_sm4KeyInit_getD key hi, quadWords_quadOfBytes_getD hkey hi]
    rfl
  · rw [windowWords_getD (by simpa using hi), sm4CK_list_getD hi]
    rfl

/-! ## The block transform -/

/-- The transform's output is the last window of its words. -/
theorem sm4Crypt_eq_lastWindow (b : Bytes) (rks : List Word) :
    sm4Crypt b rks = sm4Output (windowAt (windowWords sm4RoundWord rks (quadOfBytes b)) rks.length) := by
  rw [windowAt_windowWords _ le_rfl, List.take_length]
  rfl

/-- Settles O48: X[0..35] are the words the window of the transform runs through; decryption is the transform under the
reversed list, whose place `i` is place `31 - i` of the round keys. -/
theorem sm4RoundRecurrence : Obligations.Sm4RoundRecurrence := by
  intro b rk hb hrk transforms
  have hrun : ∀ {rks : List Word} {r : Nat → Word}, rks.length = 32 → (∀ i, i < 32 → rks.getD i 0 = r i) →
      transforms r (sm4Crypt b rks) := by
    intro rks r hlen hr
    refine ⟨windowWords sm4RoundWord rks (quadOfBytes b), by simp [hlen],
      fun i hi => (windowWords_getD_of_lt _ _ _ hi).trans (quadWords_quadOfBytes_getD hb hi), fun i hi => ?_, ?_⟩
    · rw [windowWords_getD (by omega), hr i hi]
      rfl
    · rw [sm4Crypt_eq_lastWindow, hlen]
      rfl
  have henc := hrun hrk (fun i _ => rfl)
  refine ⟨henc, henc, hrun (by simpa using hrk) fun i hi => ?_⟩
  rw [List.getD_reverse _ (by omega), hrk]

end Sys2Proof.Machine
end

section
/-! SUPPORT. The paddings (44_blockmode.md R291 to R293) and their removal (R294 to R296): the strings pkcs7 removal
takes, the zeros that zero removal strips, and when a removal gives back what was padded. -/

namespace Sys2Proof.Machine

/-! ## PKCS#7 -/

/-- PKCS#7 removal takes the strings that end in n bytes of value n, and no others (R294). -/
theorem unpadBytes_pkcs7_ok_iff {q r : Bytes} :
    unpadBytes .pkcs7 q = .ok r ↔ ∃ n, 1 ≤ n ∧ n ≤ 16 ∧ q = r ++ List.replicate n (BitVec.ofNat 8 n) := by
  constructor
  · intro h
    simp only [unpadBytes, unpadPkcs7] at h
    split at h
    · cases h
    · next last _ =>
      split_ifs at h with hrange htail
      have hlast : BitVec.ofNat 8 last.toNat = last := by simp
      rw [not_or] at hrange
      injection h with h
      refine ⟨last.toNat, by omega, by omega, ?_⟩
      calc q = q.take (q.length - last.toNat) ++ q.drop (q.length - last.toNat) := (List.take_append_drop ..).symm
        _ = r ++ List.replicate last.toNat (BitVec.ofNat 8 last.toNat) := by
          rw [h, not_not.1 htail, hlast, repByte]
  · rintro ⟨n, hpos, hle, rfl⟩
    have hlast : (r ++ List.replicate n (BitVec.ofNat 8 n)).getLast? = some (BitVec.ofNat 8 n) := by
      simp [List.getLast?_append, List.getLast?_replicate, Nat.ne_of_gt hpos]
    have hn : (BitVec.ofNat 8 n).toNat = n := by rw [BitVec.toNat_ofNat]; omega
    simpa [unpadBytes, unpadPkcs7, hlast, hn, repByte] using And.intro (Nat.ne_of_gt hpos) hle

/-- What pkcs7 removal does not take it refuses as InvalidPaddingBytes, its one error. -/
theorem unpadBytes_pkcs7_of_not_ok {q : Bytes} (h : ∀ r, unpadBytes .pkcs7 q ≠ .ok r) :
    unpadBytes .pkcs7 q = .error .invalidPaddingBytes := by
  simp only [unpadBytes, unpadPkcs7] at h ⊢
  split
  · rfl
  · next last hlast =>
    simp only [hlast] at h
    split_ifs at h ⊢
    · rfl
    · rfl
    · exact absurd rfl (h _)

/-! ## Zero padding -/

/-- Zero removal is the library's drop from the right end. -/
theorem unpadZero_eq_rdropWhile (q : Bytes) : unpadZero q = q.rdropWhile (· == 0x00) := rfl

/-- Zeros at the end do not matter to zero removal (R295). -/
theorem unpadZero_append_zeros (p : Bytes) (z : Nat) : unpadZero (p ++ List.replicate z 0x00) = unpadZero p := by
  induction z with
  | zero => rw [List.replicate_zero, List.append_nil]
  | succ z ih =>
    rw [List.replicate_succ', ← List.append_assoc, unpadZero_eq_rdropWhile, List.rdropWhile_concat_pos _ _ _ rfl]
    exact ih

/-- Zero removal leaves exactly the strings that do not end in 0x00. -/
theorem unpadZero_eq_self_iff {p : Bytes} : unpadZero p = p ↔ p.getLast? ≠ some 0x00 := by
  rw [unpadZero_eq_rdropWhile, List.rdropWhile_eq_self_iff]
  cases p using List.reverseRecOn with
  | nil => simp
  | append_singleton p x => simp

theorem unpadZero_getLast? (p : Bytes) : (unpadZero p).getLast? ≠ some 0x00 :=
  unpadZero_eq_self_iff.1 (List.rdropWhile_idempotent _ p)

/-- What zero removal takes away is zeros (R295). -/
theorem exists_zeros_of_unpadZero (p : Bytes) : ∃ z, p = unpadZero p ++ List.replicate z 0x00 := by
  have htail : ∀ x ∈ p.rtakeWhile (· == 0x00), x = 0x00 := fun x hx =>
    eq_of_beq (List.mem_rtakeWhile_imp (p := (· == 0x00)) hx)
  refine ⟨(p.rtakeWhile (· == 0x00)).length, ?_⟩
  rw [← List.eq_replicate_of_mem htail, unpadZero_eq_rdropWhile, List.rdropWhile_append_rtakeWhile]

/-! ## Removal undoes padding -/

theorem unpadBytes_padBytes_pkcs7 (p : Bytes) :
    unpadBytes .pkcs7 (p ++ List.replicate (16 - p.length % 16) (BitVec.ofNat 8 (16 - p.length % 16))) = .ok p :=
  unpadBytes_pkcs7_ok_iff.2 ⟨16 - p.length % 16, by omega, by omega, rfl⟩

/-- Removal gives back the padded text, for zero padding only one that does not end in 0x00 (90_conflicts.md C4). -/
theorem unpadBytes_of_padBytes_ok_iff {pad : Padding} {p q : Bytes} (h : padBytes pad p = .ok q) :
    unpadBytes pad q = .ok p ↔ (pad = .zero → p.getLast? ≠ some 0x00) := by
  cases pad with
  | pkcs7 =>
    injection h with h
    subst h
    exact iff_of_true (unpadBytes_padBytes_pkcs7 p) nofun
  | zero =>
    injection h with h
    subst h
    rw [unpadBytes, repByte, unpadZero_append_zeros, Except.ok.injEq, unpadZero_eq_self_iff]
    exact ⟨fun hend _ => hend, fun hend => hend rfl⟩
  | noPad =>
    simp only [padBytes] at h
    split at h
    · injection h with h
      subst h
      exact iff_of_true rfl nofun
    · cases h

theorem padBytes_noPad_of_whole {p : Bytes} (h : p.length % 16 = 0) : padBytes .noPad p = .ok p := if_pos h

theorem padBytes_noPad_of_not_whole {p : Bytes} (h : p.length % 16 ≠ 0) :
    padBytes .noPad p = .error .invalidBlockAlignment := if_neg h

/-- Settles O49: pkcs7 removal takes exactly the padded strings, and zero removal strips all zeros at the end. -/
theorem paddingRules : Obligations.PaddingRules := by
  intro p
  obtain ⟨z, hz⟩ := exists_zeros_of_unpadZero p
  refine ⟨⟨_, rfl, unpadBytes_padBytes_pkcs7 p, ?_, rfl⟩,
    ⟨_, rfl, congrArg Except.ok (unpadZero_append_zeros p _), ?_, rfl⟩,
    padBytes_noPad_of_whole, padBytes_noPad_of_not_whole, fun _ => unpadBytes_pkcs7_ok_iff,
    unpadBytes_pkcs7_of_not_ok, ⟨unpadZero p, z, rfl, hz, unpadZero_getLast? p⟩,
    fun n => congrArg Except.ok (unpadZero_append_zeros [] n), rfl⟩
  · rw [List.length_append, repByte_length]; omega
  · rw [List.length_append, repByte_length]; omega

end Sys2Proof.Machine
end

section
/-! SUPPORT. The two modes block by block (44_blockmode.md R297 to R303): the blocks of a string by index, XOR with a
chaining block, what encryption makes of each block, and decryption undoing encryption (R304). -/

namespace Sys2Proof.Machine

/-! ## XOR of strings -/

theorem xorBytes_comm (a b : Bytes) : xorBytes a b = xorBytes b a :=
  List.zipWith_comm_of_comm BitVec.xor_comm

/-- XOR with a string twice gives back what it was applied to. -/
theorem xorBytes_xorBytes_cancel {a b : Bytes} (h : a.length = b.length) : xorBytes (xorBytes a b) b = a := by
  refine List.ext_getElem (by simp [h]) fun i h₁ h₂ => ?_
  simp [xorBytes]

/-- XOR with one string keeps different strings of its length different. -/
theorem xorBytes_left_injective {x a b : Bytes} (ha : a.length = x.length) (hb : b.length = x.length)
    (h : xorBytes x a = xorBytes x b) : a = b := by
  rw [xorBytes_comm x a, xorBytes_comm x b] at h
  rw [← xorBytes_xorBytes_cancel ha, h, xorBytes_xorBytes_cancel hb]

/-! ## Blocks -/

theorem blocksOf_getElem? (size : Nat) {n i : Nat} (b : Bytes) (hi : i < n) :
    (blocksOf size n b)[i]? = some ((b.drop (size * i)).take size) := by
  induction n generalizing b i with
  | zero => omega
  | succ n ih =>
    cases i with
    | zero => simp [blocksOf]
    | succ i =>
      rw [blocksOf, List.getElem?_cons_succ, ih _ (by omega), List.drop_drop, Nat.mul_succ, Nat.add_comm size]

/-- Block i of a string of whole blocks is its bytes 16·i to 16·i + 15 (R297). -/
theorem cipherBlocks_getElem? {q : Bytes} {i : Nat} (hi : i < q.length / 16) :
    (cipherBlocks q)[i]? = some ((q.drop (16 * i)).take 16) := blocksOf_getElem? 16 q hi

theorem cipherBlocks_mem_length {q : Bytes} (h : q.length % 16 = 0) : ∀ b ∈ cipherBlocks q, b.length = 16 :=
  blocksOf_mem_length 16 _ q (by omega)

theorem cipherBlocks_flatten {q : Bytes} (h : q.length % 16 = 0) : (cipherBlocks q).flatten = q :=
  blocksOf_flatten 16 _ q (by omega)

theorem cipherBlocks_of_flatten {qs : List Bytes} (h : ∀ q ∈ qs, q.length = 16) : cipherBlocks qs.flatten = qs := by
  rw [cipherBlocks, flatten_length_of_blocks 16 qs h, Nat.mul_div_cancel_left _ (by decide), blocksOf_of_flatten 16 qs h]

theorem block_length {q : Bytes} {i : Nat} (hi : i < q.length / 16) : ((q.drop (16 * i)).take 16).length = 16 := by
  rw [List.length_take, List.length_drop]; omega

/-! ## The block cipher -/

theorem sm4Dec_sm4Enc {rk : List Word} {b : Bytes} (hb : b.length = 16) : sm4Dec rk (sm4Enc rk b) = b :=
  (sm4BlockInverse rk b hb).1

/-- Different chaining blocks give one plaintext block different ciphertext blocks: XOR and encryption can both be
undone (43_sm4.md R255). -/
theorem sm4Enc_xorBytes_injective {rk : List Word} {x a b : Bytes} (hx : x.length = 16) (ha : a.length = 16)
    (hb : b.length = 16) (h : sm4Enc rk (xorBytes x a) = sm4Enc rk (xorBytes x b)) : a = b := by
  have hxor := congrArg (sm4Dec rk) h
  rw [sm4Dec_sm4Enc (by simp [hx, ha]), sm4Dec_sm4Enc (by simp [hx, hb])] at hxor
  exact xorBytes_left_injective (ha.trans hx.symm) (hb.trans hx.symm) hxor

/-! ## The modes undone -/

theorem ecbDec_ecbEnc (rk : List Word) {qs : List Bytes} (h : ∀ q ∈ qs, q.length = 16) :
    ecbDec rk (ecbEnc rk qs) = qs := by
  rw [ecbDec, ecbEnc, List.map_map]
  exact (List.map_congr_left fun q hq => sm4Dec_sm4Enc (h q hq)).trans (List.map_id _)

theorem cbcDec_cbcEnc (rk : List Word) {prev : Bytes} {qs : List Bytes} (hprev : prev.length = 16)
    (h : ∀ q ∈ qs, q.length = 16) : cbcDec rk prev (cbcEnc rk prev qs) = qs := by
  induction qs generalizing prev with
  | nil => rfl
  | cons q qs ih =>
    obtain ⟨hq, hqs⟩ := List.forall_mem_cons.1 h
    rw [cbcEnc, cbcDec, sm4Dec_sm4Enc (by simp [hq, hprev]), xorBytes_xorBytes_cancel (hq.trans hprev.symm),
      ih (sm4Enc_length ..) hqs]

theorem decBlocks_encBlocks (c : CipherInst) {qs : List Bytes} (h : ∀ q ∈ qs, q.length = 16) :
    decBlocks c (encBlocks c qs) = qs := by
  unfold decBlocks encBlocks
  cases c.mode with
  | ecb => exact ecbDec_ecbEnc _ h
  | cbc => exact cbcDec_cbcEnc _ c.iv.length_toList h

/-! ## Encrypt and Decrypt -/

theorem encrypt_of_padBytes {c : CipherInst} {p r : Bytes} (h : padBytes c.pad p = .ok r) :
    encrypt c p = .ok (encBlocks c (cipherBlocks r)).flatten := by
  rw [encrypt, h]

/-- A ciphertext is cut into the encryptions of the padded text's blocks (R302). -/
theorem cipherBlocks_of_encrypt {c : CipherInst} {p r q : Bytes} (hr : padBytes c.pad p = .ok r)
    (hq : encrypt c p = .ok q) : cipherBlocks q = encBlocks c (cipherBlocks r) := by
  rw [encrypt_of_padBytes hr] at hq
  injection hq with hq
  rw [← hq, cipherBlocks_of_flatten (encBlocks_lengths c _).2]

theorem encrypt_length_of_padBytes {c : CipherInst} {p r q : Bytes} (hr : padBytes c.pad p = .ok r)
    (hq : encrypt c p = .ok q) : q.length = r.length := by
  obtain ⟨r', hr', hlen⟩ := encrypt_length hq
  rw [hr] at hr'
  injection hr' with hr'
  rw [hlen, hr']

theorem decrypt_of_whole {c : CipherInst} {t : Bytes} (h : t.length % 16 = 0) :
    decrypt c t = unpadBytes c.pad (decBlocks c (cipherBlocks t)).flatten := if_pos h

theorem decrypt_of_not_whole {c : CipherInst} {t : Bytes} (h : t.length % 16 ≠ 0) :
    decrypt c t = .error .invalidBlockAlignment := if_neg h

/-- Decrypting a ciphertext removes the padding from the padded text. -/
theorem decrypt_of_encrypt {c : CipherInst} {p r q : Bytes} (hr : padBytes c.pad p = .ok r)
    (hq : encrypt c p = .ok q) : decrypt c q = unpadBytes c.pad r := by
  have hwhole : r.length % 16 = 0 := (padBytes_length hr).1
  rw [decrypt_of_whole (by rw [encrypt_length_of_padBytes hr hq, hwhole]), cipherBlocks_of_encrypt hr hq,
    decBlocks_encBlocks c (cipherBlocks_mem_length hwhole), cipherBlocks_flatten hwhole]

/-- Settles O50: decryption gives the padded text back, and its padding is removed again unless it is lost in the
plaintext's own zeros. -/
theorem decryptInvertsEncrypt : Obligations.DecryptInvertsEncrypt := by
  intro c p q hq
  obtain ⟨r, hr, -⟩ := encrypt_length hq
  have hback := unpadBytes_of_padBytes_ok_iff hr
  rw [← decrypt_of_encrypt hr hq] at hback
  exact ⟨hback.2, fun hzero hend hok => hback.1 hok hzero hend⟩

/-! ## Block i of a ciphertext -/

/-- Block i of a ciphertext is block i of what the mode makes of the padded text's blocks. -/
theorem encBlocks_getElem?_of_encrypt {c : CipherInst} {p r q : Bytes} (hr : padBytes c.pad p = .ok r)
    (hq : encrypt c p = .ok q) {i : Nat} (hi : i < r.length / 16) :
    (encBlocks c (cipherBlocks r))[i]? = some ((q.drop (16 * i)).take 16) := by
  rw [← cipherBlocks_of_encrypt hr hq, cipherBlocks_getElem? (by rwa [encrypt_length_of_padBytes hr hq])]

theorem ecb_block {c : CipherInst} {p r q : Bytes} (hmode : c.mode = .ecb) (hr : padBytes c.pad p = .ok r)
    (hq : encrypt c p = .ok q) {i : Nat} (hi : i < r.length / 16) :
    (q.drop (16 * i)).take 16 = sm4Enc c.rk.toList ((r.drop (16 * i)).take 16) := by
  have hblock := encBlocks_getElem?_of_encrypt hr hq hi
  rw [encBlocks, hmode] at hblock
  simp only [ecbEnc, List.getElem?_map, cipherBlocks_getElem? hi, Option.map_some, Option.some.injEq] at hblock
  exact hblock.symm

/-- Settles O51: block i depends on the padded text's block i alone. -/
theorem ecbEqualBlocks : Obligations.EcbEqualBlocks := by
  intro c p r q hmode hr hq
  refine ⟨encrypt_length_of_padBytes hr hq, fun i hi => ecb_block hmode hr hq hi, fun i j hi hj heq => ?_⟩
  rw [ecb_block hmode hr hq hi, heq, ecb_block hmode hr hq hj]

/-- Each CBC block is chained with the one before it in the list that `prev` heads. -/
theorem cbcEnc_getElem? (rk : List Word) (prev : Bytes) (qs : List Bytes) (i : Nat) :
    (cbcEnc rk prev qs)[i]? =
      qs[i]?.map fun q => sm4Enc rk (xorBytes q ((prev :: cbcEnc rk prev qs).getD i [])) := by
  induction qs generalizing prev i with
  | nil => rfl
  | cons q qs ih =>
    cases i with
    | zero => rfl
    | succ i => simp only [cbcEnc, List.getElem?_cons_succ, List.getD_cons_succ, ih]

/-- The chaining block of block i: I_IV, or the ciphertext block before it. -/
theorem cbc_block {c : CipherInst} {p r q : Bytes} (hmode : c.mode = .cbc) (hr : padBytes c.pad p = .ok r)
    (hq : encrypt c p = .ok q) {i : Nat} (hi : i < r.length / 16) :
    (q.drop (16 * i)).take 16 =
      sm4Enc c.rk.toList (xorBytes ((r.drop (16 * i)).take 16)
        (if i = 0 then c.iv.toList else (q.drop (16 * (i - 1))).take 16)) := by
  have hblock : ∀ {j}, j < r.length / 16 →
      (cbcEnc c.rk.toList c.iv.toList (cipherBlocks r))[j]? = some ((q.drop (16 * j)).take 16) := by
    intro j hj
    have h := encBlocks_getElem?_of_encrypt hr hq hj
    rwa [encBlocks, hmode] at h
  have hi' := hblock hi
  rw [cbcEnc_getElem?, cipherBlocks_getElem? hi, Option.map_some, Option.some.injEq] at hi'
  rw [← hi']
  cases i with
  | zero => rfl
  | succ i =>
    rw [List.getD_cons_succ, List.getD_eq_getElem?_getD, hblock (by omega)]
    rfl

/-- Settles O53: each block's chaining block is the one `cbcEnc` hands on. -/
theorem cbcChaining : Obligations.CbcChaining := fun _ _ _ _ hmode hr hq _ hi => cbc_block hmode hr hq hi

/-- Settles O52, by induction on the index: equal blocks have equal chaining blocks, since XOR with the plaintext block
and encryption are one to one, and at block 0 these are the two IVs. -/
theorem cbcDistinctIvs : Obligations.CbcDistinctIvs := by
  intro c iv p r q q' hmode hiv hr hq hq' i hi heq
  let c' : CipherInst := { c with iv := iv }
  have hlen : q.length = r.length := encrypt_length_of_padBytes hr hq
  have hlen' : q'.length = r.length := encrypt_length_of_padBytes (c := c') hr hq'
  induction i with
  | zero =>
    rw [cbc_block hmode hr hq hi, cbc_block (c := c') hmode hr hq' hi, if_pos rfl, if_pos rfl] at heq
    have hsame := sm4Enc_xorBytes_injective (block_length hi) c.iv.length_toList iv.length_toList heq
    exact hiv (Vector.toList_inj.1 hsame.symm)
  | succ i ih =>
    rw [cbc_block hmode hr hq hi, cbc_block (c := c') hmode hr hq' hi, if_neg i.succ_ne_zero,
      if_neg i.succ_ne_zero] at heq
    have hprev : i < r.length / 16 := by omega
    exact ih hprev (sm4Enc_xorBytes_injective (block_length hi) (block_length (by rwa [hlen]))
      (block_length (by rwa [hlen'])) heq)

end Sys2Proof.Machine
end

section
/-! SUPPORT. The commands ENC.* and DEC.* (44_blockmode.md R310 to R315): the result each has once its operand is read
and the cipher is configured. -/

namespace Sys2Proof.Machine

@[simp] theorem raise_ok {α : Type} (a : α) : raise (.ok a : Except CmdError α) = .ok a := rfl

@[simp] theorem raise_error {α : Type} (e : CmdError) : raise (.error e : Except CmdError α) = .error (.error e) := rfl

@[simp] theorem orRaise_some {α : Type} (e : CmdError) (a : α) : orRaise e (some a) = .ok a := rfl

/-! ## ENC.* -/

theorem encCommon_of_operand0 {s : State} {p : Bytes} (hready : s.cipher.ready = true) (h0 : operand0 s = .ok p) :
    encCommon s = raise (encrypt s.cipher p) := by
  simp [encCommon, h0, hready]

/-- A failing encryption is the failure of all three forms. -/
theorem enc_failsWith {s : State} {e : CmdError} (h : encCommon s = .error (.error e)) :
    FailsWith .encRaw s (errorCode e) ∧ FailsWith .encHex s (errorCode e) ∧ FailsWith .encB64 s (errorCode e) :=
  ⟨failsWith_of_error (by simp [resultOf, resEncRaw, h]), failsWith_of_error (by simp [resultOf, resEncHex, h]),
    failsWith_of_error (by simp [resultOf, resEncB64, h])⟩

/-- Each form emits the ciphertext or its text. -/
theorem enc_emits {s : State} {c : Bytes} (h : encCommon s = .ok c) :
    Emits .encRaw s c false ∧ Emits .encHex s (hex c) false ∧ Emits .encB64 s (b64 c) false :=
  ⟨emits_of_finish (by simp [resultOf, resEncRaw, h]), emits_of_finish (by simp [resultOf, resEncHex, h]),
    emits_of_finish (by simp [resultOf, resEncB64, h])⟩

theorem encrypt_noPad_of_not_whole {c : CipherInst} {p : Bytes} (hpad : c.pad = .noPad) (h : p.length % 16 ≠ 0) :
    encrypt c p = .error .invalidBlockAlignment := by
  rw [encrypt, hpad, padBytes_noPad_of_not_whole h]

/-- Only a text that is not whole blocks, under no padding, cannot be padded and so not be encrypted. -/
theorem exists_encrypt {c : CipherInst} {p : Bytes} (h : c.pad = .noPad → p.length % 16 = 0) :
    ∃ q, encrypt c p = .ok q := by
  have hpad : ∃ r, padBytes c.pad p = .ok r := by
    cases hp : c.pad with
    | pkcs7 => exact ⟨_, rfl⟩
    | zero => exact ⟨_, rfl⟩
    | noPad => exact ⟨p, padBytes_noPad_of_whole (h hp)⟩
  obtain ⟨r, hr⟩ := hpad
  exact ⟨_, encrypt_of_padBytes hr⟩

/-- Settles O54: every length of text is bounded by the longest ciphertext, one block more than IN0 holds. -/
theorem encCommandsComplete : Obligations.EncCommandsComplete := by
  intro s p hready hp hwhole
  obtain ⟨c, hc⟩ := exists_encrypt hwhole
  have hcommon : encCommon s = .ok c := by rw [encCommon_of_operand0 hready (operand0_of_is hp), hc, raise_ok]
  obtain ⟨hraw, hhex, hb64⟩ := enc_emits hcommon
  refine ⟨c, hc, hex_length c, b64_length c, hraw, hhex, hb64, fun hout => ?_⟩
  have hclen : c.length ≤ s.caps.in0.val + 16 := by
    have := encrypt_length_le hc
    have := operandIs0_length hp
    omega
  have hcap : 64 ≤ s.caps.in0.val := s.caps.in0.2.1
  exact ⟨hraw.1 (by omega), hhex.1 (by rw [hex_length]; omega), hb64.1 (by rw [b64_length]; omega)⟩

/-! ## DEC.* -/

/-- Each form decrypts the ciphertext that its operand stands for. -/
theorem resultOf_of_ciphertext {i : Instr} {s : State} {t c : Bytes} (hready : s.cipher.ready = true)
    (h0 : operand0 s = .ok t) (hc : CiphertextIs i t c) : resultOf i s = decFinish s c := by
  have hoperand : decOperand s = .ok t := by simp [decOperand, h0, hready]
  rcases hc with ⟨rfl, rfl⟩ | ⟨rfl, hc⟩ | ⟨rfl, hc⟩
  · simp [resultOf, resDecRaw, hoperand]
  · simp [resultOf, resDecHex, hoperand, hc]
  · simp [resultOf, resDecB64, hoperand, hc]

/-- A text stands for no more bytes than it has. -/
theorem ciphertextIs_length_le {i : Instr} {t c : Bytes} (h : CiphertextIs i t c) : c.length ≤ t.length := by
  rcases h with ⟨-, rfl⟩ | ⟨-, h⟩ | ⟨-, h⟩
  · exact Nat.le_refl _
  · rw [unhex_length h]; omega
  · exact unb64_length_le h

section
variable {i : Instr} {s : State} {t c : Bytes} (hready : s.cipher.ready = true) (ht : OperandIs0 s t)
  (hc : CiphertextIs i t c)
include hready ht hc

theorem dec_emits {p : Bytes} (h : decrypt s.cipher c = .ok p) : Emits i s p false :=
  emits_of_finish ((resultOf_of_ciphertext hready (operand0_of_is ht) hc).trans (by simp [decFinish, h]))

theorem dec_failsWith {e : CmdError} (h : decrypt s.cipher c = .error e) : FailsWith i s (errorCode e) :=
  failsWith_of_error ((resultOf_of_ciphertext hready (operand0_of_is ht) hc).trans (by simp [decFinish, h]))

end

/-- Settles O55: a plaintext is no longer than its ciphertext, nor that than the operand. -/
theorem decCommandsComplete : Obligations.DecCommandsComplete := by
  intro s i t c p hready ht hc hp
  have hemits := dec_emits hready ht hc hp
  refine ⟨hemits, fun hout => hemits.1 ?_⟩
  calc p.length ≤ c.length := decrypt_length_le hp
    _ ≤ t.length := ciphertextIs_length_le hc
    _ ≤ s.caps.in0.val := operandIs0_length ht
    _ ≤ s.caps.out.val := hout

/-- Settles O33: `Pad` refuses the plaintext under no padding, `Decrypt` the ciphertext under every padding. -/
theorem blockAlignmentErrors : Obligations.BlockAlignmentErrors := by
  intro s t ht hready
  have hdec : ∀ {i c}, CiphertextIs i t c → c.length % 16 ≠ 0 → FailsWith i s 3 := fun hc hlen =>
    dec_failsWith hready ht hc (decrypt_of_not_whole hlen)
  refine ⟨fun hpad hlen => ?_, hdec (.inl ⟨rfl, rfl⟩), fun c hc => hdec (.inr (.inl ⟨rfl, hc⟩)),
    fun c hc => hdec (.inr (.inr ⟨rfl, hc⟩))⟩
  refine enc_failsWith (e := .invalidBlockAlignment) ?_
  rw [encCommon_of_operand0 hready (operand0_of_is ht), encrypt_noPad_of_not_whole hpad hlen, raise_error]

/-- Settles O34: decryption ends in pkcs7 removal of q, which takes the padded strings and no others. -/
theorem pkcs7RemovalRule : Obligations.Pkcs7RemovalRule := by
  intro s i t c ht hready hpad hc hlen q
  have hdecrypt : decrypt s.cipher c = unpadBytes .pkcs7 q := by rw [decrypt_of_whole hlen, hpad]
  refine ⟨fun p n hpos hle hq => ?_, fun hno => ?_⟩
  · exact dec_emits hready ht hc (hdecrypt.trans (unpadBytes_pkcs7_ok_iff.2 ⟨n, hpos, hle, hq⟩))
  · have hrefused : ∀ r, unpadBytes .pkcs7 q ≠ .ok r := by
      intro r hr
      obtain ⟨n, hpos, hle, hq⟩ := unpadBytes_pkcs7_ok_iff.1 hr
      exact hno r n hpos hle hq
    exact dec_failsWith hready ht hc (hdecrypt.trans (unpadBytes_pkcs7_of_not_ok hrefused))

end Sys2Proof.Machine
end

section
/-! SUPPORT. Hex and base64 (45_encoder.md R341 to R346): the digits and characters with their values, the texts that
decode, and the four encoder commands (R350 to R353). -/

namespace Sys2Proof.Machine

/-! ## Hex -/

theorem hexDigit_toNat {v : Nat} (hv : v < 16) : (hexDigit v).toNat = if v < 10 then 0x30 + v else 0x57 + v := by
  revert v; decide

theorem lowerByte_toNat (c : Byte) :
    (lowerByte c).toNat = if 0x41 ≤ c.toNat ∧ c.toNat ≤ 0x5A then c.toNat + 0x20 else c.toNat := by
  unfold lowerByte
  split
  · rw [BitVec.toNat_add, show (0x20 : Byte).toNat = 0x20 from rfl]; omega
  · rfl

theorem hexVal_lt {c : Byte} {v : Nat} (h : hexVal c = some v) : v < 16 := by
  rw [hexVal] at h
  split_ifs at h <;> cases h <;> omega

/-- A hex digit of either case has the value whose digit is its lower-case form (R341, R342). -/
theorem hexVal_eq_some_iff {c : Byte} {v : Nat} (hv : v < 16) : hexVal c = some v ↔ hexDigit v = lowerByte c := by
  rw [← BitVec.toNat_inj, hexDigit_toNat hv, lowerByte_toNat, hexVal]
  split_ifs <;> simp only [Option.some.injEq, false_iff] <;> omega

theorem exists_hexVal_iff {c : Byte} : (∃ v, hexVal c = some v) ↔
    (0x30 ≤ c.toNat ∧ c.toNat ≤ 0x39) ∨ (0x61 ≤ c.toNat ∧ c.toNat ≤ 0x66) ∨ (0x41 ≤ c.toNat ∧ c.toNat ≤ 0x46) := by
  rw [hexVal]
  split_ifs <;> simp [*]

theorem hex_cons (x : Byte) (b : Bytes) :
    hex (x :: b) = hexDigit (x.toNat / 16) :: hexDigit (x.toNat % 16) :: hex b := rfl

/-- A text decodes two characters at a time (R342). -/
theorem unhex_cons_cons_eq_some_iff {c d : Byte} {t b : Bytes} : unhex (c :: d :: t) = some b ↔
    ∃ h l bs, hexVal c = some h ∧ hexVal d = some l ∧ unhex t = some bs ∧ b = BitVec.ofNat 8 (h * 16 + l) :: bs := by
  rw [unhex]
  cases hexVal c <;> cases hexVal d <;> cases unhex t <;> simp [eq_comm]

/-- The nibbles of a byte are the two values it is put together from. -/
theorem byte_eq_nibbles_iff {x : Byte} {h l : Nat} (hh : h < 16) (hl : l < 16) :
    x = BitVec.ofNat 8 (h * 16 + l) ↔ h = x.toNat / 16 ∧ l = x.toNat % 16 := by
  rw [← BitVec.toNat_inj, BitVec.toNat_ofNat]
  omega

/-- Hex loses nothing, and only texts that are hex up to their case decode (R342, R346). -/
theorem unhex_eq_some_iff : ∀ {t b : Bytes}, unhex t = some b ↔ hex b = lower t
  | [], b => by cases b <;> simp [unhex, lower, hex]
  | [_], b => by
    refine iff_of_false nofun fun h => ?_
    have := congrArg List.length h
    simp only [hex_length, lower_length, List.length_singleton] at this
    omega
  | c :: d :: t, [] => by
    rw [unhex_cons_cons_eq_some_iff]
    refine iff_of_false ?_ nofun
    rintro ⟨_, _, _, _, _, _, hb⟩
    cases hb
  | c :: d :: t, x :: b => by
    have hlower : hex (x :: b) = lower (c :: d :: t) ↔
        hexVal c = some (x.toNat / 16) ∧ hexVal d = some (x.toNat % 16) ∧ unhex t = some b := by
      rw [unhex_eq_some_iff, hexVal_eq_some_iff (by omega), hexVal_eq_some_iff (by omega)]
      simp only [hex_cons, lower, List.map_cons, List.cons.injEq]
    rw [hlower, unhex_cons_cons_eq_some_iff]
    constructor
    · rintro ⟨h, l, bs, hc, hd, ht, hb⟩
      obtain ⟨hbyte, rfl⟩ := List.cons.inj hb
      obtain ⟨rfl, rfl⟩ := (byte_eq_nibbles_iff (hexVal_lt hc) (hexVal_lt hd)).1 hbyte
      exact ⟨hc, hd, ht⟩
    · rintro ⟨hc, hd, ht⟩
      exact ⟨_, _, _, hc, hd, ht, congrArg (· :: b) ((byte_eq_nibbles_iff (by omega) (by omega)).2 ⟨rfl, rfl⟩)⟩

/-- The well-formed hex texts (R342): pairs of bytes that have a value. -/
theorem exists_unhex_iff : ∀ {t : Bytes},
    (∃ b, unhex t = some b) ↔ t.length % 2 = 0 ∧ ∀ c ∈ t, ∃ v, hexVal c = some v
  | [] => by simp [unhex]
  | [_] => by simp [unhex]
  | c :: d :: t => by
    have hlen : (c :: d :: t).length % 2 = t.length % 2 := by simp only [List.length_cons]; omega
    simp only [unhex_cons_cons_eq_some_iff, hlen, List.forall_mem_cons]
    constructor
    · rintro ⟨_, h, l, bs, hc, hd, ht, -⟩
      obtain ⟨heven, hdigits⟩ := exists_unhex_iff.1 ⟨bs, ht⟩
      exact ⟨heven, ⟨h, hc⟩, ⟨l, hd⟩, hdigits⟩
    · rintro ⟨heven, ⟨h, hc⟩, ⟨l, hd⟩, hdigits⟩
      obtain ⟨bs, ht⟩ := exists_unhex_iff.2 ⟨heven, hdigits⟩
      exact ⟨_, h, l, bs, hc, hd, ht, rfl⟩

/-! ## Base64 characters and groups -/

theorem b64Char_toNat (v : BitVec 6) : (b64Char v).toNat =
    if v.toNat < 26 then 0x41 + v.toNat
    else if v.toNat < 52 then 0x47 + v.toNat
    else if v.toNat < 62 then v.toNat - 4
    else if v.toNat = 62 then 0x2B
    else 0x2F := by
  revert v; decide

/-- A byte has a value exactly when it is that value's character (R343). -/
theorem b64Val_eq_some_iff {c : Byte} {v : BitVec 6} : b64Val c = some v ↔ b64Char v = c := by
  rw [← BitVec.toNat_inj (x := b64Char v), b64Char_toNat, b64Val]
  split_ifs <;>
    simp only [Option.some.injEq, false_iff, ← BitVec.toNat_inj (y := v), BitVec.ofNat_eq_ofNat, BitVec.toNat_ofNat] <;>
    omega

@[simp] theorem b64Val_b64Char (v : BitVec 6) : b64Val (b64Char v) = some v := b64Val_eq_some_iff.2 rfl

/-- The pad character has no value (R343). -/
@[simp] theorem b64Char_ne_padChar (v : BitVec 6) : b64Char v ≠ padChar := by
  revert v; decide

theorem append_toNat {m n : Nat} (x : BitVec m) (y : BitVec n) : (x ++ y).toNat = x.toNat * 2 ^ n + y.toNat := by
  rw [BitVec.toNat_append, ← Nat.shiftLeft_add_eq_or_of_lt y.isLt, Nat.shiftLeft_eq]

theorem extractLsb'_toNat_eq_div {w : Nat} (x : BitVec w) (k n : Nat) :
    (x.extractLsb' k n).toNat = x.toNat / 2 ^ k % 2 ^ n := by
  rw [BitVec.extractLsb'_toNat, Nat.shiftRight_eq_div_pow]

/-- The bytes of four values, as digits of the one number they make up (R344). -/
theorem b64Bytes_eq_iff {v0 v1 v2 v3 : BitVec 6} {a b c : Byte} : b64Bytes v0 v1 v2 v3 = [a, b, c] ↔
    v0.toNat * 2 ^ 18 + v1.toNat * 2 ^ 12 + v2.toNat * 2 ^ 6 + v3.toNat =
      a.toNat * 2 ^ 16 + b.toNat * 2 ^ 8 + c.toNat := by
  simp only [b64Bytes, List.cons.injEq, and_true, ← BitVec.toNat_inj, extractLsb'_toNat_eq_div, append_toNat]
  omega

theorem exists_b64Bytes (a b c : Byte) : ∃ v0 v1 v2 v3, b64Bytes v0 v1 v2 v3 = [a, b, c] := by
  refine ⟨(a ++ b ++ c).extractLsb' 18 6, (a ++ b ++ c).extractLsb' 12 6, (a ++ b ++ c).extractLsb' 6 6,
    (a ++ b ++ c).extractLsb' 0 6, b64Bytes_eq_iff.2 ?_⟩
  simp only [extractLsb'_toNat_eq_div, append_toNat]
  omega

/-- A group is the characters of the four values that make up its bytes (R344). -/
theorem b64Group_of_b64Bytes {v0 v1 v2 v3 : BitVec 6} {a b c : Byte} (h : b64Bytes v0 v1 v2 v3 = [a, b, c]) :
    b64Group a b c = [b64Char v0, b64Char v1, b64Char v2, b64Char v3] := by
  have hbits := b64Bytes_eq_iff.1 h
  simp only [b64Group, List.cons.injEq, and_true]
  refine ⟨congrArg b64Char ?_, congrArg b64Char ?_, congrArg b64Char ?_, congrArg b64Char ?_⟩ <;>
  · simp only [← BitVec.toNat_inj, extractLsb'_toNat_eq_div, append_toNat]
    omega

/-- A zero byte at the end leaves a zero value (R344). -/
theorem exists_b64Bytes_two (a b : Byte) : ∃ v0 v1 v2, b64Bytes v0 v1 v2 0#6 = [a, b, 0] := by
  obtain ⟨v0, v1, v2, v3, h⟩ := exists_b64Bytes a b 0
  obtain rfl : v3 = 0#6 := by have := b64Bytes_eq_iff.1 h; bv_omega
  exact ⟨v0, v1, v2, h⟩

theorem exists_b64Bytes_one (a : Byte) : ∃ v0 v1, b64Bytes v0 v1 0#6 0#6 = [a, 0, 0] := by
  obtain ⟨v0, v1, v2, h⟩ := exists_b64Bytes_two a 0
  obtain rfl : v2 = 0#6 := by have := b64Bytes_eq_iff.1 h; bv_omega
  exact ⟨v0, v1, h⟩

/-- A last group of two bytes: the bits its values give to no byte are zero exactly when the third byte is (R345). -/
theorem b64Bytes_take_two_iff {v0 v1 v2 : BitVec 6} {a b : Byte} :
    v2.extractLsb' 0 2 = 0 ∧ (b64Bytes v0 v1 v2 0#6).take 2 = [a, b] ↔ b64Bytes v0 v1 v2 0#6 = [a, b, 0] := by
  simp only [b64Bytes, List.take_succ_cons, List.take_zero, List.cons.injEq, and_true, ← BitVec.toNat_inj,
    extractLsb'_toNat_eq_div, append_toNat, BitVec.ofNat_eq_ofNat, BitVec.toNat_ofNat]
  omega

/-- A last group of one byte, in the same way (R345). -/
theorem b64Bytes_take_one_iff {v0 v1 : BitVec 6} {a : Byte} :
    v1.extractLsb' 0 4 = 0 ∧ (b64Bytes v0 v1 0#6 0#6).take 1 = [a] ↔ b64Bytes v0 v1 0#6 0#6 = [a, 0, 0] := by
  simp only [b64Bytes, List.take_succ_cons, List.take_zero, List.cons.injEq, and_true, ← BitVec.toNat_inj,
    extractLsb'_toNat_eq_div, append_toNat, BitVec.ofNat_eq_ofNat, BitVec.toNat_ofNat]
  omega

/-! ## Base64 texts -/

/-- A group of three bytes in front of a text (R344, R345), last or not. -/
theorem unb64_group (v0 v1 v2 v3 : BitVec 6) (t : Bytes) :
    unb64 (b64Char v0 :: b64Char v1 :: b64Char v2 :: b64Char v3 :: t) =
      (unb64 t).map (b64Bytes v0 v1 v2 v3 ++ ·) := by
  cases t with
  | nil => simp [unb64, unb64Last]
  | cons c t =>
    rw [unb64_more]
    cases unb64 (c :: t) <;> simp

/-- Base64 loses nothing (R346). -/
theorem unb64_b64 (b : Bytes) : unb64 (b64 b) = some b := by
  induction b using b64.induct with
  | case1 => rfl
  | case2 a =>
    obtain ⟨v0, v1, h⟩ := exists_b64Bytes_one a
    obtain ⟨hzero, hbyte⟩ := b64Bytes_take_one_iff.2 h
    rw [b64, b64Group_of_b64Bytes h]
    simp [unb64, unb64Last, hzero, hbyte]
  | case3 a b =>
    obtain ⟨v0, v1, v2, h⟩ := exists_b64Bytes_two a b
    obtain ⟨hzero, hbytes⟩ := b64Bytes_take_two_iff.2 h
    rw [b64, b64Group_of_b64Bytes h]
    simp [unb64, unb64Last, hzero, hbytes]
  | case4 a b c rest ih =>
    obtain ⟨v0, v1, v2, v3, h⟩ := exists_b64Bytes a b c
    rw [b64, b64Group_of_b64Bytes h]
    simp [unb64_group, h, ih]

theorem b64_b64Bytes_append (v0 v1 v2 v3 : BitVec 6) (b : Bytes) :
    b64 (b64Bytes v0 v1 v2 v3 ++ b) = b64Char v0 :: b64Char v1 :: b64Char v2 :: b64Char v3 :: b64 b :=
  congrArg (· ++ b64 b) (b64Group_of_b64Bytes (v0 := v0) (v1 := v1) (v2 := v2) (v3 := v3) rfl)

/-- Only the encoding of its bytes decodes as a last group (R345). -/
theorem b64_of_unb64Last {c0 c1 c2 c3 : Byte} {b : Bytes} (h : unb64Last c0 c1 c2 c3 = some b) :
    b64 b = [c0, c1, c2, c3] := by
  revert h
  fun_cases unb64Last c0 c1 c2 c3
  case case1 v0 v1 h1 h0 hc3 hc2 hzero =>
    obtain ⟨a, hbyte⟩ : ∃ a, (b64Bytes v0 v1 0 0).take 1 = [a] := ⟨_, rfl⟩
    rintro ⟨⟩
    rw [hbyte, b64, b64Group_of_b64Bytes (b64Bytes_take_one_iff.1 ⟨hzero, hbyte⟩), b64Val_eq_some_iff.1 h0,
      b64Val_eq_some_iff.1 h1, hc2, hc3]
    rfl
  case case3 v0 v1 h1 h0 hc3 _ v2 h2 hzero =>
    obtain ⟨a, d, hbytes⟩ : ∃ a d, (b64Bytes v0 v1 v2 0).take 2 = [a, d] := ⟨_, _, rfl⟩
    rintro ⟨⟩
    rw [hbytes, b64, b64Group_of_b64Bytes (b64Bytes_take_two_iff.1 ⟨hzero, hbytes⟩), b64Val_eq_some_iff.1 h0,
      b64Val_eq_some_iff.1 h1, b64Val_eq_some_iff.1 h2, hc3]
    rfl
  case case6 v0 v1 h1 h0 _ v2 v3 h3 h2 =>
    rintro ⟨⟩
    rw [← List.append_nil (b64Bytes v0 v1 v2 v3), b64_b64Bytes_append, b64Val_eq_some_iff.1 h0,
      b64Val_eq_some_iff.1 h1, b64Val_eq_some_iff.1 h2, b64Val_eq_some_iff.1 h3]
    rfl
  all_goals nofun

/-- Only the encoding of its bytes decodes (R345). -/
theorem b64_of_unb64 : ∀ {t b : Bytes}, unb64 t = some b → b64 b = t
  | [], b, h => by cases h; rfl
  | [_], b, h => by simp [unb64] at h
  | [_, _], b, h => by simp [unb64] at h
  | [_, _, _], b, h => by simp [unb64] at h
  | [c0, c1, c2, c3], b, h => b64_of_unb64Last h
  | c0 :: c1 :: c2 :: c3 :: c4 :: rest, b, h => by
    rw [unb64_more] at h
    split at h
    · next v0 v1 v2 v3 bs h0 h1 h2 h3 hr =>
      cases h
      rw [b64_b64Bytes_append, b64_of_unb64 hr, b64Val_eq_some_iff.1 h0, b64Val_eq_some_iff.1 h1,
        b64Val_eq_some_iff.1 h2, b64Val_eq_some_iff.1 h3]
    · cases h

theorem unb64_eq_some_iff {t b : Bytes} : unb64 t = some b ↔ b64 b = t :=
  ⟨b64_of_unb64, fun h => h ▸ unb64_b64 b⟩

theorem hexDigit_eq_getD {v : Nat} (hv : v < 16) : hexDigit v = ([0x30, 0x31, 0x32, 0x33, 0x34, 0x35, 0x36, 0x37, 0x38,
    0x39, 0x61, 0x62, 0x63, 0x64, 0x65, 0x66] : Bytes).getD v 0 := by
  revert v; decide

/-- Settles O56: the lower-case digits are those listed, and each encoder's decoder takes back its own texts alone, for
hex up to their case. -/
theorem encodersAreLossless : Obligations.EncodersAreLossless := by
  intro b t
  refine ⟨?_, ?_, unhex_eq_some_iff, unhex_eq_some_iff.2 (lower_hex b).symm, unb64_eq_some_iff, unb64_b64 b⟩
  · refine List.flatMap_congr fun x _ => ?_
    rw [hexDigit_eq_getD (by omega), hexDigit_eq_getD (by omega)]
  · simp only [exists_unhex_iff, exists_hexVal_iff]

/-! ## The encoder commands -/

@[simp] theorem orRaise_none {α : Type} (e : CmdError) : orRaise e (none : Option α) = .error (.error e) := rfl

/-- Settles O35: a text that does not decode is the error of each command that decodes it. -/
theorem encodingErrors : Obligations.EncodingErrors := by
  intro s t ht
  have h0 := operand0_of_is ht
  have hdec : s.cipher.ready = true → decOperand s = .ok t := fun hready => by simp [decOperand, h0, hready]
  refine ⟨fun hmal => ⟨?_, fun hready => ?_⟩, fun hmal => ⟨?_, fun hready => ?_⟩⟩ <;>
    refine failsWith_of_error (e := .invalidEncoding) ?_
  · simp [resultOf, resHexDec, h0, hmal]
  · simp [resultOf, resDecHex, hdec hready, hmal]
  · simp [resultOf, resB64Dec, h0, hmal]
  · simp [resultOf, resDecB64, hdec hready, hmal]

/-- A decoded text is no longer than the operand, so it fits an OUT as large as IN0. -/
theorem emits_decoded {i : Instr} {s : State} {t b : Bytes} (ht : OperandIs0 s t)
    (hr : resultOf i s = finish s b false) (hlen : b.length ≤ t.length) :
    Emits i s b false ∧ (s.caps.in0.val ≤ s.caps.out.val → Succeeds i s b false) :=
  ⟨emits_of_finish hr, fun hout => succeeds_of_finish hr ((hlen.trans (operandIs0_length ht)).trans hout)⟩

/-- Settles O57: each command ends in `finish` of its text or bytes. -/
theorem encoderCommandsComplete : Obligations.EncoderCommandsComplete := by
  intro s t ht
  have h0 := operand0_of_is ht
  have hlen : t.length = s.len0.toNat := readBytes_length ht.2
  refine ⟨emits_of_finish ?_, ?_, emits_of_finish ?_, ?_, fun b hb => ?_, fun b hb => ?_⟩
  · simp [resultOf, resHexEnc, h0]
  · rw [hex_length, hlen]
  · simp [resultOf, resB64Enc, h0]
  · rw [b64_length, hlen]
  · exact emits_decoded ht (by simp [resultOf, resHexDec, h0, hb]) (by rw [unhex_length hb]; omega)
  · exact emits_decoded ht (by simp [resultOf, resB64Dec, h0, hb]) (unb64_length_le hb)

end Sys2Proof.Machine
end

section
/-! SUPPORT. Construction of the instances (46_configure.md R380 to R391): the padding a CFG.PAD code names, the texts
of 16 bytes, the registers of the instances that are built, and the commands CFG.CIPHER and CFG.HASH. -/

namespace Sys2Proof.Machine

/-! ## The padding code and the texts of 16 bytes -/

theorem padOfCode_eq_some_iff {c : BitVec 2} {pad : Padding} : padOfCode c = some pad ↔
    (c = 0b00 ∧ pad = .pkcs7) ∨ (c = 0b01 ∧ pad = .zero) ∨ (c = 0b10 ∧ pad = .noPad) := by
  revert c; cases pad <;> decide

/-- Only the reserved code names no padding. -/
theorem padOfCode_eq_none_iff {c : BitVec 2} : padOfCode c = none ↔ c = 0b11 := by
  revert c; decide

theorem exists_padOfCode {c : BitVec 2} (h : c ≠ 0b11) : ∃ pad, padOfCode c = some pad :=
  Option.ne_none_iff_exists'.1 (mt padOfCode_eq_none_iff.1 h)

theorem bytes16FromText_of_unhex {e : CmdError} {t b : Bytes} (ht : unhex t = some b) (hb : b.length = 16) :
    bytes16FromText e t = .ok b := by
  simp [bytes16FromText, ht, hb]

theorem bytes16FromText_of_not {e : CmdError} {t : Bytes} (h : ∀ b, unhex t = some b → b.length ≠ 16) :
    bytes16FromText e t = .error e := by
  cases ht : unhex t with
  | none => simp [bytes16FromText, ht]
  | some b => simp [bytes16FromText, ht, h b ht]

/-! ## The registers of the instances that are built -/

theorem buildCipher_iv_toList {mode : Mode} {pad : Padding} {iv key : Bytes} (h : iv.length = 16) :
    (buildCipher mode pad iv key).iv.toList = iv := toVec_toList h

theorem buildCipher_rk_toList {mode : Mode} {pad : Padding} {iv key : Bytes} :
    (buildCipher mode pad iv key).rk.toList = sm4Schedule key := toVec_toList (sm4Schedule_length key)

theorem buildHmac_hk0_toList (k : Bytes) : (buildHmac k).hk0.toList = hmacK0 k := toVec_toList (hmacK0_length k)

theorem plainHash_hk0_toList : plainHash.hk0.toList = repByte 0x00 64 := toVec_toList (repByte_length _ _)

theorem hashSurface_buildHmac (k m : Bytes) : hashSurface (buildHmac k) m = hmac m k := by
  rw [hashSurface_of_hmac rfl, buildHmac_hk0_toList, hmac]

theorem hashSurface_plainHash (m : Bytes) : hashSurface plainHash m = sm3 m := hashSurface_of_plain rfl m

/-! ## CFG.CIPHER -/

section
variable {s : State} {kt : Bytes} (h0 : operand0 s = .ok kt)
include h0

/-- The padding code is the first check after the operands, in either mode. -/
theorem resCfgCipher_of_pad_none (h1 : s.cfg.mode = .cbc → ∃ it, operand1 s = .ok it)
    (hpad : padOfCode s.cfg.pad = none) : resCfgCipher s = .error (.error .invalidConfig) := by
  cases hmode : s.cfg.mode with
  | ecb => simp [resCfgCipher, hmode, resCfgCipherEcb, h0, hpad]
  | cbc =>
    obtain ⟨it, h1⟩ := h1 hmode
    simp [resCfgCipher, hmode, resCfgCipherCbc, h0, h1, hpad]

variable {pad : Padding} (hpad : padOfCode s.cfg.pad = some pad)
include hpad

/-- The key text is the next check, in either mode. -/
theorem resCfgCipher_of_key_error {e : CmdError} (h1 : s.cfg.mode = .cbc → ∃ it, operand1 s = .ok it)
    (hkey : keyFromText kt = .error e) : resCfgCipher s = .error (.error e) := by
  cases hmode : s.cfg.mode with
  | ecb => simp [resCfgCipher, hmode, resCfgCipherEcb, h0, hpad, hkey]
  | cbc =>
    obtain ⟨it, h1⟩ := h1 hmode
    simp [resCfgCipher, hmode, resCfgCipherCbc, h0, h1, hpad, hkey]

variable {key : Bytes} (hkey : keyFromText kt = .ok key)
include hkey

theorem resCfgCipher_ecb (hmode : s.cfg.mode = .ecb) :
    resCfgCipher s = .ok (doneCipher s (buildCipher .ecb pad (repByte 0x00 16) key)) := by
  simp [resCfgCipher, hmode, resCfgCipherEcb, h0, hpad, hkey, pure, Except.pure]

/-- In CBC the IV text is the last check. -/
theorem resCfgCipher_cbc {it : Bytes} (hmode : s.cfg.mode = .cbc) (h1 : operand1 s = .ok it) :
    resCfgCipher s = raise (ivFromText it) >>= fun iv => .ok (doneCipher s (buildCipher .cbc pad iv key)) := by
  simp [resCfgCipher, hmode, resCfgCipherCbc, h0, h1, hpad, hkey, pure, Except.pure]

end

/-- Settles O58: with every check passed the command builds `buildCipher`, whose registers hold the IV, zero in ECB,
and the key's schedule. -/
theorem cfgCipherCompletes : Obligations.CfgCipherCompletes := by
  intro s kt key pad hkt hkey hlen hcode
  have h0 := operand0_of_is hkt
  have hpad : padOfCode s.cfg.pad = some pad := padOfCode_eq_some_iff.2 hcode
  have hkeyText : keyFromText kt = .ok key := bytes16FromText_of_unhex hkey hlen
  constructor
  · intro hmode
    exact ⟨_, rfl, rfl, rfl, buildCipher_iv_toList (repByte_length _ _), buildCipher_rk_toList,
      succeedsWith_of_result (resCfgCipher_ecb h0 hpad hkeyText hmode)⟩
  · intro it iv hmode hit hiv hivlen
    have hivText : ivFromText it = .ok iv := bytes16FromText_of_unhex hiv hivlen
    have hres := resCfgCipher_cbc h0 hpad hkeyText hmode (operand1_of_is hit)
    rw [hivText, raise_ok, res_ok_bind] at hres
    exact ⟨_, rfl, rfl, rfl, buildCipher_iv_toList hivlen, buildCipher_rk_toList, succeedsWith_of_result hres⟩

/-- Settles O59: the checks come in the order padding code, key text, IV text, each one's error the command's when
those before it pass. -/
theorem cfgCipherErrors : Obligations.CfgCipherErrors := by
  intro s kt hkt hit
  have h0 := operand0_of_is hkt
  have h1 : s.cfg.mode = .cbc → ∃ it, operand1 s = .ok it := fun hmode => (hit hmode).imp fun _ => operand1_of_is
  refine ⟨fun hcode => ?_, fun hcode hkey => ?_, fun key it hcode hkey hlen hmode hit hiv => ?_⟩
  · exact failsWith_of_error (e := .invalidConfig) (resCfgCipher_of_pad_none h0 h1 (padOfCode_eq_none_iff.2 hcode))
  · obtain ⟨pad, hpad⟩ := exists_padOfCode hcode
    exact failsWith_of_error (e := .invalidKeyLength)
      (resCfgCipher_of_key_error h0 hpad h1 (bytes16FromText_of_not hkey))
  · obtain ⟨pad, hpad⟩ := exists_padOfCode hcode
    have hivText : ivFromText it = .error .invalidIVLength := bytes16FromText_of_not hiv
    have hres := resCfgCipher_cbc h0 hpad (bytes16FromText_of_unhex hkey hlen) hmode (operand1_of_is hit)
    rw [hivText, raise_error, res_error_bind] at hres
    exact failsWith_of_error (e := .invalidIVLength) hres

/-! ## CFG.HASH -/

theorem resCfgHash_hmac {s : State} {k : Bytes} (hen : s.cfg.hmacEn = true) (h0 : operand0 s = .ok k) :
    resCfgHash s = .ok (doneHash s (buildHmac k)) := by
  simp [resCfgHash, hen, h0, pure, Except.pure]

/-- With HMAC_EN = 0 no operand is fetched. -/
theorem resCfgHash_plain {s : State} (hen : s.cfg.hmacEn = false) : resCfgHash s = .ok (doneHash s plainHash) := by
  simp [resCfgHash, hen]

/-- Settles O60: HMAC_EN alone chooses between the keyed and the plain hash entry point. -/
theorem cfgHashCompletes : Obligations.CfgHashCompletes := by
  intro s
  constructor
  · intro k hen hk
    exact ⟨buildHmac k, rfl, buildHmac_hk0_toList k, hashSurface_buildHmac k,
      succeedsWith_of_result (resCfgHash_hmac hen (operand0_of_is hk))⟩
  · intro hen
    exact ⟨plainHash, rfl, plainHash_hk0_toList, hashSurface_plainHash,
      succeedsWith_of_result (resCfgHash_plain hen)⟩

end Sys2Proof.Machine
end

section
/-! SUPPORT. The interrupt output (60_exceptions.md R420, R421) and NotConfigured (R414): what each shared operation
of a rule can report, and so which commands report that no cipher is configured. -/

namespace Sys2Proof.Machine

/-! ## The interrupt output -/

/-- The interrupt output is the AND of the two bits as the host reads them (R420). -/
theorem irq_eq_readReg (s : State) : irq s = ((readReg s .status).getLsbD 1 && (readReg s .irqen).getLsbD 0) := by
  obtain ⟨_, hdone, _⟩ := statusWord_layout s.status
  obtain ⟨hie, _⟩ := irqenWord_layout s.doneIe
  rw [readReg, readReg, hdone, hie, irq]

theorem irq_of_done {s : State} (h : s.status.done = true) : irq s = s.doneIe := by simp [irq, h]

theorem irq_of_not_done {s : State} (h : s.status.done = false) : irq s = false := by simp [irq, h]

/-- Both completions set DONE and leave DONE_IE (R37). -/
theorem irq_of_exec {i : Instr} {s t : State} (h : exec i s = .next t) : irq t = s.doneIe := by
  rcases exec_next_cases h with ⟨d, _, rfl⟩ | ⟨e, _, rfl⟩ <;> exact irq_of_done rfl

/-- Settles O21: a completion sets DONE, and an idle write of CMD is `accept`, which clears it. -/
theorem interruptFollowsDone : Obligations.InterruptFollowsDone := by
  intro s
  refine ⟨irq_eq_readReg s, fun _ _ h => irq_of_exec h, fun w hidle => irq_of_not_done ?_⟩
  exact congrArg (·.status.done) (serveAccess_write_reg_idle w hidle (locate_cmd s.caps))

/-! ## What the shared operations of a rule report -/

/-- A rule's `let v = f(x)?` stops where f stops, or where the rest does. -/
theorem res_bind_error_iff {α β : Type} {x : Except Stop α} {f : α → Except Stop β} {e : Stop} :
    (x >>= f) = .error e ↔ x = .error e ∨ ∃ a, x = .ok a ∧ f a = .error e := by
  cases x <;> simp

theorem finish_error {s : State} {out : Bytes} {m : Bool} {e : CmdError}
    (h : finish s out m = .error (.error e)) : e = .capacityExceeded := by
  rw [finish_eq] at h
  split at h
  · cases h; rfl
  · cases h

theorem orRaise_error {α : Type} {e e' : CmdError} {x : Option α} (h : orRaise e x = .error (.error e')) : e' = e := by
  cases x with
  | none => cases h; rfl
  | some a => cases h

theorem raise_error_iff {α : Type} {x : Except CmdError α} {e : CmdError} :
    raise x = .error (.error e) ↔ x = .error e := by
  cases x <;> simp

theorem bytes16FromText_error {e e' : CmdError} {t : Bytes} (h : bytes16FromText e t = .error e') : e' = e := by
  unfold bytes16FromText at h
  split at h
  · split at h
    · cases h
    · cases h; rfl
  · cases h; rfl

/-! ## NotConfigured -/

/-- The commands that need a configured cipher (R414). -/
def cipherCommands : List Instr := [.encRaw, .encHex, .encB64, .decRaw, .decHex, .decB64]

/-- With the operand fetched, the check of CIPHER_READY is the first to stop each of them (R415). -/
theorem resultOf_of_not_ready {i : Instr} {s : State} {t : Bytes} (hi : i ∈ cipherCommands)
    (h0 : operand0 s = .ok t) (hready : s.cipher.ready = false) :
    resultOf i s = .error (.error .notConfigured) := by
  have henc : encCommon s = .error (.error .notConfigured) := by simp [encCommon, h0, hready]
  have hdec : decOperand s = .error (.error .notConfigured) := by simp [decOperand, h0, hready]
  cases i
  case encRaw | encHex | encB64 => simp [resultOf, resEncRaw, resEncHex, resEncB64, henc]
  case decRaw | decHex | decB64 => simp [resultOf, resDecRaw, resDecHex, resDecB64, hdec]
  all_goals exact absurd hi (by decide)

@[simp] theorem operand0_ne_notConfigured (s : State) : operand0 s ≠ .error (.error .notConfigured) :=
  fun h => nomatch (operandAt_error h).1

@[simp] theorem operand1_ne_notConfigured (s : State) : operand1 s ≠ .error (.error .notConfigured) :=
  fun h => nomatch (operandAt_error h).1

@[simp] theorem finish_ne_notConfigured (s : State) (out : Bytes) (m : Bool) :
    finish s out m ≠ .error (.error .notConfigured) :=
  fun h => nomatch finish_error h

theorem resCfgCipher_ne_notConfigured (s : State) : resCfgCipher s ≠ .error (.error .notConfigured) := by
  have hpad : orRaise .invalidConfig (padOfCode s.cfg.pad) ≠ .error (.error .notConfigured) :=
    fun h => nomatch orRaise_error h
  have hkey : ∀ t, keyFromText t ≠ .error .notConfigured := fun _ h => nomatch bytes16FromText_error h
  have hiv : ∀ t, ivFromText t ≠ .error .notConfigured := fun _ h => nomatch bytes16FromText_error h
  unfold resCfgCipher
  cases s.cfg.mode with
  | ecb => simp [resCfgCipherEcb, res_bind_error_iff, raise_error_iff, hpad, hkey, pure, Except.pure]
  | cbc => simp [resCfgCipherCbc, res_bind_error_iff, raise_error_iff, hpad, hkey, hiv, pure, Except.pure]

theorem resCfgHash_ne_notConfigured (s : State) : resCfgHash s ≠ .error (.error .notConfigured) := by
  unfold resCfgHash
  cases s.cfg.hmacEn <;> simp [res_bind_error_iff, pure, Except.pure]

/-- A command without the check of CIPHER_READY reports only what its fetches, its decoding and its emission do. -/
theorem resultOf_ne_notConfigured {i : Instr} {s : State} (hi : i ∉ cipherCommands) :
    resultOf i s ≠ .error (.error .notConfigured) := by
  have hdecode : ∀ x : Option Bytes, orRaise .invalidEncoding x ≠ .error (.error .notConfigured) :=
    fun _ h => nomatch orRaise_error h
  cases i
  case cfgCipher => exact resCfgCipher_ne_notConfigured s
  case cfgHash => exact resCfgHash_ne_notConfigured s
  case sm3Raw | sm3Hex => simp [resultOf, resSm3Raw, resSm3Hex, res_bind_error_iff]
  case hashRaw | hashHex => simp [resultOf, resHashRaw, resHashHex, res_bind_error_iff]
  case hmacRaw | hmacHex => simp [resultOf, resHmacRaw, resHmacHex, res_bind_error_iff]
  case verify => simp [resultOf, resVerify, res_bind_error_iff]
  case hexEnc | b64Enc => simp [resultOf, resHexEnc, resB64Enc, res_bind_error_iff]
  case hexDec | b64Dec => simp [resultOf, resHexDec, resB64Dec, res_bind_error_iff, hdecode]
  all_goals exact absurd (by decide) hi

theorem errorCode_eq_seven_iff {e : CmdError} : errorCode e = 7 ↔ e = .notConfigured := by cases e <;> decide

/-- Settles O32: the check of CIPHER_READY comes right after the fetch, and no other operation reports code 7. -/
theorem notConfiguredErrors : Obligations.NotConfiguredErrors := by
  intro s i
  refine ⟨fun t ht hready hi => ?_, fun s' hi h hcode => ?_⟩
  · exact failsWith_of_error (e := .notConfigured) (resultOf_of_not_ready hi (operand0_of_is ht) hready)
  · rcases exec_next_cases h with ⟨d, _, rfl⟩ | ⟨e, he, rfl⟩
    · simp at hcode
    · obtain rfl : e = .notConfigured := errorCode_eq_seven_iff.1 hcode
      exact resultOf_ne_notConfigured hi he

end Sys2Proof.Machine
end

section
/-! SUPPORT. The reset input (70_reset_and_hazards.md R450 to R452), and a command in flight (R471): an access served
meanwhile touches nothing but WERR and the answers (20_memory.md R87), so the accesses still to arrive leave the
command as it was accepted, and the engine's turn after them completes it. -/

namespace Sys2Proof.Machine

/-! ## One event at the pins -/

theorem step_of_access_inReset {s : State} {a : Access} {rest : List HostEvent} (hrst : s.inReset = true)
    (h : s.host = .access a :: rest) : step s = .refused .busAccessInReset := by
  simp [step, stepOnce, h, serveEvent, hrst]

theorem step_of_rst_asserted {s : State} {rest : List HostEvent} (h : s.host = .rst true :: rest) :
    step s = .next (applyReset { s with host := rest }) := by
  simp [step, stepOnce, h, serveEvent]

theorem step_of_rst_released {s : State} {rest : List HostEvent} (h : s.host = .rst false :: rest) :
    step s = .next { s with host := rest, inReset := false } := by
  simp [step, stepOnce, h, serveEvent]

/-! ## The reset input -/

/-- Asserting `rst` leaves every register reading as right after reset (R450, R70). -/
@[simp] theorem readReg_applyReset (s : State) (r : Reg) : readReg (applyReset s) r = readReg State.reset r := by
  cases r <;> rfl

/-- Settles O20: the assertion is `applyReset`, whose registers read as those of `State.reset`. -/
theorem resetInput : Obligations.ResetInput := by
  intro s rest
  refine ⟨fun hassert => ?_, step_of_rst_released, fun _ => step_of_access_inReset⟩
  obtain ⟨_, hstatus, hcfg, hlen0, hlen1, houtlen, hinst, hirqen, _, hready, _, _, hhmac, hirq, _⟩ := resetValues
  refine ⟨_, step_of_rst_asserted hassert, rfl, rfl, fun _ => rfl, ?_⟩
  simp only [readReg_applyReset]
  exact ⟨hstatus, hcfg, hlen0, hlen1, houtlen, hinst, hirqen, hready, hhmac, hirq⟩

/-! ## Accesses while a command is in flight -/

/-- The state with other answers given, another draw counter and another WERR. -/
def withAnswers (s : State) (werr : Bool) (replies : List Reply) (draws : Nat) : State :=
  { s with status := { s.status with werr := werr }, replies := replies, draws := draws }

/-- An access served while busy changes at most WERR, the answers and the draw counter (R87, R88). -/
theorem serveAccess_of_busy {s : State} (hbusy : s.status.busy = true) (a : Access) :
    ∃ w rs n, serveAccess s a = withAnswers s w rs n := by
  cases a with
  | read off size =>
    obtain ⟨r, n, hread⟩ := busRead_eq s off size
    exact ⟨s.status.werr, _, n, hread⟩
  | write off size d =>
    rcases busWrite_cases s off size d with ⟨_, hw⟩ | ⟨_, _, _, hw⟩ | ⟨_, _, hidle, _⟩
    · exact ⟨s.status.werr, _, s.draws, hw⟩
    · exact ⟨true, _, s.draws, hw⟩
    · rw [hbusy] at hidle; cases hidle

/-- The accesses still to arrive are all served, and the command stays in flight as it was accepted. -/
theorem run_accesses_of_busy {es : List HostEvent} (haccess : ∀ e ∈ es, ∃ a, e = .access a) {s : State}
    (hhost : s.host = es) (hbusy : s.status.busy = true) (hrst : s.inReset = false) :
    ∃ w rs n, Sys2Proof.core.run es.length s = .next (withAnswers { s with host := [] } w rs n) := by
  induction es generalizing s with
  | nil => exact ⟨s.status.werr, s.replies, s.draws, by rw [List.length_nil, ← hhost]; rfl⟩
  | cons e rest ih =>
    obtain ⟨⟨a, rfl⟩, hrest⟩ := List.forall_mem_cons.1 haccess
    obtain ⟨w, rs, n, hserve⟩ := serveAccess_of_busy (s := { s with host := rest }) hbusy a
    have hstep := hserve ▸ step_of_access hrst hhost
    rw [List.length_cons, run_succ_of_step hstep]
    exact ih hrest rfl hbusy hrst

/-! ## The engine's turn after them -/

/-- A run one step longer takes one step more from where the shorter one ended. -/
theorem run_succ_of_run (M : Host.Core) {k : Nat} {s u : M.State} (h : M.run k s = .next u) :
    M.run (k + 1) s = M.step u := by
  induction k generalizing s with
  | zero =>
    cases h
    rw [Host.Core.run]
    cases M.step u <;> simp [Host.Core.run]
  | succ k ih =>
    rw [Host.Core.run] at h ⊢
    cases hstep : M.step s with
    | next t => rw [hstep] at h; exact ih h
    | fault _ | refused _ => rw [hstep] at h; cases h

theorem step_of_busy_no_event {s : State} (hbusy : s.status.busy = true) (hnone : s.host = []) :
    step s = completeLatched s := by
  rw [step_of_no_event hnone, engineStep_of_busy hbusy]

/-- A completion ends idle with DONE set, or is the fault of an unwritten operand byte (R37, R46). -/
theorem complete_cases (s : State) (r : Except Stop Done) :
    (∃ v, complete s r = .next v ∧ v.status.busy = false ∧ v.status.done = true) ∨
      complete s r = .fault .uninitializedOperand := by
  match r with
  | .ok d => exact .inl ⟨completeOk s d, rfl, rfl, rfl⟩
  | .error (.error e) => exact .inl ⟨completeErr s e, rfl, rfl, rfl⟩
  | .error .uninitialized => exact .inr rfl

/-- The latched command's completion, of a legal word or not, is one of these. -/
theorem completeLatched_cases (s : State) :
    (∃ v, completeLatched s = .next v ∧ v.status.busy = false ∧ v.status.done = true) ∨
      completeLatched s = .fault .uninitializedOperand := by
  unfold completeLatched
  split
  next i _ => rw [exec_eq_complete]; exact complete_cases s _
  next => exact complete_cases s _

/-- Settles O27: the accesses leave the command as accepted, and the step after them is the engine's turn. -/
theorem acceptedCommandCompletes : Obligations.AcceptedCommandCompletes := by
  intro s hbusy hrst haccess
  obtain ⟨w, rs, n, hrun⟩ := run_accesses_of_busy haccess rfl hbusy hrst
  refine ⟨_, hrun, rfl, ⟨rfl, rfl, rfl, rfl, rfl, rfl, fun _ _ => rfl, fun _ _ => rfl⟩,
    (run_succ_of_run Sys2Proof.core hrun).trans ?_, completeLatched_cases _⟩
  exact step_of_busy_no_event (s := withAnswers { s with host := [] } w rs n) hbusy rfl

end Sys2Proof.Machine
end
